-- ==== Sys2Proof/Word.lean ====
section
/-! DEFINITION. The word types of the RiscVM CORE (R6, R9) and the three access widths (R77). -/

namespace Sys2Proof

/-- A register, a CSR cell, the pc or an address: 32 bits, bit 0 the least significant (R9). -/
abbrev Word := BitVec 32

/-- One byte of the memory buffer. -/
abbrev Byte := BitVec 8

/-- A register specifier: one of the 5-bit fields `rd`, `rs1`, `rs2` (R40, R119). -/
abbrev RegIdx := BitVec 5

/-- The 12-bit address of a CSR (R118). -/
abbrev CsrAddr := BitVec 12

/-- The size of a data access: 1, 2 or 4 bytes (R77). -/
inductive Width where
  | byte
  | half
  | word
deriving DecidableEq, Repr

end Sys2Proof
end

