-- ==== Sys2Proof/Config.lean ====
section
/-! DEFINITION. What is fixed when the machine is launched (R7), the record of a hook call (R82, R83, R291),
and the free values the spec calls draws and oracle answers: constants with no body, so no proof can see them. -/

namespace Sys2Proof

/-- What an access to an unresolved CSR address does, the launch parameter `CSR_UNRESOLVED` (R270, D6). -/
inductive CsrUnresolved where
  | strict
  | sink
deriving DecidableEq, Repr

/-- The two values the launch parameter `DECODED_BYTES` may have for an image of `P` bytes (R7, D10). -/
inductive DecodedExtent where
  | ceil4
  | align16
deriving DecidableEq, Repr

/-- The launch parameters of R7 that the machine keeps (R44: configuration, fixed at launch). `IMAGE` and
`INIT_FILL` are not here: they become the memory and the decode table (R360). -/
structure Launch where
  /-- `P`, the byte length of the image ("programSize"). -/
  programSize   : Nat
  /-- `STACK_SIZE`. -/
  stackSize     : Nat
  /-- `HEAP_SIZE`. -/
  heapSize      : Nat
  /-- `ENTRY`, the pc after Reset. -/
  entry         : Word
  /-- Which of its two values `DECODED_BYTES` has. -/
  extent        : DecodedExtent
  /-- `LOAD_HOOK`: its base `LB`, if one is installed. -/
  loadHook      : Option Word
  /-- `STORE_HOOK`: its base `SB`, if one is installed. -/
  storeHook     : Option Word
  /-- `SYSCALL_HOOK`: whether one is installed. -/
  syscallHook   : Bool
  /-- `CSR_UNRESOLVED`. -/
  csrUnresolved : CsrUnresolved
  /-- `SYS_BRK`. -/
  sysBrk        : Word
  /-- `SYS_FSTAT`. -/
  sysFstat      : Word
  /-- `ENOSYS`, the positive number that `fstat` returns negated. -/
  enosys        : Word
deriving DecidableEq, Repr

/-- One call of a hook, as the model records it (R83 "each call is recorded as an event"): its arguments
(R82, R83, R291) and its answer. -/
inductive HookCall where
  | load (addr : Word) (size : Width) (signExtend : Bool) (answer : Option Word)
  | store (addr : Word) (size : Width) (value : Word) (ok : Bool)
  | syscall (num a0 a1 a2 a3 a4 a5 a6 : Word) (answer : Option Word)
deriving DecidableEq, Repr

namespace Config

/-- FREE VALUE (log 8): what the load hook answers after the given calls, newest first (R82: "a draw of
`Option (BitVec 32)` that may depend on the history of hook calls and on nothing in the core's state"). -/
opaque loadAnswer (history : List HookCall) (addr : Word) (size : Width) (signExtend : Bool) : Option Word

/-- FREE VALUE (log 8): whether the store hook accepts the store (R83: "a draw of `Bool`"). -/
opaque storeAnswer (history : List HookCall) (addr : Word) (size : Width) (value : Word) : Bool

/-- FREE VALUE (log 8): what the syscall hook answers (R291: "a `Draw(Option (BitVec 32))` that may depend on
the arguments and on the history of earlier calls"). -/
opaque syscallAnswer (history : List HookCall) (num a0 a1 a2 a3 a4 a5 a6 : Word) : Option Word

/-- FREE VALUE (log 7): the `n`-th 32-bit draw: a read of the sink cell (R270, D7), the latch after Initialize
(R45, D27), a register before the first Reset (R360, D27). -/
opaque drawWord (n : Nat) : Word

/-- FREE VALUE (log 18): the sink cell's value that the observer is told after an update of it, the draw counter
being `n` then (R45: the cell's value is unspecified; R275: it is reported). -/
opaque sinkReported (n : Nat) : Word

/-- FREE VALUE (log 4, log 6): the `n`-th draw of a natural number: `cycles` after Reset (R361, D26). -/
opaque drawNat (n : Nat) : Nat

end Config

end Sys2Proof
end

