-- ==== Sys2Proof/Syntax.lean ====
section
/-! DEFINITION. The instructions of spec/opcode_table.json, one constructor a row. Operands are those of the
decoded record (R40): 5-bit register specifiers and the final sign-extended 32-bit immediate of the I, S, B
and J formats (R113, R114, R115, R117); the U format keeps its 20-bit field unshifted (R116); the shifts keep
`shamt`, the CSR instructions `csr` and `zimm`, FENCE its three fields (R118). -/

namespace Sys2Proof

/-- The decoded instructions of the RiscVM CORE. -/
inductive Instr where
  -- upper immediates (R172, R173)
  | lui    (rd : RegIdx) (imm20 : BitVec 20)
  | auipc  (rd : RegIdx) (imm20 : BitVec 20)
  -- register-immediate (R174 to R182)
  | addi   (rd rs1 : RegIdx) (imm : Word)
  | slti   (rd rs1 : RegIdx) (imm : Word)
  | sltiu  (rd rs1 : RegIdx) (imm : Word)
  | xori   (rd rs1 : RegIdx) (imm : Word)
  | ori    (rd rs1 : RegIdx) (imm : Word)
  | andi   (rd rs1 : RegIdx) (imm : Word)
  | slli   (rd rs1 : RegIdx) (shamt : BitVec 5)
  | srli   (rd rs1 : RegIdx) (shamt : BitVec 5)
  | srai   (rd rs1 : RegIdx) (shamt : BitVec 5)
  -- register-register (R183 to R192)
  | add    (rd rs1 rs2 : RegIdx)
  | sub    (rd rs1 rs2 : RegIdx)
  | sll    (rd rs1 rs2 : RegIdx)
  | slt    (rd rs1 rs2 : RegIdx)
  | sltu   (rd rs1 rs2 : RegIdx)
  | xor    (rd rs1 rs2 : RegIdx)
  | srl    (rd rs1 rs2 : RegIdx)
  | sra    (rd rs1 rs2 : RegIdx)
  | or     (rd rs1 rs2 : RegIdx)
  | and    (rd rs1 rs2 : RegIdx)
  -- control transfer (R201 to R208)
  | jal    (rd : RegIdx) (imm : Word)
  | jalr   (rd rs1 : RegIdx) (imm : Word)
  | beq    (rs1 rs2 : RegIdx) (imm : Word)
  | bne    (rs1 rs2 : RegIdx) (imm : Word)
  | blt    (rs1 rs2 : RegIdx) (imm : Word)
  | bge    (rs1 rs2 : RegIdx) (imm : Word)
  | bltu   (rs1 rs2 : RegIdx) (imm : Word)
  | bgeu   (rs1 rs2 : RegIdx) (imm : Word)
  -- loads and stores (R221 to R228)
  | lb     (rd rs1 : RegIdx) (imm : Word)
  | lh     (rd rs1 : RegIdx) (imm : Word)
  | lw     (rd rs1 : RegIdx) (imm : Word)
  | lbu    (rd rs1 : RegIdx) (imm : Word)
  | lhu    (rd rs1 : RegIdx) (imm : Word)
  | sb     (rs1 rs2 : RegIdx) (imm : Word)
  | sh     (rs1 rs2 : RegIdx) (imm : Word)
  | sw     (rs1 rs2 : RegIdx) (imm : Word)
  -- multiply and divide (R241 to R248)
  | mul    (rd rs1 rs2 : RegIdx)
  | mulh   (rd rs1 rs2 : RegIdx)
  | mulhsu (rd rs1 rs2 : RegIdx)
  | mulhu  (rd rs1 rs2 : RegIdx)
  | div    (rd rs1 rs2 : RegIdx)
  | divu   (rd rs1 rs2 : RegIdx)
  | rem    (rd rs1 rs2 : RegIdx)
  | remu   (rd rs1 rs2 : RegIdx)
  -- fences (R260, R261)
  | fence  (fm pred succ : BitVec 4) (rs1 rd : RegIdx)
  | fenceI (imm : Word) (rs1 rd : RegIdx)
  -- CSR access (R277 to R282)
  | csrrw  (rd rs1 : RegIdx) (csr : CsrAddr)
  | csrrs  (rd rs1 : RegIdx) (csr : CsrAddr)
  | csrrc  (rd rs1 : RegIdx) (csr : CsrAddr)
  | csrrwi (rd : RegIdx) (zimm : BitVec 5) (csr : CsrAddr)
  | csrrsi (rd : RegIdx) (zimm : BitVec 5) (csr : CsrAddr)
  | csrrci (rd : RegIdx) (zimm : BitVec 5) (csr : CsrAddr)
  -- environment call and trap return (R290, R295)
  | ecall
  | mret
deriving DecidableEq, Repr

end Sys2Proof
end

