-- ==== Sys2Proof/WellFormed.lean ====
section
/-! DEFINITION. Which immediates each format can hold (R113, R114, R115, R117), and the check that an
instruction's immediate is one of them. Register, shift, CSR and U fields are bit vectors of their own width
and need no check. -/

namespace Sys2Proof

/-- The immediate is one an I or S format holds: the sign extension of its low 12 bits, -2048 to 2047
(R113, R114). -/
def fitsI (imm : Word) : Bool := imm == (imm.extractLsb' 0 12).signExtend 32

/-- The immediate is one a B format holds: even, and the sign extension of its low 13 bits (R115). -/
def fitsB (imm : Word) : Bool := imm == (imm.extractLsb' 1 12 ++ 0#1 : BitVec 13).signExtend 32

/-- The immediate is one a J format holds: even, and the sign extension of its low 21 bits (R117). -/
def fitsJ (imm : Word) : Bool := imm == (imm.extractLsb' 1 20 ++ 0#1 : BitVec 21).signExtend 32

/-- The instruction is one some word decodes to: its immediate, if it has one, fits its format. -/
def Instr.wellFormed : Instr → Bool
  | .lui _ _ | .auipc _ _ => true
  | .addi _ _ imm | .slti _ _ imm | .sltiu _ _ imm => fitsI imm
  | .xori _ _ imm | .ori _ _ imm | .andi _ _ imm => fitsI imm
  | .slli _ _ _ | .srli _ _ _ | .srai _ _ _ => true
  | .add _ _ _ | .sub _ _ _ | .sll _ _ _ | .slt _ _ _ | .sltu _ _ _ => true
  | .xor _ _ _ | .srl _ _ _ | .sra _ _ _ | .or _ _ _ | .and _ _ _ => true
  | .jal _ imm => fitsJ imm
  | .jalr _ _ imm => fitsI imm
  | .beq _ _ imm | .bne _ _ imm | .blt _ _ imm => fitsB imm
  | .bge _ _ imm | .bltu _ _ imm | .bgeu _ _ imm => fitsB imm
  | .lb _ _ imm | .lh _ _ imm | .lw _ _ imm | .lbu _ _ imm | .lhu _ _ imm => fitsI imm
  | .sb _ _ imm | .sh _ _ imm | .sw _ _ imm => fitsI imm
  | .mul _ _ _ | .mulh _ _ _ | .mulhsu _ _ _ | .mulhu _ _ _ => true
  | .div _ _ _ | .divu _ _ _ | .rem _ _ _ | .remu _ _ _ => true
  | .fence _ _ _ _ _ => true
  | .fenceI imm _ _ => fitsI imm
  | .csrrw _ _ _ | .csrrs _ _ _ | .csrrc _ _ _ => true
  | .csrrwi _ _ _ | .csrrsi _ _ _ | .csrrci _ _ _ => true
  | .ecall | .mret => true

end Sys2Proof
end

