-- ==== Sys2Proof/Decode.lean ====
section
/-! DEFINITION. The bit-field decoder (R111), the immediates (R113 to R117), the classification of every
32-bit word (R120 to R132), and the encoder, written from the same formats (R112). -/

namespace Sys2Proof

/-! ### Raw fields (R111) -/

/-- `w[6:0]`. -/
def opcodeOf (w : Word) : BitVec 7 := w.extractLsb' 0 7
/-- `w[11:7]`, rd / imm5. -/
def rdOf (w : Word) : RegIdx := w.extractLsb' 7 5
/-- `w[14:12]`. -/
def funct3Of (w : Word) : BitVec 3 := w.extractLsb' 12 3
/-- `w[19:15]`, rs1 / zimm. -/
def rs1Of (w : Word) : RegIdx := w.extractLsb' 15 5
/-- `w[24:20]`, rs2 / shamt. -/
def rs2Of (w : Word) : RegIdx := w.extractLsb' 20 5
/-- `w[31:25]`, funct7 / imm7. -/
def funct7Of (w : Word) : BitVec 7 := w.extractLsb' 25 7
/-- `w[31:20]`, the raw 12-bit chunk; also the CSR address, unsigned (R118). -/
def imm12Of (w : Word) : BitVec 12 := w.extractLsb' 20 12
/-- `w[31:12]`, the raw 20-bit chunk: the U immediate as the record holds it (R116). -/
def imm20Of (w : Word) : BitVec 20 := w.extractLsb' 12 20
/-- `w[26:25]`, of the R4 format; no instruction in scope uses it. -/
def funct2Of (w : Word) : BitVec 2 := w.extractLsb' 25 2
/-- `w[31:27]`, of the R4 format; no instruction in scope uses it. -/
def rs3Of (w : Word) : BitVec 5 := w.extractLsb' 27 5
/-- FENCE's `fm = w[31:28]` (R118). -/
def fmOf (w : Word) : BitVec 4 := w.extractLsb' 28 4
/-- FENCE's `pred = w[27:24]` (R118). -/
def predOf (w : Word) : BitVec 4 := w.extractLsb' 24 4
/-- FENCE's `succ = w[23:20]` (R118). -/
def succOf (w : Word) : BitVec 4 := w.extractLsb' 20 4

/-! ### Immediates -/

/-- R113: `sext_12(w[31:20])`. -/
def immI (w : Word) : Word := (imm12Of w).signExtend 32

/-- R114: `sext_12({w[31:25], w[11:7]})`. -/
def immS (w : Word) : Word := (funct7Of w ++ rdOf w : BitVec 12).signExtend 32

/-- R115: `sext_13({w[31], w[7], w[30:25], w[11:8], 0})`. -/
def immB (w : Word) : Word :=
  (w.extractLsb' 31 1 ++ w.extractLsb' 7 1 ++ w.extractLsb' 25 6 ++ w.extractLsb' 8 4 ++ 0#1 : BitVec 13).signExtend 32

/-- R117: `sext_21({w[31], w[19:12], w[20], w[30:21], 0})`. -/
def immJ (w : Word) : Word :=
  (w.extractLsb' 31 1 ++ w.extractLsb' 12 8 ++ w.extractLsb' 20 1 ++ w.extractLsb' 21 10 ++ 0#1 : BitVec 21).signExtend 32

/-! ### Classification of words -/

/-- An entry of the decode table (R39): the record of a decoded word, nothing for an illegal word (R131), or
the mark of a word whose decode the source does not settle (R132). -/
inductive Slot where
  | record (i : Instr)
  | empty
  | unsettled
deriving DecidableEq, Repr

/-- BRANCH words (R123; I2). -/
def decodeBranch (w : Word) : Slot :=
  match funct3Of w with
  | 0b000#3 => .record (.beq (rs1Of w) (rs2Of w) (immB w))
  | 0b001#3 => .record (.bne (rs1Of w) (rs2Of w) (immB w))
  | 0b100#3 => .record (.blt (rs1Of w) (rs2Of w) (immB w))
  | 0b101#3 => .record (.bge (rs1Of w) (rs2Of w) (immB w))
  | 0b110#3 => .record (.bltu (rs1Of w) (rs2Of w) (immB w))
  | 0b111#3 => .record (.bgeu (rs1Of w) (rs2Of w) (immB w))
  | _ => .empty

/-- LOAD words (R124; I3). -/
def decodeLoad (w : Word) : Slot :=
  match funct3Of w with
  | 0b000#3 => .record (.lb (rdOf w) (rs1Of w) (immI w))
  | 0b001#3 => .record (.lh (rdOf w) (rs1Of w) (immI w))
  | 0b010#3 => .record (.lw (rdOf w) (rs1Of w) (immI w))
  | 0b100#3 => .record (.lbu (rdOf w) (rs1Of w) (immI w))
  | 0b101#3 => .record (.lhu (rdOf w) (rs1Of w) (immI w))
  | _ => .empty

/-- STORE words (R125; I4). -/
def decodeStore (w : Word) : Slot :=
  match funct3Of w with
  | 0b000#3 => .record (.sb (rs1Of w) (rs2Of w) (immS w))
  | 0b001#3 => .record (.sh (rs1Of w) (rs2Of w) (immS w))
  | 0b010#3 => .record (.sw (rs1Of w) (rs2Of w) (immS w))
  | _ => .empty

/-- OP-IMM words (R126; U2, U3). -/
def decodeOpImm (w : Word) : Slot :=
  match funct3Of w with
  | 0b000#3 => .record (.addi (rdOf w) (rs1Of w) (immI w))
  | 0b010#3 => .record (.slti (rdOf w) (rs1Of w) (immI w))
  | 0b011#3 => .record (.sltiu (rdOf w) (rs1Of w) (immI w))
  | 0b100#3 => .record (.xori (rdOf w) (rs1Of w) (immI w))
  | 0b110#3 => .record (.ori (rdOf w) (rs1Of w) (immI w))
  | 0b111#3 => .record (.andi (rdOf w) (rs1Of w) (immI w))
  | 0b001#3 =>
    match funct7Of w with
    | 0b0000000#7 => .record (.slli (rdOf w) (rs1Of w) (rs2Of w))
    | _ => .unsettled
  | _ =>
    match funct7Of w with
    | 0b0000000#7 => .record (.srli (rdOf w) (rs1Of w) (rs2Of w))
    | 0b0100000#7 => .record (.srai (rdOf w) (rs1Of w) (rs2Of w))
    | _ => .unsettled

/-- OP words (R127; U4). -/
def decodeOp (w : Word) : Slot :=
  match funct7Of w with
  | 0b0000000#7 =>
    match funct3Of w with
    | 0b000#3 => .record (.add (rdOf w) (rs1Of w) (rs2Of w))
    | 0b001#3 => .record (.sll (rdOf w) (rs1Of w) (rs2Of w))
    | 0b010#3 => .record (.slt (rdOf w) (rs1Of w) (rs2Of w))
    | 0b011#3 => .record (.sltu (rdOf w) (rs1Of w) (rs2Of w))
    | 0b100#3 => .record (.xor (rdOf w) (rs1Of w) (rs2Of w))
    | 0b101#3 => .record (.srl (rdOf w) (rs1Of w) (rs2Of w))
    | 0b110#3 => .record (.or (rdOf w) (rs1Of w) (rs2Of w))
    | _ => .record (.and (rdOf w) (rs1Of w) (rs2Of w))
  | 0b0100000#7 =>
    match funct3Of w with
    | 0b000#3 => .record (.sub (rdOf w) (rs1Of w) (rs2Of w))
    | 0b101#3 => .record (.sra (rdOf w) (rs1Of w) (rs2Of w))
    | _ => .unsettled
  | 0b0000001#7 =>
    match funct3Of w with
    | 0b000#3 => .record (.mul (rdOf w) (rs1Of w) (rs2Of w))
    | 0b001#3 => .record (.mulh (rdOf w) (rs1Of w) (rs2Of w))
    | 0b010#3 => .record (.mulhsu (rdOf w) (rs1Of w) (rs2Of w))
    | 0b011#3 => .record (.mulhu (rdOf w) (rs1Of w) (rs2Of w))
    | 0b100#3 => .record (.div (rdOf w) (rs1Of w) (rs2Of w))
    | 0b101#3 => .record (.divu (rdOf w) (rs1Of w) (rs2Of w))
    | 0b110#3 => .record (.rem (rdOf w) (rs1Of w) (rs2Of w))
    | _ => .record (.remu (rdOf w) (rs1Of w) (rs2Of w))
  | _ => .unsettled

/-- MISC-MEM words (R128; I5). -/
def decodeMiscMem (w : Word) : Slot :=
  match funct3Of w with
  | 0b000#3 => .record (.fence (fmOf w) (predOf w) (succOf w) (rs1Of w) (rdOf w))
  | 0b001#3 => .record (.fenceI (immI w) (rs1Of w) (rdOf w))
  | _ => .empty

/-- SYSTEM words (R129; I6, U5). With funct3 000 the whole word is fixed. -/
def decodeSystem (w : Word) : Slot :=
  match funct3Of w with
  | 0b000#3 =>
    if w = 0x00000073#32 then .record .ecall
    else if w = 0x30200073#32 then .record .mret
    else .unsettled
  | 0b001#3 => .record (.csrrw (rdOf w) (rs1Of w) (imm12Of w))
  | 0b010#3 => .record (.csrrs (rdOf w) (rs1Of w) (imm12Of w))
  | 0b011#3 => .record (.csrrc (rdOf w) (rs1Of w) (imm12Of w))
  | 0b101#3 => .record (.csrrwi (rdOf w) (rs1Of w) (imm12Of w))
  | 0b110#3 => .record (.csrrsi (rdOf w) (rs1Of w) (imm12Of w))
  | 0b111#3 => .record (.csrrci (rdOf w) (rs1Of w) (imm12Of w))
  | _ => .empty

/-- The class of a word (R130): the major opcodes of R120; every other opcode is illegal (I1). -/
def decodeWord (w : Word) : Slot :=
  match opcodeOf w with
  | 0x37#7 => .record (.lui (rdOf w) (imm20Of w))
  | 0x17#7 => .record (.auipc (rdOf w) (imm20Of w))
  | 0x6F#7 => .record (.jal (rdOf w) (immJ w))
  | 0x67#7 => if funct3Of w = 0b000#3 then .record (.jalr (rdOf w) (rs1Of w) (immI w)) else .unsettled
  | 0x63#7 => decodeBranch w
  | 0x03#7 => decodeLoad w
  | 0x23#7 => decodeStore w
  | 0x13#7 => decodeOpImm w
  | 0x33#7 => decodeOp w
  | 0x0F#7 => decodeMiscMem w
  | 0x73#7 => decodeSystem w
  | _ => .empty

/-! ### Decoding bytes -/

/-- Why bytes are no instruction. -/
inductive DecodeError where
  /-- Fewer than the four bytes of an instruction (R110). -/
  | truncated
  /-- An illegal word (R131). -/
  | illegal
  /-- An unsettled word (R132). -/
  | unsettled
deriving DecidableEq, Repr

/-- A word from its four bytes, the byte at the lowest address first (R75). -/
def wordOfBytes (b0 b1 b2 b3 : Byte) : Word := b3 ++ b2 ++ b1 ++ b0

/-- Decode the instruction at the head of a list of bytes: the instruction and the bytes after it. -/
def decode : List Byte → Except DecodeError (Instr × List Byte)
  | b0 :: b1 :: b2 :: b3 :: rest =>
    match decodeWord (wordOfBytes b0 b1 b2 b3) with
    | .record i => .ok (i, rest)
    | .empty => .error .illegal
    | .unsettled => .error .unsettled
  | _ => .error .truncated

/-- The bytes of a word, the least significant first (R73, R75). -/
def bytesOfWord (w : Word) : List Byte :=
  [w.extractLsb' 0 8, w.extractLsb' 8 8, w.extractLsb' 16 8, w.extractLsb' 24 8]

/-- The word whose low `nbits` bits are those of `w` and whose other bits are 0. -/
def tableWord (nbits w : Nat) : Word := BitVec.ofNat 32 (w % 2 ^ nbits)

/-- The instruction this decoder reads from the bits `w`, numbered as spec/opcode_table.json numbers them,
laid out as the hardware stores them; none where the word is illegal or unsettled. -/
def decodeTableWord (nbits w : Nat) : Option Instr :=
  match decode (bytesOfWord (tableWord nbits w)) with
  | .ok (i, _) => some i
  | .error _ => none

/-! ### The encoder (R112) -/

/-- The R format. -/
def encR (f7 : BitVec 7) (rs2 rs1 : RegIdx) (f3 : BitVec 3) (rd : RegIdx) (op : BitVec 7) : Word :=
  f7 ++ rs2 ++ rs1 ++ f3 ++ rd ++ op

/-- The I format, from the 12-bit chunk. -/
def encI (imm12 : BitVec 12) (rs1 : RegIdx) (f3 : BitVec 3) (rd : RegIdx) (op : BitVec 7) : Word :=
  imm12 ++ rs1 ++ f3 ++ rd ++ op

/-- The S format, from the record's immediate. -/
def encS (imm : Word) (rs2 rs1 : RegIdx) (f3 : BitVec 3) (op : BitVec 7) : Word :=
  imm.extractLsb' 5 7 ++ rs2 ++ rs1 ++ f3 ++ imm.extractLsb' 0 5 ++ op

/-- The B format, from the record's immediate: `imm[12]`, `imm[10:5]`, ..., `imm[4:1]`, `imm[11]`. -/
def encB (imm : Word) (rs2 rs1 : RegIdx) (f3 : BitVec 3) (op : BitVec 7) : Word :=
  imm.extractLsb' 12 1 ++ imm.extractLsb' 5 6 ++ rs2 ++ rs1 ++ f3 ++ imm.extractLsb' 1 4 ++ imm.extractLsb' 11 1 ++ op

/-- The U format, from the 20-bit field. -/
def encU (imm20 : BitVec 20) (rd : RegIdx) (op : BitVec 7) : Word := imm20 ++ rd ++ op

/-- The J format, from the record's immediate: `imm[20]`, `imm[10:1]`, `imm[11]`, `imm[19:12]`. -/
def encJ (imm : Word) (rd : RegIdx) (op : BitVec 7) : Word :=
  imm.extractLsb' 20 1 ++ imm.extractLsb' 1 10 ++ imm.extractLsb' 11 1 ++ imm.extractLsb' 12 8 ++ rd ++ op

/-- The low 12 bits of the record's immediate, as the I format holds them. -/
def low12 (imm : Word) : BitVec 12 := imm.extractLsb' 0 12

/-- The word of a well-formed instruction. -/
def encode : Instr → Word
  | .lui rd imm20 => encU imm20 rd 0x37
  | .auipc rd imm20 => encU imm20 rd 0x17
  | .addi rd rs1 imm => encI (low12 imm) rs1 0b000 rd 0x13
  | .slti rd rs1 imm => encI (low12 imm) rs1 0b010 rd 0x13
  | .sltiu rd rs1 imm => encI (low12 imm) rs1 0b011 rd 0x13
  | .xori rd rs1 imm => encI (low12 imm) rs1 0b100 rd 0x13
  | .ori rd rs1 imm => encI (low12 imm) rs1 0b110 rd 0x13
  | .andi rd rs1 imm => encI (low12 imm) rs1 0b111 rd 0x13
  | .slli rd rs1 shamt => encR 0b0000000 shamt rs1 0b001 rd 0x13
  | .srli rd rs1 shamt => encR 0b0000000 shamt rs1 0b101 rd 0x13
  | .srai rd rs1 shamt => encR 0b0100000 shamt rs1 0b101 rd 0x13
  | .add rd rs1 rs2 => encR 0b0000000 rs2 rs1 0b000 rd 0x33
  | .sub rd rs1 rs2 => encR 0b0100000 rs2 rs1 0b000 rd 0x33
  | .sll rd rs1 rs2 => encR 0b0000000 rs2 rs1 0b001 rd 0x33
  | .slt rd rs1 rs2 => encR 0b0000000 rs2 rs1 0b010 rd 0x33
  | .sltu rd rs1 rs2 => encR 0b0000000 rs2 rs1 0b011 rd 0x33
  | .xor rd rs1 rs2 => encR 0b0000000 rs2 rs1 0b100 rd 0x33
  | .srl rd rs1 rs2 => encR 0b0000000 rs2 rs1 0b101 rd 0x33
  | .sra rd rs1 rs2 => encR 0b0100000 rs2 rs1 0b101 rd 0x33
  | .or rd rs1 rs2 => encR 0b0000000 rs2 rs1 0b110 rd 0x33
  | .and rd rs1 rs2 => encR 0b0000000 rs2 rs1 0b111 rd 0x33
  | .jal rd imm => encJ imm rd 0x6F
  | .jalr rd rs1 imm => encI (low12 imm) rs1 0b000 rd 0x67
  | .beq rs1 rs2 imm => encB imm rs2 rs1 0b000 0x63
  | .bne rs1 rs2 imm => encB imm rs2 rs1 0b001 0x63
  | .blt rs1 rs2 imm => encB imm rs2 rs1 0b100 0x63
  | .bge rs1 rs2 imm => encB imm rs2 rs1 0b101 0x63
  | .bltu rs1 rs2 imm => encB imm rs2 rs1 0b110 0x63
  | .bgeu rs1 rs2 imm => encB imm rs2 rs1 0b111 0x63
  | .lb rd rs1 imm => encI (low12 imm) rs1 0b000 rd 0x03
  | .lh rd rs1 imm => encI (low12 imm) rs1 0b001 rd 0x03
  | .lw rd rs1 imm => encI (low12 imm) rs1 0b010 rd 0x03
  | .lbu rd rs1 imm => encI (low12 imm) rs1 0b100 rd 0x03
  | .lhu rd rs1 imm => encI (low12 imm) rs1 0b101 rd 0x03
  | .sb rs1 rs2 imm => encS imm rs2 rs1 0b000 0x23
  | .sh rs1 rs2 imm => encS imm rs2 rs1 0b001 0x23
  | .sw rs1 rs2 imm => encS imm rs2 rs1 0b010 0x23
  | .mul rd rs1 rs2 => encR 0b0000001 rs2 rs1 0b000 rd 0x33
  | .mulh rd rs1 rs2 => encR 0b0000001 rs2 rs1 0b001 rd 0x33
  | .mulhsu rd rs1 rs2 => encR 0b0000001 rs2 rs1 0b010 rd 0x33
  | .mulhu rd rs1 rs2 => encR 0b0000001 rs2 rs1 0b011 rd 0x33
  | .div rd rs1 rs2 => encR 0b0000001 rs2 rs1 0b100 rd 0x33
  | .divu rd rs1 rs2 => encR 0b0000001 rs2 rs1 0b101 rd 0x33
  | .rem rd rs1 rs2 => encR 0b0000001 rs2 rs1 0b110 rd 0x33
  | .remu rd rs1 rs2 => encR 0b0000001 rs2 rs1 0b111 rd 0x33
  | .fence fm pred succ rs1 rd => encI (fm ++ pred ++ succ) rs1 0b000 rd 0x0F
  | .fenceI imm rs1 rd => encI (low12 imm) rs1 0b001 rd 0x0F
  | .csrrw rd rs1 csr => encI csr rs1 0b001 rd 0x73
  | .csrrs rd rs1 csr => encI csr rs1 0b010 rd 0x73
  | .csrrc rd rs1 csr => encI csr rs1 0b011 rd 0x73
  | .csrrwi rd zimm csr => encI csr zimm 0b101 rd 0x73
  | .csrrsi rd zimm csr => encI csr zimm 0b110 rd 0x73
  | .csrrci rd zimm csr => encI csr zimm 0b111 rd 0x73
  | .ecall => 0x00000073
  | .mret => 0x30200073

/-- The bytes of an instruction as the image holds them (R75). -/
def encodeBytes (i : Instr) : List Byte := bytesOfWord (encode i)

end Sys2Proof
end

