-- ==== Sys2Proof/Machine/Layout.lean ====
section
/-! DEFINITION. The layout constants derived from the launch parameters (R8, R9), and the two lengths the
decode table may cover (R7, D10). -/

namespace Sys2Proof

/-- `16 * ceil(n/16)` (R9). -/
def align16 (n : Nat) : Nat := 16 * ((n + 15) / 16)

/-- `4 * ceil(n/4)` (R9). -/
def ceil4 (n : Nat) : Nat := 4 * ((n + 3) / 4)

/-- `PROG_END = align16(P)` (R8). -/
def Launch.progEnd (p : Launch) : Nat := align16 p.programSize

/-- `STACK_END = PROG_END + align16(S)` (R8). -/
def Launch.stackEnd (p : Launch) : Nat := p.progEnd + align16 p.stackSize

/-- `HEAP_LIMIT = STACK_END + align16(H)` (R8). -/
def Launch.heapLimit (p : Launch) : Nat := p.stackEnd + align16 p.heapSize

/-- `DECODED_BYTES`, one of `ceil4(P)` and `align16(P)` (R7, D10). -/
def Launch.decodedBytes (p : Launch) : Nat :=
  match p.extent with
  | .ceil4 => ceil4 p.programSize
  | .align16 => align16 p.programSize

end Sys2Proof
end

