-- ==== Sys2Proof/Machine/State.lean ====
section
/-! DEFINITION. The state of the CORE as plain data (R44), why a step can stop (R336), and the state right
after reset (R45). -/

namespace Sys2Proof.Machine

/-- The eight CSR cells, each 32 bits of plain storage (R27, R28). -/
structure CsrFile where
  mstatus  : Word
  mie      : Word
  mtvec    : Word
  mscratch : Word
  mepc     : Word
  mcause   : Word
  mtval    : Word
  mip      : Word
deriving DecidableEq, Repr

/-- The names of the eight CSR cells (R28). -/
inductive CsrName where
  | mstatus
  | mie
  | mtvec
  | mscratch
  | mepc
  | mcause
  | mtval
  | mip
deriving DecidableEq, Repr

/-- What a CSR instruction does to its cell: write, set bits or clear bits (R276). -/
inductive CsrOp where
  | write
  | set
  | clear
deriving DecidableEq, Repr

/-- The seven synchronous causes, by the source's names (R11, R310). -/
inductive Cause where
  | instMisaligned
  | instAccess
  | illegalInst
  | loadMisaligned
  | loadFault
  | storeFault
  | ecallM
deriving DecidableEq, Repr

/-- The memory buffer (R41, R71). `fill` is INIT_FILL (R7, D11), what a byte holds that is not listed: the
listed value, or 0. `cells` lists the other bytes, addresses strictly rising. `len` is `memLen`. -/
structure Memory where
  fill  : List Host.Cell
  cells : List Host.Cell
  len   : Nat
deriving DecidableEq, Repr

/-- Everything the spec gives the machine (R44, R45), with two fields of the model's own: `hookLog`, the
history of hook calls, newest first (log 8), and `draws`, how many free values were drawn (log 7). -/
structure State where
  /-- `x0` to `x31`, the cells themselves: cell 0 is stored like any other (R20, R21). -/
  regs         : Vector Word 32
  /-- The program counter (R24). -/
  pc           : Word
  /-- The CSR file (R27). -/
  csr          : CsrFile
  /-- The interrupt latch (R38). -/
  latchedCause : Word
  /-- The memory buffer and its length (R41). -/
  mem          : Memory
  /-- The host-visible cycle counter (R42). -/
  cycles       : Nat
  /-- The refusal mark (R10, R44). -/
  refused      : Bool
  /-- The decode table (R39), fixed at launch. -/
  dt           : List Slot
  /-- The launch parameters (R7), fixed at launch. -/
  launch       : Launch
  /-- The hook calls made so far, newest first (R82, R83). -/
  hookLog      : List HookCall
  /-- How many free values have been drawn (log 7). -/
  draws        : Nat
deriving DecidableEq, Repr

/-- The machine never stops with a fault: "There is no fatal/unrecoverable engine error in-core" (R336). Every
error the spec names is an exception that is taken (R310, R320). So there is no constructor (log 11; safe). -/
inductive Fault where
deriving DecidableEq, Repr

/-- Why a step, or a host action, has no successor. -/
inductive Refusal where
  /-- Raised by exec's arm of an instruction that has no meaning yet; safe. No arm raises it. -/
  | notModelled (mnemonic : String)
  /-- Raised by the dispatch of a slot marked unsettled: `Refuse(UnsettledEncoding)` (R132, R143); safe. -/
  | unsettledEncoding
  /-- Raised by ECALL's brk fallback for a request in (0, STACK_END) or [2^31, 2^32): `Refuse(BrkOutsideModel)`
  (R292, D25); safe. -/
  | brkOutsideModel
  /-- Raised by a step of a run already marked refused: "nothing more of that run is claimed" (R10); safe. -/
  | runRefused
  /-- Raised by the host action Initialize for an image that is not of the declared size (R360; log 16,
  DESIGN CHOICE, D32 speaking only of a larger one); safe. -/
  | imageNotOfDeclaredSize
deriving DecidableEq, Repr

/-- What a step or a meaning answers. -/
abbrev Result := Host.Outcome State Fault Refusal

/-- The launch parameters `State.reset` has: R7's defaults where it gives them, no image, no hooks, and the
stack and heap sizes of the spec's own programs P4 to P8 (log 1, DESIGN CHOICE). -/
def Launch.atReset : Launch :=
  { programSize := 0, stackSize := 0x100, heapSize := 0x100, entry := 0, extent := .align16
    loadHook := none, storeHook := none, syscallHook := false
    csrUnresolved := .strict, sysBrk := 214, sysFstat := 80, enosys := 38 }

/-- All eight CSR cells 0 (R45). -/
def CsrFile.zero : CsrFile :=
  { mstatus := 0, mie := 0, mtvec := 0, mscratch := 0, mepc := 0, mcause := 0, mtval := 0, mip := 0 }

/-- The register file after Reset: all 0 but `x2 = STACK_END` (R45, R361). -/
def resetRegs (stackEnd : Nat) : Vector Word 32 :=
  (Vector.replicate 32 0).set 2 (BitVec.ofNat 32 stackEnd)

/-- The machine right after Initialize with no image, then Reset (R45). The latch and the counter, for which
the spec gives no reset value, are 0 (log 3, log 4, DESIGN CHOICE). -/
def State.reset : State :=
  { regs := resetRegs Launch.atReset.stackEnd
    pc := Launch.atReset.entry
    csr := CsrFile.zero
    latchedCause := 0
    mem := { fill := [], cells := [], len := Launch.atReset.stackEnd }
    cycles := 0
    refused := false
    dt := []
    launch := Launch.atReset
    hookLog := []
    draws := 0 }

end Sys2Proof.Machine
end

