-- ==== Sys2Proof/Machine/Flags.lean ====
section
/-! DEFINITION. The CORE has no flags (R26): comparisons write a register or decide a branch. This file has
those comparisons, and the named bits of mstatus, mie, mip and mtvec (R29, R30, R35, R36). -/

namespace Sys2Proof.Machine

/-- 1 if the comparison holds, else 0 (R175, R176, R186, R187). -/
def boolWord (b : Bool) : Word := if b then 1 else 0

/-- `s(a) < s(b)` (R170). -/
def lessSigned (a b : Word) : Bool := decide (a.toInt < b.toInt)

/-- `u(a) < u(b)` (R170). -/
def lessUnsigned (a b : Word) : Bool := decide (a.toNat < b.toNat)

/-- A word with one bit replaced. -/
def setBit (v : Word) (i : Nat) (b : Bool) : Word :=
  if b then v ||| (1#32 <<< i) else v &&& ~~~(1#32 <<< i)

/-- `mstatus.MIE`, bit 3 (R29). -/
def mieBit (mstatus : Word) : Bool := mstatus.getLsbD 3

/-- `mstatus.MPIE`, bit 7 (R29). -/
def mpieBit (mstatus : Word) : Bool := mstatus.getLsbD 7

/-- `mie.MEIE`, bit 11 (R35). -/
def meieBit (mie : Word) : Bool := mie.getLsbD 11

/-- `mip.MEIP`, bit 11 (R36). -/
def meipBit (mip : Word) : Bool := mip.getLsbD 11

/-- `mip` with MEIP replaced (R314, R321). -/
def setMeip (mip : Word) (b : Bool) : Word := setBit mip 11 b

/-- What trap entry does to mstatus: `MPIE <- MIE`, then `MIE <- 0` (R320, R321). -/
def enterTrapStatus (mstatus : Word) : Word := setBit (setBit mstatus 7 (mieBit mstatus)) 3 false

/-- What MRET does to mstatus: `MIE <- MPIE`, and nothing else (R295, D20). -/
def leaveTrapStatus (mstatus : Word) : Word := setBit mstatus 3 (mpieBit mstatus)

/-- The trap-vector base, `mtvec & 0xFFFFFFFC` (R30). -/
def vectorBase (mtvec : Word) : Word := mtvec &&& 0xFFFFFFFC

/-- The vectored-mode bit, `mtvec[0]` (R30, D5). -/
def vectoredBit (mtvec : Word) : Bool := mtvec.getLsbD 0

end Sys2Proof.Machine
end

