-- ==== Sys2Proof/Machine/Memory.lean ====
section
/-! DEFINITION. The memory buffer as a list of bytes in one canonical form, and the accesses built from its
bytes, little-endian (R73, R80, R81, R86). -/

namespace Sys2Proof.Machine

/-- The number of bytes of an access (R77). -/
def accessBytes : Width → Nat
  | .byte => 1
  | .half => 2
  | .word => 4

/-- The byte listed at an address, if one is. -/
def lookupCell : List Host.Cell → Nat → Option Byte
  | [], _ => none
  | (k, v) :: rest, a => if k = a then some v else lookupCell rest a

/-- List a byte at an address, keeping addresses rising. -/
def insertCell (a : Nat) (b : Byte) : List Host.Cell → List Host.Cell
  | [] => [(a, b)]
  | (k, v) :: rest =>
    if a < k then (a, b) :: (k, v) :: rest
    else if a = k then (a, b) :: rest
    else (k, v) :: insertCell a b rest

/-- List no byte at an address. -/
def eraseCell (a : Nat) : List Host.Cell → List Host.Cell
  | [] => []
  | (k, v) :: rest => if k = a then eraseCell a rest else (k, v) :: eraseCell a rest

/-- Addresses strictly rise. -/
def rising : List Host.Cell → Bool
  | [] => true
  | [_] => true
  | (k, _) :: (k', v') :: rest => decide (k < k') && rising ((k', v') :: rest)

/-- What an unlisted address reads as: its INIT_FILL byte (R7, R85, D11), 0 where INIT_FILL lists none (log 5). -/
def Memory.background (m : Memory) (a : Nat) : Byte := (lookupCell m.fill a).getD 0

/-- The byte at an address of the buffer. -/
def Memory.read (m : Memory) (a : Nat) : Byte := (lookupCell m.cells a).getD (m.background a)

/-- Write one byte: listed, unless it is what the address reads as unlisted. -/
def Memory.write (m : Memory) (a : Nat) (b : Byte) : Memory :=
  { m with cells := if b = m.background a then eraseCell a m.cells else insertCell a b m.cells }

/-- The canonical form: addresses rise, no entry equals what an unlisted address reads as, every entry lies
inside the buffer; and INIT_FILL itself rises and lists no 0. -/
def Memory.wf (m : Memory) : Bool :=
  rising m.fill && m.fill.all (fun c => decide (c.2 ≠ 0)) &&
  rising m.cells && m.cells.all (fun c => decide (c.2 ≠ m.background c.1) && decide (c.1 < m.len))

/-- Write bytes at rising addresses, the first at `a`. -/
def Memory.writeBytes (m : Memory) (a : Nat) : List Byte → Memory
  | [] => m
  | b :: rest => (m.write a b).writeBytes (a + 1) rest

/-- The low `8n` bits of a register as bytes, the least significant first (R73). -/
def storedBytes (w : Width) (v : Word) : List Byte :=
  match w with
  | .byte => [v.extractLsb' 0 8]
  | .half => [v.extractLsb' 0 8, v.extractLsb' 8 8]
  | .word => [v.extractLsb' 0 8, v.extractLsb' 8 8, v.extractLsb' 16 8, v.extractLsb' 24 8]

/-- Step (d) of `MemWrite` (R81): the bytes go to the buffer. -/
def Memory.store (m : Memory) (a : Nat) (w : Width) (v : Word) : Memory := m.writeBytes a (storedBytes w v)

/-- Step (d) of `MemRead` (R80): the bytes as one value, sign- or zero-extended to 32 bits. -/
def Memory.load (m : Memory) (a : Nat) (w : Width) (signed : Bool) : Word :=
  match w with
  | .byte => if signed then (m.read a).signExtend 32 else (m.read a).setWidth 32
  | .half =>
    if signed then (m.read (a + 1) ++ m.read a : BitVec 16).signExtend 32
    else (m.read (a + 1) ++ m.read a : BitVec 16).setWidth 32
  | .word => m.read (a + 3) ++ m.read (a + 2) ++ m.read (a + 1) ++ m.read a

/-- `Resize(newLen)` (R86): bytes below both lengths stay, the others are INIT_FILL again. -/
def Memory.resize (m : Memory) (newLen : Nat) : Memory :=
  { m with cells := m.cells.filter (fun c => decide (c.1 < min m.len newLen)), len := newLen }

/-- The buffer Initialize creates (R85): the image at `[0, P)`, INIT_FILL elsewhere, length `len`. -/
def Memory.initial (fill : List Host.Cell) (image : List Byte) (len : Nat) : Memory :=
  { fill := fill
    cells := (image.zipIdx.map (fun e => (e.2, e.1))).filter (fun c => decide (c.2 ≠ (lookupCell fill c.1).getD 0))
    len := len }

end Sys2Proof.Machine
end

