-- ==== Sys2Proof/Machine/Operands.lean ====
section
/-! DEFINITION. The operand forms: registers (R119, R152), the shift amount (R171), the U immediate (R116),
`zimm` (R118), and the addresses instructions compute (R200, R220). -/

namespace Sys2Proof.Machine

/-- `x[r]` as an instruction reads it. `x[0]` reads 0: the step clears cell 0 before an instruction executes
(R21, R150 step 2, R152; log 9). -/
def State.readReg (s : State) (r : RegIdx) : Word := if r = 0 then 0 else s.regs[r.toNat]'r.isLt

/-- Register cell `r` as the host sees it, cell 0 included (R21, R43). -/
def State.cell (s : State) (r : RegIdx) : Word := s.regs[r.toNat]'r.isLt

/-- `a0` = x10 (R12). -/
def a0 : RegIdx := 10

/-- `a7` = x17 (R12). -/
def a7 : RegIdx := 17

/-- A shift amount is its low 5 bits (R171). -/
def shiftAmount (v : Word) : Nat := (v.extractLsb' 0 5).toNat

/-- The U immediate as LUI and AUIPC use it, `imm20 << 12` (R116). -/
def upperImm (imm20 : BitVec 20) : Word := imm20 ++ 0#12

/-- `zext_5` of the CSR immediate (R118). -/
def zimmWord (zimm : BitVec 5) : Word := zimm.setWidth 32

/-- The effective address of a load or store, `x[rs1] + imm` (R220). -/
def State.effAddr (s : State) (rs1 : RegIdx) (imm : Word) : Word := s.readReg rs1 + imm

/-- The target of JAL and of a taken branch, `pc + imm` (R200). -/
def State.pcTarget (s : State) (imm : Word) : Word := s.pc + imm

/-- The target of JALR, `(x[rs1] + imm) & ~1` (R200, R202). -/
def State.jalrTarget (s : State) (rs1 : RegIdx) (imm : Word) : Word := (s.readReg rs1 + imm) &&& 0xFFFFFFFE

/-- The link value, `pc + 4` (R200). -/
def State.link (s : State) : Word := s.pc + 4

end Sys2Proof.Machine
end

