-- ==== Sys2Proof/Machine/Ops.lean ====
section
/-! DEFINITION. The shared operations over registers, pc, CSR cells, memory and hooks, taking an exception or
the interrupt, and the return from a trap. An operation that ends an instruction leaves `pc` at the address
the step commits (R10, R150 step 6). -/

namespace Sys2Proof.Machine

/-! ### Registers and pc -/

/-- `x[r] <- v`. A write to cell 0 stores like any other (R21). -/
def State.writeReg (s : State) (r : RegIdx) (v : Word) : State := { s with regs := s.regs.set r.toNat v r.isLt }

/-- The default next pc, `pc + 4` modulo 2^32 (R24, R25). -/
def State.advance (s : State) : State := { s with pc := s.pc + 4 }

/-- `pc <- target`, whatever the target's alignment (R200, D13). -/
def State.jumpTo (s : State) (target : Word) : State := { s with pc := target }

/-- Step 2 of an instruction step: `x[0] <- 0` (R150). -/
def State.clearX0 (s : State) : State := s.writeReg 0 0

/-- The end of a step counts it (R42, R150 step 6). -/
def State.countCycle (s : State) : State := { s with cycles := s.cycles + 1 }

/-! ### CSR cells -/

/-- A cell's 32-bit value (R271). -/
def CsrFile.get (f : CsrFile) : CsrName → Word
  | .mstatus => f.mstatus
  | .mie => f.mie
  | .mtvec => f.mtvec
  | .mscratch => f.mscratch
  | .mepc => f.mepc
  | .mcause => f.mcause
  | .mtval => f.mtval
  | .mip => f.mip

/-- A cell set to a value, all 32 bits, with no legalisation (R27, R272). -/
def CsrFile.put (f : CsrFile) (n : CsrName) (v : Word) : CsrFile :=
  match n with
  | .mstatus => { f with mstatus := v }
  | .mie => { f with mie := v }
  | .mtvec => { f with mtvec := v }
  | .mscratch => { f with mscratch := v }
  | .mepc => { f with mepc := v }
  | .mcause => { f with mcause := v }
  | .mtval => { f with mtval := v }
  | .mip => { f with mip := v }

/-- The cell a 12-bit address resolves to, or none (R28, R270). -/
def csrResolve (a : CsrAddr) : Option CsrName :=
  if a = 0x300 then some .mstatus
  else if a = 0x304 then some .mie
  else if a = 0x305 then some .mtvec
  else if a = 0x340 then some .mscratch
  else if a = 0x341 then some .mepc
  else if a = 0x342 then some .mcause
  else if a = 0x343 then some .mtval
  else if a = 0x344 then some .mip
  else none

/-- The 32-bit draw of this point of the run, and the state that has drawn it (R10 `Draw`; log 7). -/
def State.drawWord (s : State) : Word × State := (Config.drawWord s.draws, { s with draws := s.draws + 1 })

/-- `CsrRead(a)` (R271): the cell's value, or a draw for an unresolved address (R270, D7). -/
def State.csrRead (s : State) (a : CsrAddr) : Word × State :=
  match csrResolve a with
  | some n => (s.csr.get n, s)
  | none => s.drawWord

/-- `CsrWrite(a, v)` (R272); an unresolved address discards the write. -/
def State.csrWrite (s : State) (a : CsrAddr) (v : Word) : State :=
  match csrResolve a with
  | some n => { s with csr := s.csr.put n v }
  | none => s

/-- `CsrSet(a, m)`: `cell | m` (R273). -/
def State.csrSet (s : State) (a : CsrAddr) (m : Word) : State :=
  match csrResolve a with
  | some n => { s with csr := s.csr.put n (s.csr.get n ||| m) }
  | none => s

/-- `CsrClear(a, m)`: `cell & ~m` (R274). -/
def State.csrClear (s : State) (a : CsrAddr) (m : Word) : State :=
  match csrResolve a with
  | some n => { s with csr := s.csr.put n (s.csr.get n &&& ~~~m) }
  | none => s

/-- The write half of a CSR instruction (R276). -/
def State.csrUpdate (s : State) (op : CsrOp) (a : CsrAddr) (v : Word) : State :=
  match op with
  | .write => s.csrWrite a v
  | .set => s.csrSet a v
  | .clear => s.csrClear a v

/-! ### Traps -/

/-- The code written to mcause (R310). -/
def Cause.code : Cause → Word
  | .instMisaligned => 0
  | .instAccess => 1
  | .illegalInst => 2
  | .loadMisaligned => 4
  | .loadFault => 5
  | .storeFault => 7
  | .ecallM => 11

/-- Exception entry (R320): mcause is the cause, mepc the pc, MPIE the old MIE, MIE 0, mtval 0, and the next
pc the base of mtvec, whatever its vectored bit. -/
def State.takeException (s : State) (c : Cause) : State :=
  { s with
    csr := { s.csr with
      mcause := c.code
      mepc := s.pc
      mstatus := enterTrapStatus s.csr.mstatus
      mtval := 0 }
    pc := vectorBase s.csr.mtvec }

/-- `VectorTarget(c)` (R322): the base, or `base + 4*c` modulo 2^32 in vectored mode. -/
def vectorTarget (mtvec c : Word) : Word :=
  if vectoredBit mtvec then vectorBase mtvec + 4 * c else vectorBase mtvec

/-- The external interrupt is taken at the start of this step: MIE, MEIE and MEIP are all 1 (R315). -/
def State.interruptReady (s : State) : Bool :=
  mieBit s.csr.mstatus && meieBit s.csr.mie && meipBit s.csr.mip

/-- Interrupt entry (R321): mcause is the latched cause with its top bit set, mepc the pc, MPIE the old MIE,
MIE 0, MEIP 0, and the next pc the vector. mtval and the latch stay (D18). -/
def State.takeInterrupt (s : State) : State :=
  { s with
    csr := { s.csr with
      mcause := 0x80000000 ||| s.latchedCause
      mepc := s.pc
      mstatus := enterTrapStatus s.csr.mstatus
      mip := setMeip s.csr.mip false }
    pc := vectorTarget s.csr.mtvec s.latchedCause }

/-- Trap return (R295, R324): the pc is mepc verbatim, MIE is MPIE, and a0 is mscratch if mtval is not 0. -/
def State.trapReturn (s : State) : State :=
  let t := { s with pc := s.csr.mepc, csr := { s.csr with mstatus := leaveTrapStatus s.csr.mstatus } }
  if s.csr.mtval ≠ 0 then t.writeReg a0 s.csr.mscratch else t

/-! ### Hooks -/

/-- Record a hook call (R83, R90). -/
def State.recordCall (s : State) (c : HookCall) : State := { s with hookLog := c :: s.hookLog }

/-- The load hook's answer (R82), the call recorded. -/
def State.callLoadHook (s : State) (addr : Word) (w : Width) (signed : Bool) : Option Word × State :=
  let r := Config.loadAnswer s.hookLog addr w signed
  (r, s.recordCall (.load addr w signed r))

/-- The store hook's answer (R83), the call recorded. -/
def State.callStoreHook (s : State) (addr : Word) (w : Width) (v : Word) : Bool × State :=
  let ok := Config.storeAnswer s.hookLog addr w v
  (ok, s.recordCall (.store addr w v ok))

/-- The syscall hook's answer to the number in a7 and the arguments a0 to a6 (R291), the call recorded. -/
def State.callSyscallHook (s : State) : Option Word × State :=
  let r := Config.syscallAnswer s.hookLog (s.readReg a7) (s.readReg 10) (s.readReg 11) (s.readReg 12)
    (s.readReg 13) (s.readReg 14) (s.readReg 15) (s.readReg 16)
  (r, s.recordCall
    (.syscall (s.readReg a7) (s.readReg 10) (s.readReg 11) (s.readReg 12) (s.readReg 13) (s.readReg 14)
      (s.readReg 15) (s.readReg 16) r))

/-- An installed hook serves the address: it is at or above the base, unsigned (R72, R82, R83, C9). -/
def hookServes (base : Option Word) (addr : Word) : Bool :=
  match base with
  | none => false
  | some b => decide (b.toNat ≤ addr.toNat)

/-! ### The load and store paths -/

/-- How an access ends: with a value, or with the exception it raises; and the state then, in which only
`hookLog` (a hook was called) or the buffer (a store) may differ. -/
inductive Access (α : Type) where
  | done (v : α) (s : State)
  | trap (c : Cause) (s : State)

/-- The access is not naturally aligned (R76). -/
def misaligned (addr : Word) (w : Width) : Bool := decide (addr.toNat % accessBytes w ≠ 0)

/-- The access lies in the buffer: `u(a) + n <= memLen`, without wrap-around (R84). -/
def State.inBounds (s : State) (addr : Word) (w : Width) : Bool := decide (addr.toNat + accessBytes w ≤ s.mem.len)

/-- The value the store hook receives: the low `8n` bits, zero-extended (R83, D22). -/
def hookValue (w : Width) (v : Word) : Word :=
  match w with
  | .byte => (v.extractLsb' 0 8).setWidth 32
  | .half => (v.extractLsb' 0 16).setWidth 32
  | .word => v

/-- `MemRead(addr, n, signed)` (R80): alignment, then the hook, then the bounds, then the bytes. -/
def State.memRead (s : State) (addr : Word) (w : Width) (signed : Bool) : Access Word :=
  if misaligned addr w then .trap .loadMisaligned s
  else if hookServes s.launch.loadHook addr then
    match s.callLoadHook addr w signed with
    | (none, t) => .trap .loadFault t
    | (some v, t) => .done v t
  else if s.inBounds addr w then .done (s.mem.load addr.toNat w signed) s
  else .trap .loadFault s

/-- `MemWrite(addr, n, v)` (R81): alignment (the load code, R76), then the hook, then the bounds, then the
bytes. -/
def State.memWrite (s : State) (addr : Word) (w : Width) (v : Word) : Access Unit :=
  if misaligned addr w then .trap .loadMisaligned s
  else if hookServes s.launch.storeHook addr then
    match s.callStoreHook addr w (hookValue w v) with
    | (false, t) => .trap .storeFault t
    | (true, t) => .done () t
  else if s.inBounds addr w then .done () { s with mem := s.mem.store addr.toNat w v }
  else .trap .storeFault s

end Sys2Proof.Machine
end

