-- ==== Sys2Proof/Machine/Control.lean ====
section
/-! DEFINITION. Jumps and branches (R200 to R208). A transfer never raises an exception: a target that cannot be
fetched faults at the next step (R200, D13). -/

namespace Sys2Proof.Machine

/-! ### Jumps -/

/-- JAL (R201): `x[rd] <- pc + 4; pc <- pc + imm`. -/
def execJal (rd : RegIdx) (imm : Word) (s : State) : Result :=
  .next ((s.writeReg rd s.link).jumpTo (s.pcTarget imm))

/-- JALR (R202): the target is read before `rd` is written. -/
def execJalr (rd rs1 : RegIdx) (imm : Word) (s : State) : Result :=
  .next ((s.writeReg rd s.link).jumpTo (s.jalrTarget rs1 imm))

/-! ### Conditional branches -/

/-- A branch (R203 to R208): to `pc + imm` when its condition holds, else on; it writes no register. -/
def execBranch (taken : Bool) (imm : Word) (s : State) : Result :=
  .next (if taken then s.jumpTo (s.pcTarget imm) else s.advance)

/-- BEQ (R203). -/
def execBeq (rs1 rs2 : RegIdx) (imm : Word) (s : State) : Result :=
  execBranch (s.readReg rs1 == s.readReg rs2) imm s

/-- BNE (R204). -/
def execBne (rs1 rs2 : RegIdx) (imm : Word) (s : State) : Result :=
  execBranch (s.readReg rs1 != s.readReg rs2) imm s

/-- BLT (R205). -/
def execBlt (rs1 rs2 : RegIdx) (imm : Word) (s : State) : Result :=
  execBranch (lessSigned (s.readReg rs1) (s.readReg rs2)) imm s

/-- BGE (R206). -/
def execBge (rs1 rs2 : RegIdx) (imm : Word) (s : State) : Result :=
  execBranch (!lessSigned (s.readReg rs1) (s.readReg rs2)) imm s

/-- BLTU (R207). -/
def execBltu (rs1 rs2 : RegIdx) (imm : Word) (s : State) : Result :=
  execBranch (lessUnsigned (s.readReg rs1) (s.readReg rs2)) imm s

/-- BGEU (R208). -/
def execBgeu (rs1 rs2 : RegIdx) (imm : Word) (s : State) : Result :=
  execBranch (!lessUnsigned (s.readReg rs1) (s.readReg rs2)) imm s

end Sys2Proof.Machine
end

