-- ==== Sys2Proof/Machine/Csr.lean ====
section
/-! DEFINITION. The six CSR instructions (R276 to R284): one atomic read-modify-write of one cell. -/

namespace Sys2Proof.Machine

/-- The CSR instruction raises ILLEGAL_INST: its address is unresolved and `CSR_UNRESOLVED` is Strict, whatever
its other fields (R270, D6). -/
def State.csrIllegal (s : State) (csr : CsrAddr) : Bool :=
  (csrResolve csr).isNone && decide (s.launch.csrUnresolved = .strict)

/-- `CsrInstr` (R276) with its operand `v` already read: the old value goes to `rd` unless `rd` is 0, and the
cell is updated unless the `rs1`/`zimm` FIELD `src` is 0 (C5). -/
def csrInstr (op : CsrOp) (rd : RegIdx) (src : BitVec 5) (v : Word) (csr : CsrAddr) (s : State) : Result :=
  if s.csrIllegal csr then .next (s.takeException .illegalInst)
  else
    let (old, t) := s.csrRead csr
    let t := if rd ≠ 0 then t.writeReg rd old else t
    let t := if src ≠ 0 then t.csrUpdate op csr v else t
    .next t.advance

/-- CSRRW (R277). -/
def execCsrrw (rd rs1 : RegIdx) (csr : CsrAddr) (s : State) : Result :=
  csrInstr .write rd rs1 (s.readReg rs1) csr s

/-- CSRRS (R278). -/
def execCsrrs (rd rs1 : RegIdx) (csr : CsrAddr) (s : State) : Result :=
  csrInstr .set rd rs1 (s.readReg rs1) csr s

/-- CSRRC (R279). -/
def execCsrrc (rd rs1 : RegIdx) (csr : CsrAddr) (s : State) : Result :=
  csrInstr .clear rd rs1 (s.readReg rs1) csr s

/-- CSRRWI (R280). -/
def execCsrrwi (rd : RegIdx) (zimm : BitVec 5) (csr : CsrAddr) (s : State) : Result :=
  csrInstr .write rd zimm (zimmWord zimm) csr s

/-- CSRRSI (R281). -/
def execCsrrsi (rd : RegIdx) (zimm : BitVec 5) (csr : CsrAddr) (s : State) : Result :=
  csrInstr .set rd zimm (zimmWord zimm) csr s

/-- CSRRCI (R282). -/
def execCsrrci (rd : RegIdx) (zimm : BitVec 5) (csr : CsrAddr) (s : State) : Result :=
  csrInstr .clear rd zimm (zimmWord zimm) csr s

end Sys2Proof.Machine
end

