-- ==== Sys2Proof/Machine/Fence.lean ====
section
/-! DEFINITION. The fences (R260, R261): in a core that performs every access in program order within its step there is
nothing to order (R89, R91). -/

namespace Sys2Proof.Machine

/-- FENCE (R260): no operation, whatever its fields; only the pc moves on. -/
def execFence (_fm _pred _succ : BitVec 4) (_rs1 _rd : RegIdx) (s : State) : Result := .next s.advance

/-- FENCE.I (R261): no operation; the decode table is not rebuilt (R92). -/
def execFenceI (_imm : Word) (_rs1 _rd : RegIdx) (s : State) : Result := .next s.advance

end Sys2Proof.Machine
end

