-- ==== Sys2Proof/Machine/Integer.lean ====
section
/-! DEFINITION. The integer computational instructions (R170 to R192). Sources are read before `rd` is written (R22);
none raises an exception. -/

namespace Sys2Proof.Machine

/-- An instruction that writes `rd` and moves on: `x[rd] <- v`, `npc = pc + 4`. -/
def execResult (rd : RegIdx) (v : Word) (s : State) : Result := .next ((s.writeReg rd v).advance)

/-- `v << sh` with the amount's low 5 bits (R171). -/
def shiftLeft (v amount : Word) : Word := v <<< shiftAmount amount

/-- `v >>u sh`, filling with zeros (R171). -/
def shiftRightLogical (v amount : Word) : Word := v >>> shiftAmount amount

/-- `v >>s sh`, filling with copies of `v[31]` (R171). -/
def shiftRightArith (v amount : Word) : Word := v.sshiftRight (shiftAmount amount)

/-! ### Upper immediates -/

/-- LUI (R172): `imm20 << 12`. -/
def execLui (rd : RegIdx) (imm20 : BitVec 20) (s : State) : Result := execResult rd (upperImm imm20) s

/-- AUIPC (R173): `pc + (imm20 << 12)`. -/
def execAuipc (rd : RegIdx) (imm20 : BitVec 20) (s : State) : Result := execResult rd (s.pc + upperImm imm20) s

/-! ### Register-immediate -/

/-- ADDI (R174). -/
def execAddi (rd rs1 : RegIdx) (imm : Word) (s : State) : Result :=
  execResult rd (s.readReg rs1 + imm) s

/-- SLTI (R175). -/
def execSlti (rd rs1 : RegIdx) (imm : Word) (s : State) : Result :=
  execResult rd (boolWord (lessSigned (s.readReg rs1) imm)) s

/-- SLTIU, the sign-extended immediate compared unsigned (R176). -/
def execSltiu (rd rs1 : RegIdx) (imm : Word) (s : State) : Result :=
  execResult rd (boolWord (lessUnsigned (s.readReg rs1) imm)) s

/-- XORI (R177). -/
def execXori (rd rs1 : RegIdx) (imm : Word) (s : State) : Result :=
  execResult rd (s.readReg rs1 ^^^ imm) s

/-- ORI (R178). -/
def execOri (rd rs1 : RegIdx) (imm : Word) (s : State) : Result :=
  execResult rd (s.readReg rs1 ||| imm) s

/-- ANDI (R179). -/
def execAndi (rd rs1 : RegIdx) (imm : Word) (s : State) : Result :=
  execResult rd (s.readReg rs1 &&& imm) s

/-- SLLI (R180). -/
def execSlli (rd rs1 : RegIdx) (shamt : BitVec 5) (s : State) : Result :=
  execResult rd (shiftLeft (s.readReg rs1) (shamt.setWidth 32)) s

/-- SRLI (R181). -/
def execSrli (rd rs1 : RegIdx) (shamt : BitVec 5) (s : State) : Result :=
  execResult rd (shiftRightLogical (s.readReg rs1) (shamt.setWidth 32)) s

/-- SRAI (R182). -/
def execSrai (rd rs1 : RegIdx) (shamt : BitVec 5) (s : State) : Result :=
  execResult rd (shiftRightArith (s.readReg rs1) (shamt.setWidth 32)) s

/-! ### Register-register -/

/-- ADD (R183). -/
def execAdd (rd rs1 rs2 : RegIdx) (s : State) : Result :=
  execResult rd (s.readReg rs1 + s.readReg rs2) s

/-- SUB (R184). -/
def execSub (rd rs1 rs2 : RegIdx) (s : State) : Result :=
  execResult rd (s.readReg rs1 - s.readReg rs2) s

/-- SLL (R185). -/
def execSll (rd rs1 rs2 : RegIdx) (s : State) : Result :=
  execResult rd (shiftLeft (s.readReg rs1) (s.readReg rs2)) s

/-- SLT (R186). -/
def execSlt (rd rs1 rs2 : RegIdx) (s : State) : Result :=
  execResult rd (boolWord (lessSigned (s.readReg rs1) (s.readReg rs2))) s

/-- SLTU (R187). -/
def execSltu (rd rs1 rs2 : RegIdx) (s : State) : Result :=
  execResult rd (boolWord (lessUnsigned (s.readReg rs1) (s.readReg rs2))) s

/-- XOR (R188). -/
def execXor (rd rs1 rs2 : RegIdx) (s : State) : Result :=
  execResult rd (s.readReg rs1 ^^^ s.readReg rs2) s

/-- SRL (R189). -/
def execSrl (rd rs1 rs2 : RegIdx) (s : State) : Result :=
  execResult rd (shiftRightLogical (s.readReg rs1) (s.readReg rs2)) s

/-- SRA (R190). -/
def execSra (rd rs1 rs2 : RegIdx) (s : State) : Result :=
  execResult rd (shiftRightArith (s.readReg rs1) (s.readReg rs2)) s

/-- OR (R191). -/
def execOr (rd rs1 rs2 : RegIdx) (s : State) : Result :=
  execResult rd (s.readReg rs1 ||| s.readReg rs2) s

/-- AND (R192). -/
def execAnd (rd rs1 rs2 : RegIdx) (s : State) : Result :=
  execResult rd (s.readReg rs1 &&& s.readReg rs2) s

end Sys2Proof.Machine
end

