-- ==== Sys2Proof/Machine/LoadStore.lean ====
section
/-! DEFINITION. Loads and stores (R220 to R229) over the memory paths of R80 and R81. -/

namespace Sys2Proof.Machine

/-- A load (R220): `rd` is written only if the access raises no exception; a raised one is taken, and `rd` and
the buffer stay as they were (R323). -/
def execLoad (rd : RegIdx) (addr : Word) (w : Width) (signed : Bool) (s : State) : Result :=
  match s.memRead addr w signed with
  | .done v t => .next ((t.writeReg rd v).advance)
  | .trap c t => .next (t.takeException c)

/-- A store (R220). -/
def execStore (addr : Word) (w : Width) (v : Word) (s : State) : Result :=
  match s.memWrite addr w v with
  | .done () t => .next t.advance
  | .trap c t => .next (t.takeException c)

/-! ### Loads -/

/-- LB (R221). -/
def execLb (rd rs1 : RegIdx) (imm : Word) (s : State) : Result :=
  execLoad rd (s.effAddr rs1 imm) .byte true s

/-- LH (R222). -/
def execLh (rd rs1 : RegIdx) (imm : Word) (s : State) : Result :=
  execLoad rd (s.effAddr rs1 imm) .half true s

/-- LW; `signed` is true for the hook (D22) (R223). -/
def execLw (rd rs1 : RegIdx) (imm : Word) (s : State) : Result :=
  execLoad rd (s.effAddr rs1 imm) .word true s

/-- LBU (R224). -/
def execLbu (rd rs1 : RegIdx) (imm : Word) (s : State) : Result :=
  execLoad rd (s.effAddr rs1 imm) .byte false s

/-- LHU (R225). -/
def execLhu (rd rs1 : RegIdx) (imm : Word) (s : State) : Result :=
  execLoad rd (s.effAddr rs1 imm) .half false s

/-! ### Stores -/

/-- SB (R226). -/
def execSb (rs1 rs2 : RegIdx) (imm : Word) (s : State) : Result :=
  execStore (s.effAddr rs1 imm) .byte (s.readReg rs2) s

/-- SH (R227). -/
def execSh (rs1 rs2 : RegIdx) (imm : Word) (s : State) : Result :=
  execStore (s.effAddr rs1 imm) .half (s.readReg rs2) s

/-- SW (R228). -/
def execSw (rs1 rs2 : RegIdx) (imm : Word) (s : State) : Result :=
  execStore (s.effAddr rs1 imm) .word (s.readReg rs2) s

end Sys2Proof.Machine
end

