-- ==== Sys2Proof/Machine/MulDiv.lean ====
section
/-! DEFINITION. Multiply and divide (R240 to R249). Every operand pair has a value; none raises an exception. -/

namespace Sys2Proof.Machine

/-- Bits 63:32 of an exact 64-bit product (R240). -/
def highWord (product : Int) : Word := (BitVec.ofInt 64 product).extractLsb' 32 32

/-- Bits 31:0 of an exact 64-bit product (R240). -/
def lowWord (product : Int) : Word := (BitVec.ofInt 64 product).extractLsb' 0 32

/-- Signed division truncating toward zero, with its two corners (R245). -/
def divSigned (a b : Word) : Word :=
  if b = 0 then 0xFFFFFFFF
  else if a = 0x80000000 ∧ b = 0xFFFFFFFF then 0x80000000
  else BitVec.ofInt 32 (a.toInt.tdiv b.toInt)

/-- Unsigned division, with its corner (R246). -/
def divUnsigned (a b : Word) : Word :=
  if b = 0 then 0xFFFFFFFF else BitVec.ofNat 32 (a.toNat / b.toNat)

/-- Signed remainder, with the dividend's sign and its two corners (R247). -/
def remSigned (a b : Word) : Word :=
  if b = 0 then a
  else if a = 0x80000000 ∧ b = 0xFFFFFFFF then 0
  else BitVec.ofInt 32 (a.toInt - a.toInt.tdiv b.toInt * b.toInt)

/-- Unsigned remainder, with its corner (R248). -/
def remUnsigned (a b : Word) : Word :=
  if b = 0 then a else BitVec.ofNat 32 (a.toNat % b.toNat)

/-- The common shape: `rd` gets a function of `rs1` and `rs2`, and the pc moves on. -/
def execMulDiv (f : Word → Word → Word) (rd rs1 rs2 : RegIdx) (s : State) : Result :=
  .next ((s.writeReg rd (f (s.readReg rs1) (s.readReg rs2))).advance)

/-- MUL (R241). -/
def execMul (rd rs1 rs2 : RegIdx) (s : State) : Result :=
  execMulDiv (fun a b => lowWord (a.toInt * b.toInt)) rd rs1 rs2 s

/-- MULH (R242). -/
def execMulh (rd rs1 rs2 : RegIdx) (s : State) : Result :=
  execMulDiv (fun a b => highWord (a.toInt * b.toInt)) rd rs1 rs2 s

/-- MULHSU (R243): `rs1` signed, `rs2` unsigned. -/
def execMulhsu (rd rs1 rs2 : RegIdx) (s : State) : Result :=
  execMulDiv (fun a b => highWord (a.toInt * b.toNat)) rd rs1 rs2 s

/-- MULHU (R244). -/
def execMulhu (rd rs1 rs2 : RegIdx) (s : State) : Result :=
  execMulDiv (fun a b => highWord (a.toNat * b.toNat)) rd rs1 rs2 s

/-- DIV (R245). -/
def execDiv (rd rs1 rs2 : RegIdx) (s : State) : Result :=
  execMulDiv divSigned rd rs1 rs2 s

/-- DIVU (R246). -/
def execDivu (rd rs1 rs2 : RegIdx) (s : State) : Result :=
  execMulDiv divUnsigned rd rs1 rs2 s

/-- REM (R247). -/
def execRem (rd rs1 rs2 : RegIdx) (s : State) : Result :=
  execMulDiv remSigned rd rs1 rs2 s

/-- REMU (R248). -/
def execRemu (rd rs1 rs2 : RegIdx) (s : State) : Result :=
  execMulDiv remUnsigned rd rs1 rs2 s

end Sys2Proof.Machine
end

