-- ==== Sys2Proof/Machine/System.lean ====
section
/-! DEFINITION. Environment call and trap return (R290 to R295). -/

namespace Sys2Proof.Machine

/-- The call is answered: `x[10] <- v`, and the pc moves on (R290). -/
def State.answerCall (s : State) (v : Word) : State := (s.writeReg a0 v).advance

/-- `Brk()` (R292): 0 queries the length; a request in `[STACK_END, 2^31)` sets it, clamped to HEAP_LIMIT; any
other request is refused (D25). -/
def execBrk (s : State) : Result :=
  let req := (s.readReg a0).toNat
  if req = 0 then .next (s.answerCall (BitVec.ofNat 32 s.mem.len))
  else if req < s.launch.stackEnd ∨ 2 ^ 31 ≤ req then .refused .brkOutsideModel
  else
    let newLen := min req s.launch.heapLimit
    .next (State.answerCall { s with mem := s.mem.resize newLen } (BitVec.ofNat 32 newLen))

/-- The built-in fallback (R290, R292, R293, R294): brk, fstat, else the exception ECALL_M. -/
def execSyscallFallback (s : State) : Result :=
  if s.readReg a7 = s.launch.sysBrk then execBrk s
  else if s.readReg a7 = s.launch.sysFstat then .next (s.answerCall (0 - s.launch.enosys))
  else .next (s.takeException .ecallM)

/-- ECALL (R290): the hook first, if one is installed; a value it returns ends the call. -/
def execEcall (s : State) : Result :=
  if s.launch.syscallHook then
    match s.callSyscallHook with
    | (some v, t) => .next (t.answerCall v)
    | (none, t) => execSyscallFallback t
  else execSyscallFallback s

/-- MRET (R295). -/
def execMret (s : State) : Result := .next s.trapReturn

end Sys2Proof.Machine
end

