-- ==== Sys2Proof/Machine/Fetch.lean ====
section
/-! DEFINITION. Instruction fetch (R141 to R143): it reads the decode table, never the buffer (R92). -/

namespace Sys2Proof.Machine

/-- What fetching at the pc gives. -/
inductive Fetched where
  /-- The step raises this exception instead of executing. -/
  | trap (c : Cause)
  /-- The slot is unsettled: the step refuses (R132). -/
  | unsettled
  /-- The slot holds a record: the step executes it. -/
  | run (i : Instr)
deriving DecidableEq, Repr

/-- `DECODED_BYTES` as the decode table has it: 4 bytes a slot (R39, R142; log 20). -/
def State.decodedBytes (s : State) : Nat := 4 * s.dt.length

/-- The slot at an index; no slot is empty. -/
def slotAt (dt : List Slot) (k : Nat) : Slot := dt.getD k Slot.empty

/-- The fetch checks in their order: alignment (R141), range (R142), lookup (R143). -/
def State.fetch (s : State) : Fetched :=
  if s.pc.toNat % 4 ≠ 0 then .trap .instMisaligned
  else if s.decodedBytes ≤ s.pc.toNat then .trap .instAccess
  else
    match slotAt s.dt (s.pc.toNat / 4) with
    | .empty => .trap .illegalInst
    | .unsettled => .unsettled
    | .record i => .run i

/-- The decode table with the slot at an index replaced, lengthened with empty slots if it is shorter. -/
def placeSlot (dt : List Slot) (k : Nat) (slot : Slot) : List Slot :=
  (dt ++ List.replicate (k + 1 - dt.length) Slot.empty).set k slot

/-- The decode table of a buffer (R140): slot `k` is the class of the little-endian word at bytes `4k..4k+3`
(R75). -/
def buildDecodeTable (m : Memory) (nbytes : Nat) : List Slot :=
  (List.range (nbytes / 4)).map (fun k => decodeWord (m.load (4 * k) .word true))

end Sys2Proof.Machine
end

