-- ==== Sys2Proof/Machine/Engine.lean ====
section
/-! DEFINITION. The parts of one step of the dispatch engine (R150). -/

namespace Sys2Proof.Machine

/-- An interrupt step (R150 step 1, C10, D16): interrupt entry, commit, count. It fetches nothing, executes
nothing and does not clear x0. -/
def interruptStep (s : State) : Result := .next s.takeInterrupt.countCycle

/-- Steps 3 to 5 (R150): the fetch checks, and the instruction. A raised exception is taken. -/
def fetchExecute (s : State) : Result :=
  match s.fetch with
  | .trap c => .next (s.takeException c)
  | .unsettled => .refused .unsettledEncoding
  | .run i => exec i s

/-- Step 6 (R150): the step is counted, if it has a successor. -/
def countStep : Result → Result
  | .next s => .next s.countCycle
  | .fault f => .fault f
  | .refused r => .refused r

/-- Steps 2 to 6 (R150): clear x0, fetch and execute, commit, count. -/
def instructionStep (s : State) : Result := countStep (fetchExecute s.clearX0)

end Sys2Proof.Machine
end

