-- ==== Sys2Proof/Machine/Step.lean ====
section
/-! DEFINITION. One step of the CORE (R150), and the machine whose next step runs a given word. -/

namespace Sys2Proof.Machine

/-- One step (R150): a run already marked refused goes no further (R10); otherwise the interrupt, if it is
ready (R315), else an instruction step. -/
def step (s : State) : Host.Outcome State Fault Refusal :=
  if s.refused then .refused .runRefused
  else if s.interruptReady then interruptStep s
  else instructionStep s

/-- The machine with the given word loaded as the instruction at the pc: its slot of the decode table, which is
what fetch reads (R143, R92), and nothing else (log 2, log 19). -/
def State.withFetchWord (s : State) (nbits w : Nat) : State :=
  { s with dt := placeSlot s.dt (s.pc.toNat / 4) (decodeWord (tableWord nbits w)) }

end Sys2Proof.Machine
end

