-- ==== Sys2Proof/Machine/Assembly.lean ====
section
/-! DEFINITION. Assembler syntax (R134) and the pseudo-instructions (R135, D34): names of registers, the text of an
instruction, and what each pseudo-instruction expands to. The machine does not use this file. -/

namespace Sys2Proof.Machine

/-! ### Names -/

/-- The ABI names of x0 to x31 (R134). -/
def abiNames : List String :=
  ["zero", "ra", "sp", "gp", "tp", "t0", "t1", "t2"] ++ ["s0", "s1", "a0", "a1", "a2", "a3", "a4", "a5"] ++
  ["a6", "a7", "s2", "s3", "s4", "s5", "s6", "s7"] ++ ["s8", "s9", "s10", "s11", "t3", "t4", "t5", "t6"]

/-- The ABI name of a register. -/
def abiName (r : RegIdx) : String := abiNames.getD r.toNat ""

/-- The register an operand names, as `x0` to `x31`, by ABI name, or as `fp` (R134). -/
def regNamed (name : String) : Option RegIdx :=
  if name = "fp" then some 8
  else ((List.range 32).find? (fun n => decide (name = "x" ++ toString n ∨ abiNames[n]? = some name))).map
    (BitVec.ofNat 5)

/-- The name of a CSR cell (R28). -/
def CsrName.text : CsrName → String
  | .mstatus => "mstatus"
  | .mie => "mie"
  | .mtvec => "mtvec"
  | .mscratch => "mscratch"
  | .mepc => "mepc"
  | .mcause => "mcause"
  | .mtval => "mtval"
  | .mip => "mip"

/-! ### The text of an instruction -/

/-- A register operand. -/
def regText (r : RegIdx) : String := "x" ++ toString r.toNat

/-- An immediate or an offset, signed. -/
def immText (imm : Word) : String := toString imm.toInt

/-- `op rd, rs1, rs2`. -/
def textR (op : String) (rd rs1 rs2 : RegIdx) : String := op ++ " " ++ regText rd ++ ", " ++ regText rs1 ++ ", " ++ regText rs2

/-- `op rd, rs1, imm`. -/
def textI (op : String) (rd rs1 : RegIdx) (imm : Word) : String :=
  op ++ " " ++ regText rd ++ ", " ++ regText rs1 ++ ", " ++ immText imm

/-- `op rd, rs1, shamt`. -/
def textShift (op : String) (rd rs1 : RegIdx) (shamt : BitVec 5) : String :=
  op ++ " " ++ regText rd ++ ", " ++ regText rs1 ++ ", " ++ toString shamt.toNat

/-- `op r, imm(rs1)`: a load, a store, JALR. -/
def textMem (op : String) (r rs1 : RegIdx) (imm : Word) : String :=
  op ++ " " ++ regText r ++ ", " ++ immText imm ++ "(" ++ regText rs1 ++ ")"

/-- `op rs1, rs2, offset`. -/
def textB (op : String) (rs1 rs2 : RegIdx) (imm : Word) : String :=
  op ++ " " ++ regText rs1 ++ ", " ++ regText rs2 ++ ", " ++ immText imm

/-- `op rd, imm20`. -/
def textU (op : String) (rd : RegIdx) (imm20 : BitVec 20) : String := op ++ " " ++ regText rd ++ ", " ++ toString imm20.toNat

/-- A CSR operand: the cell's name, or the number of an address that names none. -/
def csrText (csr : CsrAddr) : String :=
  match csrResolve csr with
  | some n => n.text
  | none => toString csr.toNat

/-- `op rd, csr, src`. -/
def textCsr (op : String) (rd : RegIdx) (csr : CsrAddr) (src : String) : String :=
  op ++ " " ++ regText rd ++ ", " ++ csrText csr ++ ", " ++ src

/-- A FENCE set: the letters i, o, r, w for bits 3 to 0; 0 for none. -/
def fenceSet (v : BitVec 4) : String :=
  if v = 0 then "0"
  else
    (if v.getLsbD 3 then "i" else "") ++ (if v.getLsbD 2 then "o" else "") ++ (if v.getLsbD 1 then "r" else "") ++
      (if v.getLsbD 0 then "w" else "")

/-- The assembly text of an instruction (R134). -/
def asmText : Instr → String
  | .lui rd imm20 => textU "lui" rd imm20
  | .auipc rd imm20 => textU "auipc" rd imm20
  | .addi rd rs1 imm => textI "addi" rd rs1 imm
  | .slti rd rs1 imm => textI "slti" rd rs1 imm
  | .sltiu rd rs1 imm => textI "sltiu" rd rs1 imm
  | .xori rd rs1 imm => textI "xori" rd rs1 imm
  | .ori rd rs1 imm => textI "ori" rd rs1 imm
  | .andi rd rs1 imm => textI "andi" rd rs1 imm
  | .slli rd rs1 shamt => textShift "slli" rd rs1 shamt
  | .srli rd rs1 shamt => textShift "srli" rd rs1 shamt
  | .srai rd rs1 shamt => textShift "srai" rd rs1 shamt
  | .add rd rs1 rs2 => textR "add" rd rs1 rs2
  | .sub rd rs1 rs2 => textR "sub" rd rs1 rs2
  | .sll rd rs1 rs2 => textR "sll" rd rs1 rs2
  | .slt rd rs1 rs2 => textR "slt" rd rs1 rs2
  | .sltu rd rs1 rs2 => textR "sltu" rd rs1 rs2
  | .xor rd rs1 rs2 => textR "xor" rd rs1 rs2
  | .srl rd rs1 rs2 => textR "srl" rd rs1 rs2
  | .sra rd rs1 rs2 => textR "sra" rd rs1 rs2
  | .or rd rs1 rs2 => textR "or" rd rs1 rs2
  | .and rd rs1 rs2 => textR "and" rd rs1 rs2
  | .jal rd imm => "jal " ++ regText rd ++ ", " ++ immText imm
  | .jalr rd rs1 imm => textMem "jalr" rd rs1 imm
  | .beq rs1 rs2 imm => textB "beq" rs1 rs2 imm
  | .bne rs1 rs2 imm => textB "bne" rs1 rs2 imm
  | .blt rs1 rs2 imm => textB "blt" rs1 rs2 imm
  | .bge rs1 rs2 imm => textB "bge" rs1 rs2 imm
  | .bltu rs1 rs2 imm => textB "bltu" rs1 rs2 imm
  | .bgeu rs1 rs2 imm => textB "bgeu" rs1 rs2 imm
  | .lb rd rs1 imm => textMem "lb" rd rs1 imm
  | .lh rd rs1 imm => textMem "lh" rd rs1 imm
  | .lw rd rs1 imm => textMem "lw" rd rs1 imm
  | .lbu rd rs1 imm => textMem "lbu" rd rs1 imm
  | .lhu rd rs1 imm => textMem "lhu" rd rs1 imm
  | .sb rs1 rs2 imm => textMem "sb" rs2 rs1 imm
  | .sh rs1 rs2 imm => textMem "sh" rs2 rs1 imm
  | .sw rs1 rs2 imm => textMem "sw" rs2 rs1 imm
  | .mul rd rs1 rs2 => textR "mul" rd rs1 rs2
  | .mulh rd rs1 rs2 => textR "mulh" rd rs1 rs2
  | .mulhsu rd rs1 rs2 => textR "mulhsu" rd rs1 rs2
  | .mulhu rd rs1 rs2 => textR "mulhu" rd rs1 rs2
  | .div rd rs1 rs2 => textR "div" rd rs1 rs2
  | .divu rd rs1 rs2 => textR "divu" rd rs1 rs2
  | .rem rd rs1 rs2 => textR "rem" rd rs1 rs2
  | .remu rd rs1 rs2 => textR "remu" rd rs1 rs2
  | .fence _ pred succ _ _ => "fence " ++ fenceSet pred ++ ", " ++ fenceSet succ
  | .fenceI _ _ _ => "fence.i"
  | .csrrw rd rs1 csr => textCsr "csrrw" rd csr (regText rs1)
  | .csrrs rd rs1 csr => textCsr "csrrs" rd csr (regText rs1)
  | .csrrc rd rs1 csr => textCsr "csrrc" rd csr (regText rs1)
  | .csrrwi rd zimm csr => textCsr "csrrwi" rd csr (toString zimm.toNat)
  | .csrrsi rd zimm csr => textCsr "csrrsi" rd csr (toString zimm.toNat)
  | .csrrci rd zimm csr => textCsr "csrrci" rd csr (toString zimm.toNat)
  | .ecall => "ecall"
  | .mret => "mret"

/-! ### Pseudo-instructions -/

/-- The pseudo-instructions of R135. `call`, `tail` and `la` take the offset from the AUIPC's own address. -/
inductive Pseudo where
  | nop
  | li (rd : RegIdx) (imm : Word)
  | mv (rd rs : RegIdx)
  | not (rd rs : RegIdx)
  | neg (rd rs : RegIdx)
  | seqz (rd rs : RegIdx)
  | snez (rd rs : RegIdx)
  | sltz (rd rs : RegIdx)
  | sgtz (rd rs : RegIdx)
  | beqz (rs : RegIdx) (off : Word)
  | bnez (rs : RegIdx) (off : Word)
  | blez (rs : RegIdx) (off : Word)
  | bgez (rs : RegIdx) (off : Word)
  | bltz (rs : RegIdx) (off : Word)
  | bgtz (rs : RegIdx) (off : Word)
  | bgt (rs rt : RegIdx) (off : Word)
  | ble (rs rt : RegIdx) (off : Word)
  | bgtu (rs rt : RegIdx) (off : Word)
  | bleu (rs rt : RegIdx) (off : Word)
  | j (off : Word)
  | jal (off : Word)
  | jr (rs : RegIdx)
  | jalr (rs : RegIdx)
  | ret
  | call (off : Word)
  | tail (off : Word)
  | la (rd : RegIdx) (off : Word)
  | csrr (rd : RegIdx) (csr : CsrAddr)
  | csrw (csr : CsrAddr) (rs : RegIdx)
  | csrs (csr : CsrAddr) (rs : RegIdx)
  | csrc (csr : CsrAddr) (rs : RegIdx)
  | csrwi (csr : CsrAddr) (zimm : BitVec 5)
  | csrsi (csr : CsrAddr) (zimm : BitVec 5)
  | csrci (csr : CsrAddr) (zimm : BitVec 5)
  | fence
  | rdcycle (rd : RegIdx)
  | rdtime (rd : RegIdx)
  | rdinstret (rd : RegIdx)
deriving DecidableEq, Repr

/-- `lo = sext_12(imm[11:0])` (R135). -/
def loPart (imm : Word) : Word := (imm.extractLsb' 0 12).signExtend 32

/-- `hi = (imm - lo) >> 12` (R135). -/
def hiPart (imm : Word) : BitVec 20 := (imm - loPart imm).extractLsb' 12 20

/-- What a pseudo-instruction expands to (R135). -/
def Pseudo.expand : Pseudo → List Instr
  | .nop => [.addi 0 0 0]
  | .li rd imm => if fitsI imm then [.addi rd 0 imm] else [.lui rd (hiPart imm), .addi rd rd (loPart imm)]
  | .mv rd rs => [.addi rd rs 0]
  | .not rd rs => [.xori rd rs 0xFFFFFFFF]
  | .neg rd rs => [.sub rd 0 rs]
  | .seqz rd rs => [.sltiu rd rs 1]
  | .snez rd rs => [.sltu rd 0 rs]
  | .sltz rd rs => [.slt rd rs 0]
  | .sgtz rd rs => [.slt rd 0 rs]
  | .beqz rs off => [.beq rs 0 off]
  | .bnez rs off => [.bne rs 0 off]
  | .blez rs off => [.bge 0 rs off]
  | .bgez rs off => [.bge rs 0 off]
  | .bltz rs off => [.blt rs 0 off]
  | .bgtz rs off => [.blt 0 rs off]
  | .bgt rs rt off => [.blt rt rs off]
  | .ble rs rt off => [.bge rt rs off]
  | .bgtu rs rt off => [.bltu rt rs off]
  | .bleu rs rt off => [.bgeu rt rs off]
  | .j off => [.jal 0 off]
  | .jal off => [.jal 1 off]
  | .jr rs => [.jalr 0 rs 0]
  | .jalr rs => [.jalr 1 rs 0]
  | .ret => [.jalr 0 1 0]
  | .call off => [.auipc 1 (hiPart off), .jalr 1 1 (loPart off)]
  | .tail off => [.auipc 6 (hiPart off), .jalr 0 6 (loPart off)]
  | .la rd off => [.auipc rd (hiPart off), .addi rd rd (loPart off)]
  | .csrr rd csr => [.csrrs rd 0 csr]
  | .csrw csr rs => [.csrrw 0 rs csr]
  | .csrs csr rs => [.csrrs 0 rs csr]
  | .csrc csr rs => [.csrrc 0 rs csr]
  | .csrwi csr zimm => [.csrrwi 0 zimm csr]
  | .csrsi csr zimm => [.csrrsi 0 zimm csr]
  | .csrci csr zimm => [.csrrci 0 zimm csr]
  | .fence => [.fence 0 0xF 0xF 0 0]
  | .rdcycle rd => [.csrrs rd 0 0xC00]
  | .rdtime rd => [.csrrs rd 0 0xC01]
  | .rdinstret rd => [.csrrs rd 0 0xC02]

end Sys2Proof.Machine
end

