-- ==== Sys2Proof/Machine/Lifecycle.lean ====
section
/-! DEFINITION. The host's calls that are not steps: Initialize (R360), Reset (R361) and ExternalInterrupt
(R314). Each is atomic and falls between steps (R374, D21). -/

namespace Sys2Proof.Machine

/-- The registers before the first Reset: draws (R360, D27; log 6). -/
def drawnRegs : Vector Word 32 := Vector.ofFn (fun i : Fin 32 => Config.drawWord i.val)

/-- The CSR cells before the first Reset: draws (R360, D27; log 6). -/
def drawnCsr : CsrFile :=
  { mstatus := Config.drawWord 33, mie := Config.drawWord 34, mtvec := Config.drawWord 35
    mscratch := Config.drawWord 36, mepc := Config.drawWord 37, mcause := Config.drawWord 38
    mtval := Config.drawWord 39, mip := Config.drawWord 40 }

/-- `Initialize` (R360): the buffer, the decode table, the latch (a draw, D27) and the refusal mark; what it
does not set is drawn. An image that is not of the declared size is refused (log 16, DESIGN
CHOICE; D32 lets a model reject a larger one). -/
def hostInitialize (p : Launch) (image : List Byte) (initFill : List Host.Cell) : Result :=
  if image.length = p.programSize then
    let m := Memory.initial initFill image p.stackEnd
    .next
      { regs := drawnRegs
        pc := Config.drawWord 32
        csr := drawnCsr
        latchedCause := Config.drawWord 41
        mem := m
        cycles := Config.drawNat 42
        refused := false
        dt := buildDecodeTable m p.decodedBytes
        launch := p
        hookLog := []
        draws := 43 }
  else .refused .imageNotOfDeclaredSize

/-- `Reset` (R361): registers, pc and CSR cells to their reset values, `cycles` a draw (D26). It leaves the
memory, the decode table, the latch and the refusal mark (D27). -/
def hostReset (s : State) : State :=
  { s with
    regs := resetRegs s.launch.stackEnd
    pc := s.launch.entry
    csr := CsrFile.zero
    cycles := Config.drawNat s.draws
    draws := s.draws + 1 }

/-- `ExternalInterrupt(cause)` (R314): latch the cause and set MEIP, together. -/
def externalInterrupt (cause : Word) (s : State) : State :=
  { s with latchedCause := cause, csr := { s.csr with mip := setMeip s.csr.mip true } }

end Sys2Proof.Machine
end

