-- ==== Sys2Proof/Machine/Cycle.lean ====
section
/-! DEFINITION. Running the machine as the host does: `Cycle(n)` (R151), and sequences of host actions (R373,
R374). -/

namespace Sys2Proof.Machine

/-- One step with its refusal recorded in the state, as R10 and R44 have it: a step that has no successor marks
the state refused and changes nothing else. -/
def stepMarking (s : State) : State :=
  match step s with
  | .next t => t
  | .fault _ => { s with refused := true }
  | .refused _ => { s with refused := true }

/-- `n` steps in sequence; a refusal stops them, since a refused state steps no further (R151). -/
def steps : Nat → State → State
  | 0, s => s
  | n + 1, s => steps n (stepMarking s)

/-- `Cycle(n)` (R151): no step for `n <= 0` (D33). -/
def cycle (n : Int) (s : State) : State := steps n.toNat s

/-- What the host may do to a launched machine (R373). -/
inductive HostAction where
  | reset
  | cycle (n : Int)
  | externalInterrupt (cause : Word)
deriving DecidableEq, Repr

/-- One host action (R373). -/
def HostAction.apply (a : HostAction) (s : State) : State :=
  match a with
  | .reset => hostReset s
  | .cycle n => Machine.cycle n s
  | .externalInterrupt c => Machine.externalInterrupt c s

/-- Host actions in sequence, each between two steps (R374). -/
def hostRun : List HostAction → State → State
  | [], s => s
  | a :: rest, s => hostRun rest (a.apply s)

/-- The step leaves the pc unchanged: pc-convergence, the host's termination test (R372, D28). -/
def converges (s : State) : Bool :=
  match step s with
  | .next t => t.pc == s.pc
  | .fault _ => false
  | .refused _ => false

/-- Run to pc-convergence (R372), at most `fuel` steps: the state after the first step that converges. -/
def runToConvergence : Nat → State → Option State
  | 0, _ => none
  | n + 1, s => if converges s then some (stepMarking s) else runToConvergence n (stepMarking s)

end Sys2Proof.Machine
end

