-- ==== Sys2Proof/Machine/Observer.lean ====
section
/-! DEFINITION. The decoded record (R40, R137) and the trace observer's reports (R334, R275). The observer never
alters the engine's state: its reports are a function of the state a step starts from, and nothing else in the
model reads them (log 18). -/

namespace Sys2Proof.Machine

/-- The format tags (R40, R137). -/
inductive Format where
  | R | I | S | B | U | J
deriving DecidableEq, Repr

/-- A decoded record (R40): operation, format tag, register indices and the immediate. What a slot holds that the
format does not use, register index or the R format's `imm`, the spec leaves open: 0 (log 25, DESIGN CHOICE). -/
structure DecodedRecord where
  op     : String
  format : Format
  rd     : RegIdx
  rs1    : RegIdx
  rs2    : RegIdx
  imm    : Word
deriving DecidableEq, Repr

/-- The record of an instruction (R40, R116, R118, R137; R182 for SRAI's immediate). The 0 in unused slots, the `imm` of
the R format among them, is the model's choice (log 25). -/
def instrRecord : Instr → DecodedRecord
  | .lui rd imm20 => ⟨"LUI", .U, rd, 0, 0, (imm20.setWidth 32)⟩
  | .auipc rd imm20 => ⟨"AUIPC", .U, rd, 0, 0, (imm20.setWidth 32)⟩
  | .addi rd rs1 imm => ⟨"ADDI", .I, rd, rs1, 0, imm⟩
  | .slti rd rs1 imm => ⟨"SLTI", .I, rd, rs1, 0, imm⟩
  | .sltiu rd rs1 imm => ⟨"SLTIU", .I, rd, rs1, 0, imm⟩
  | .xori rd rs1 imm => ⟨"XORI", .I, rd, rs1, 0, imm⟩
  | .ori rd rs1 imm => ⟨"ORI", .I, rd, rs1, 0, imm⟩
  | .andi rd rs1 imm => ⟨"ANDI", .I, rd, rs1, 0, imm⟩
  | .slli rd rs1 shamt => ⟨"SLLI", .I, rd, rs1, 0, (shamt.setWidth 32)⟩
  | .srli rd rs1 shamt => ⟨"SRLI", .I, rd, rs1, 0, (shamt.setWidth 32)⟩
  | .srai rd rs1 shamt => ⟨"SRAI", .I, rd, rs1, 0, (0x400 ||| shamt.setWidth 32)⟩
  | .add rd rs1 rs2 => ⟨"ADD", .R, rd, rs1, rs2, 0⟩
  | .sub rd rs1 rs2 => ⟨"SUB", .R, rd, rs1, rs2, 0⟩
  | .sll rd rs1 rs2 => ⟨"SLL", .R, rd, rs1, rs2, 0⟩
  | .slt rd rs1 rs2 => ⟨"SLT", .R, rd, rs1, rs2, 0⟩
  | .sltu rd rs1 rs2 => ⟨"SLTU", .R, rd, rs1, rs2, 0⟩
  | .xor rd rs1 rs2 => ⟨"XOR", .R, rd, rs1, rs2, 0⟩
  | .srl rd rs1 rs2 => ⟨"SRL", .R, rd, rs1, rs2, 0⟩
  | .sra rd rs1 rs2 => ⟨"SRA", .R, rd, rs1, rs2, 0⟩
  | .or rd rs1 rs2 => ⟨"OR", .R, rd, rs1, rs2, 0⟩
  | .and rd rs1 rs2 => ⟨"AND", .R, rd, rs1, rs2, 0⟩
  | .jal rd imm => ⟨"JAL", .J, rd, 0, 0, imm⟩
  | .jalr rd rs1 imm => ⟨"JALR", .I, rd, rs1, 0, imm⟩
  | .beq rs1 rs2 imm => ⟨"BEQ", .B, 0, rs1, rs2, imm⟩
  | .bne rs1 rs2 imm => ⟨"BNE", .B, 0, rs1, rs2, imm⟩
  | .blt rs1 rs2 imm => ⟨"BLT", .B, 0, rs1, rs2, imm⟩
  | .bge rs1 rs2 imm => ⟨"BGE", .B, 0, rs1, rs2, imm⟩
  | .bltu rs1 rs2 imm => ⟨"BLTU", .B, 0, rs1, rs2, imm⟩
  | .bgeu rs1 rs2 imm => ⟨"BGEU", .B, 0, rs1, rs2, imm⟩
  | .lb rd rs1 imm => ⟨"LB", .I, rd, rs1, 0, imm⟩
  | .lh rd rs1 imm => ⟨"LH", .I, rd, rs1, 0, imm⟩
  | .lw rd rs1 imm => ⟨"LW", .I, rd, rs1, 0, imm⟩
  | .lbu rd rs1 imm => ⟨"LBU", .I, rd, rs1, 0, imm⟩
  | .lhu rd rs1 imm => ⟨"LHU", .I, rd, rs1, 0, imm⟩
  | .sb rs1 rs2 imm => ⟨"SB", .S, 0, rs1, rs2, imm⟩
  | .sh rs1 rs2 imm => ⟨"SH", .S, 0, rs1, rs2, imm⟩
  | .sw rs1 rs2 imm => ⟨"SW", .S, 0, rs1, rs2, imm⟩
  | .mul rd rs1 rs2 => ⟨"MUL", .R, rd, rs1, rs2, 0⟩
  | .mulh rd rs1 rs2 => ⟨"MULH", .R, rd, rs1, rs2, 0⟩
  | .mulhsu rd rs1 rs2 => ⟨"MULHSU", .R, rd, rs1, rs2, 0⟩
  | .mulhu rd rs1 rs2 => ⟨"MULHU", .R, rd, rs1, rs2, 0⟩
  | .div rd rs1 rs2 => ⟨"DIV", .R, rd, rs1, rs2, 0⟩
  | .divu rd rs1 rs2 => ⟨"DIVU", .R, rd, rs1, rs2, 0⟩
  | .rem rd rs1 rs2 => ⟨"REM", .R, rd, rs1, rs2, 0⟩
  | .remu rd rs1 rs2 => ⟨"REMU", .R, rd, rs1, rs2, 0⟩
  | .fence fm pred succ rs1 rd => ⟨"FENCE", .I, rd, rs1, 0, ((fm ++ pred ++ succ : BitVec 12).signExtend 32)⟩
  | .fenceI imm rs1 rd => ⟨"FENCE.I", .I, rd, rs1, 0, imm⟩
  | .csrrw rd rs1 csr => ⟨"CSRRW", .I, rd, rs1, 0, (csr.signExtend 32)⟩
  | .csrrs rd rs1 csr => ⟨"CSRRS", .I, rd, rs1, 0, (csr.signExtend 32)⟩
  | .csrrc rd rs1 csr => ⟨"CSRRC", .I, rd, rs1, 0, (csr.signExtend 32)⟩
  | .csrrwi rd zimm csr => ⟨"CSRRWI", .I, rd, zimm, 0, (csr.signExtend 32)⟩
  | .csrrsi rd zimm csr => ⟨"CSRRSI", .I, rd, zimm, 0, (csr.signExtend 32)⟩
  | .csrrci rd zimm csr => ⟨"CSRRCI", .I, rd, zimm, 0, (csr.signExtend 32)⟩
  | .ecall => ⟨"ECALL", .I, 0, 0, 0, 0⟩
  | .mret => ⟨"MRET", .I, 0, 0, 0, 0x302⟩

/-- The kinds of CSR access the observer is told of (R275). -/
inductive CsrAccess where
  | read
  | update (op : CsrOp)
deriving DecidableEq, Repr

/-- What the observer receives (R334): the instruction about to execute, load details before and after, store
details, raised exceptions, raised and serviced interrupts, and CSR accesses with their input (none for a read, which
has no input: log 18, DESIGN CHOICE) and the resulting cell value (R275). What the reports of R334 hold is open in the
spec and the model's choice (log 18, DESIGN CHOICE): address, size and extension before a load, address and value after
it; a store's address, size and value; an exception's cause alone; an interrupt's cause as delivered or latched. -/
inductive Report where
  | instruction (r : DecodedRecord)
  | loadBefore (addr : Word) (size : Width) (signExtend : Bool)
  | loadAfter (addr : Word) (value : Word)
  | store (addr : Word) (size : Width) (value : Word)
  | exception (c : Cause)
  | interruptRaised (cause : Word)
  | interruptServiced (cause : Word)
  | csr (kind : CsrAccess) (addr : CsrAddr) (input : Option Word) (result : Word)
deriving DecidableEq, Repr

/-- The reports of a load: its details before the access, whatever the checks then say, and then its address with the
value `rd` gets, or the exception (log 18, DESIGN CHOICE). -/
def observeLoad (addr : Word) (w : Width) (signed : Bool) (s : State) : List Report :=
  match s.memRead addr w signed with
  | .done v _ => [.loadBefore addr w signed, .loadAfter addr v]
  | .trap c _ => [.loadBefore addr w signed, .exception c]

/-- The reports of a store: its details, the value cut to its low `8n` bits as the hook is given it, also of a store that
a check or its hook rejects (log 18, DESIGN CHOICE), and the exception if it raises one. -/
def observeStore (addr : Word) (w : Width) (v : Word) (s : State) : List Report :=
  match s.memWrite addr w v with
  | .done _ _ => [.store addr w (hookValue w v)]
  | .trap c _ => [.store addr w (hookValue w v), .exception c]

/-- The cell's value after an update, as the observer is told (R275): the cell's, or a free value for the sink, of
whose content the spec says nothing (R45, D7). -/
def updateResult (op : CsrOp) (csr : CsrAddr) (v : Word) (s : State) : Word :=
  match csrResolve csr with
  | some n => (s.csrUpdate op csr v).csr.get n
  | none => Config.sinkReported s.draws

/-- The reports of a CSR instruction: its read, with the value `CsrRead` gives (for the sink the draw that `rd` gets,
R270), and its update unless the `src` field is 0 (R276). -/
def observeCsr (op : CsrOp) (src : BitVec 5) (v : Word) (csr : CsrAddr) (s : State) : List Report :=
  if s.csrIllegal csr then [.exception .illegalInst]
  else
    .csr .read csr none (s.csrRead csr).1 ::
      (if src ≠ 0 then [.csr (.update op) csr (some v) (updateResult op csr v s)] else [])

/-- ECALL raises ECALL_M: neither the hook nor the fallback claims the number (R294). -/
def ecallUnclaimed (s : State) : Bool :=
  !(s.launch.syscallHook && s.callSyscallHook.1.isSome) &&
  !(s.readReg a7 == s.launch.sysBrk) && !(s.readReg a7 == s.launch.sysFstat)

/-- The reports of an instruction's own accesses; the instructions that access nothing have none. "Every CSR access"
(R275, R334) is read as every access by address, that is by the six CSR instructions: what MRET and trap entry do to the
cells is not reported (log 18, DESIGN CHOICE). -/
def observeInstr (i : Instr) (s : State) : List Report :=
  match i with
  | .lb _ rs1 imm => observeLoad (s.effAddr rs1 imm) .byte true s
  | .lh _ rs1 imm => observeLoad (s.effAddr rs1 imm) .half true s
  | .lw _ rs1 imm => observeLoad (s.effAddr rs1 imm) .word true s
  | .lbu _ rs1 imm => observeLoad (s.effAddr rs1 imm) .byte false s
  | .lhu _ rs1 imm => observeLoad (s.effAddr rs1 imm) .half false s
  | .sb rs1 rs2 imm => observeStore (s.effAddr rs1 imm) .byte (s.readReg rs2) s
  | .sh rs1 rs2 imm => observeStore (s.effAddr rs1 imm) .half (s.readReg rs2) s
  | .sw rs1 rs2 imm => observeStore (s.effAddr rs1 imm) .word (s.readReg rs2) s
  | .csrrw _ rs1 csr => observeCsr .write rs1 (s.readReg rs1) csr s
  | .csrrs _ rs1 csr => observeCsr .set rs1 (s.readReg rs1) csr s
  | .csrrc _ rs1 csr => observeCsr .clear rs1 (s.readReg rs1) csr s
  | .csrrwi _ zimm csr => observeCsr .write zimm (zimmWord zimm) csr s
  | .csrrsi _ zimm csr => observeCsr .set zimm (zimmWord zimm) csr s
  | .csrrci _ zimm csr => observeCsr .clear zimm (zimmWord zimm) csr s
  | .ecall => if ecallUnclaimed s then [.exception .ecallM] else []
  | .lui _ _ | .auipc _ _ | .addi _ _ _ | .slti _ _ _ | .sltiu _ _ _ | .xori _ _ _ | .ori _ _ _ => []
  | .andi _ _ _ | .slli _ _ _ | .srli _ _ _ | .srai _ _ _ | .add _ _ _ | .sub _ _ _ | .sll _ _ _ => []
  | .slt _ _ _ | .sltu _ _ _ | .xor _ _ _ | .srl _ _ _ | .sra _ _ _ | .or _ _ _ | .and _ _ _ => []
  | .jal _ _ | .jalr _ _ _ | .beq _ _ _ | .bne _ _ _ | .blt _ _ _ | .bge _ _ _ => []
  | .bltu _ _ _ | .bgeu _ _ _ | .mul _ _ _ | .mulh _ _ _ | .mulhsu _ _ _ | .mulhu _ _ _ => []
  | .div _ _ _ | .divu _ _ _ | .rem _ _ _ | .remu _ _ _ | .fence _ _ _ _ _ | .fenceI _ _ _ | .mret => []

/-- The reports of one step (R334), from the state it starts from. Exception entry and interrupt entry are reported as
such, not as accesses of the CSR cells they write, and an interrupt with the raw latched cause; an interrupt step and a
step whose fetch traps report no instruction. A step that refuses has no meaning in the spec (R10, R132, R292), so what it
reports is the model's choice too: nothing in a run already refused or at an unsettled slot, and for an ECALL whose `brk`
request is outside the model the instruction alone (log 18, DESIGN CHOICE). -/
def observe (s : State) : List Report :=
  if s.refused then []
  else if s.interruptReady then [.interruptServiced s.latchedCause]
  else
    match s.clearX0.fetch with
    | .trap c => [.exception c]
    | .unsettled => []
    | .run i => .instruction (instrRecord i) :: observeInstr i s.clearX0

/-- The report of an ExternalInterrupt (R334); that it sets mip is not reported as a CSR access (log 18, DESIGN
CHOICE). -/
def observeExternalInterrupt (cause : Word) : Report := .interruptRaised cause

end Sys2Proof.Machine
end

