-- ==== Sys2Proof/Safety.lean ====
section
/-! DEFINITION. The terms claims are stated in: the invariant, frames (what an instruction leaves unchanged), the
opcode table's rows, and the classes of words. -/

namespace Sys2Proof.Machine

/-! ### The invariant -/

/-- `STACK_END <= memLen <= HEAP_LIMIT` (R41). -/
abbrev memLenInRange (s : State) : Prop := s.launch.stackEnd ≤ s.mem.len ∧ s.mem.len ≤ s.launch.heapLimit

/-- What every step keeps: the buffer is in its canonical form and its length in its range. -/
abbrev BufferInv (s : State) : Prop := s.mem.wf = true ∧ memLenInRange s

/-! ### Frames -/

/-- Memory as its bytes read, its length and INIT_FILL are unchanged. -/
structure SameMemory (s t : State) : Prop where
  byte : ∀ a, t.mem.read a = s.mem.read a
  len  : t.mem.len = s.mem.len
  fill : t.mem.fill = s.mem.fill

/-- What no instruction writes is unchanged: the latch, the counter, the refusal mark, the decode table and the
launch parameters. -/
structure SameFixed (s t : State) : Prop where
  latch   : t.latchedCause = s.latchedCause
  cycles  : t.cycles = s.cycles
  refused : t.refused = s.refused
  dt      : t.dt = s.dt
  launch  : t.launch = s.launch

/-- Register `rd` holds `v`; every other register, every CSR cell, every byte of memory and everything else but
the pc and the history of hook calls is unchanged; `calls` are the hook calls made, newest first. -/
structure RegWritten (rd : RegIdx) (v : Word) (calls : List HookCall) (s t : State) : Prop where
  result  : t.cell rd = v
  others  : ∀ r, r ≠ rd → t.cell r = s.cell r
  csr     : t.csr = s.csr
  memory  : SameMemory s t
  fixed   : SameFixed s t
  hookLog : t.hookLog = calls ++ s.hookLog
  draws   : t.draws = s.draws

/-- No register, CSR cell or byte of memory is changed, nor anything else but the pc and the history of hook
calls; `calls` are the hook calls made. -/
structure NothingWritten (calls : List HookCall) (s t : State) : Prop where
  regs    : ∀ r, t.cell r = s.cell r
  csr     : t.csr = s.csr
  memory  : SameMemory s t
  fixed   : SameFixed s t
  hookLog : t.hookLog = calls ++ s.hookLog
  draws   : t.draws = s.draws

/-- Exception `c` is taken (R320): mcause its code, mepc the pc, MPIE the old MIE, MIE 0, mtval 0, the pc the base
field of mtvec; everything else is unchanged but the history of hook calls; `calls` are the hook calls made. -/
structure ExceptionEntered (c : Cause) (calls : List HookCall) (s t : State) : Prop where
  mcause   : t.csr.mcause = c.code
  mepc     : t.csr.mepc = s.pc
  mtval    : t.csr.mtval = 0
  mstatus  : ∀ j, t.csr.mstatus.getLsbD j =
    if j = 3 then false else if j = 7 then s.csr.mstatus.getLsbD 3 else s.csr.mstatus.getLsbD j
  mie      : t.csr.mie = s.csr.mie
  mtvec    : t.csr.mtvec = s.csr.mtvec
  mscratch : t.csr.mscratch = s.csr.mscratch
  mip      : t.csr.mip = s.csr.mip
  pc       : ∀ j, t.pc.getLsbD j = (decide (2 ≤ j) && s.csr.mtvec.getLsbD j)
  regs     : ∀ r, t.cell r = s.cell r
  memory   : SameMemory s t
  fixed    : SameFixed s t
  hookLog  : t.hookLog = calls ++ s.hookLog
  draws    : t.draws = s.draws

/-- A CSR instruction has accessed cell `n` (R276): the old value is in `rd` unless `rd` is 0, the cell holds `new`,
the pc has moved on by 4, and everything else is unchanged. -/
structure CsrAccessed (rd : RegIdx) (n : CsrName) (new : Word) (s t : State) : Prop where
  result  : rd ≠ 0 → t.cell rd = s.csr.get n
  others  : ∀ r, r ≠ rd ∨ rd = 0 → t.cell r = s.cell r
  cell    : t.csr.get n = new
  cells   : ∀ m, m ≠ n → t.csr.get m = s.csr.get m
  pc      : t.pc = s.pc + 4
  memory  : SameMemory s t
  fixed   : SameFixed s t
  hookLog : t.hookLog = s.hookLog
  draws   : t.draws = s.draws

/-- A CSR instruction has accessed the sink (R270, D7): a draw is in `rd` unless `rd` is 0, no cell has changed, the
pc has moved on by 4, and everything else is unchanged. -/
structure SinkAccessed (rd : RegIdx) (s t : State) : Prop where
  result  : rd ≠ 0 → t.cell rd = Config.drawWord s.draws
  others  : ∀ r, r ≠ rd ∨ rd = 0 → t.cell r = s.cell r
  csr     : t.csr = s.csr
  pc      : t.pc = s.pc + 4
  memory  : SameMemory s t
  fixed   : SameFixed s t
  hookLog : t.hookLog = s.hookLog
  draws   : t.draws = s.draws + 1

/-- brk has set the length (R86, R292): a0 holds it, the bytes below both lengths are kept, the new ones are
INIT_FILL, the pc has moved on by 4, and everything else is unchanged; `calls` are the hook calls made. -/
structure LengthSet (newLen : Nat) (calls : List HookCall) (s t : State) : Prop where
  result  : (t.cell a0).toNat = newLen
  others  : ∀ r, r ≠ a0 → t.cell r = s.cell r
  csr     : t.csr = s.csr
  pc      : t.pc = s.pc + 4
  len     : t.mem.len = newLen
  kept    : ∀ a, a < min s.mem.len newLen → t.mem.read a = s.mem.read a
  fresh   : ∀ a, s.mem.len ≤ a → a < newLen → t.mem.read a = s.mem.background a
  fill    : t.mem.fill = s.mem.fill
  fixed   : SameFixed s t
  hookLog : t.hookLog = calls ++ s.hookLog
  draws   : t.draws = s.draws

/-- The bytes at `a .. a+n-1` hold the low bytes of `x`, the least significant first; every other byte, every
register, every CSR cell and everything else but the pc is unchanged. -/
structure BytesStored (a n : Nat) (x : Word) (s t : State) : Prop where
  stored  : ∀ k, k < n → t.mem.read (a + k) = x.extractLsb' (8 * k) 8
  outside : ∀ b, b < a ∨ a + n ≤ b → t.mem.read b = s.mem.read b
  len     : t.mem.len = s.mem.len
  fill    : t.mem.fill = s.mem.fill
  regs    : ∀ r, t.cell r = s.cell r
  csr     : t.csr = s.csr
  fixed   : SameFixed s t
  hookLog : t.hookLog = s.hookLog
  draws   : t.draws = s.draws

/-- The instruction completes: it writes `v` to `rd`, moves the pc on by 4, and changes nothing else; `x[0]` reads
0 to the instructions after it. -/
def Computes (i : Instr) (rd : RegIdx) (v : Word) (s : State) : Prop :=
  ∃ t, exec i s = .next t ∧ RegWritten rd v [] s t ∧ t.pc = s.pc + 4 ∧ t.clearX0.cell 0 = 0

/-- The instruction takes exception `c`, having made the hook calls `calls`, and does nothing else. -/
def Raises (i : Instr) (c : Cause) (calls : List HookCall) (s : State) : Prop :=
  ∃ t, exec i s = .next t ∧ ExceptionEntered c calls s t

/-- The branch completes: it writes nothing, and the pc is `pc + imm` if the condition holds, else `pc + 4`. -/
def Branches (i : Instr) (cond : Prop) (imm : Word) (s : State) : Prop :=
  ∃ t, exec i s = .next t ∧ NothingWritten [] s t ∧ (cond → t.pc = s.pc + imm) ∧ (¬cond → t.pc = s.pc + 4)

/-- ECALL as a syscall hook decides it (R290, R291): with no hook, the fallback; with one, its answer is written to
a0, and the fallback runs only if it has none. `fallback` is told the hook calls made. -/
def AfterHook (s : State) (fallback : List HookCall → Prop) : Prop :=
  if s.launch.syscallHook then
    match Config.syscallAnswer s.hookLog (s.readReg 17) (s.readReg 10) (s.readReg 11) (s.readReg 12) (s.readReg 13)
      (s.readReg 14) (s.readReg 15) (s.readReg 16) with
    | some v =>
      ∃ t, exec .ecall s = .next t ∧ t.pc = s.pc + 4 ∧
        RegWritten a0 v
          [.syscall (s.readReg 17) (s.readReg 10) (s.readReg 11) (s.readReg 12) (s.readReg 13) (s.readReg 14)
            (s.readReg 15) (s.readReg 16) (some v)] s t
    | none =>
      fallback
        [.syscall (s.readReg 17) (s.readReg 10) (s.readReg 11) (s.readReg 12) (s.readReg 13) (s.readReg 14)
          (s.readReg 15) (s.readReg 16) none]
  else fallback []

/-- Every word that has these bits under the mask decodes to this instruction. -/
def DecodesAs (bits mask : Word) (f : Word → Instr) : Prop := ∀ w : Word, w &&& mask = bits → decodeWord w = .record (f w)

/-- The instructions one after another, each from the state the one before it left. -/
def execAll : List Instr → State → Result
  | [], s => .next s
  | i :: rest, s =>
    match exec i s with
    | .next t => execAll rest t
    | .fault f => .fault f
    | .refused r => .refused r

/-- The little-endian value of `n` bytes of memory (R80 step (d)). -/
def leValue (m : Memory) (a : Nat) : Nat → Nat
  | 0 => 0
  | n + 1 => (m.read a).toNat + 256 * leValue m (a + 1) n

/-- An installed hook serves the address: it is at or above its base (R82, R83). -/
def HookServes (base : Option Word) (addr : Word) : Prop := ∃ b, base = some b ∧ b.toNat ≤ addr.toNat

/-- The register an instruction may write, if any (R23): its `rd`, or a0 for ECALL and MRET. -/
def destination : Instr → Option RegIdx
  | .lui rd _ | .auipc rd _ => some rd
  | .addi rd _ _ | .slti rd _ _ | .sltiu rd _ _ | .xori rd _ _ | .ori rd _ _ | .andi rd _ _ => some rd
  | .slli rd _ _ | .srli rd _ _ | .srai rd _ _ => some rd
  | .add rd _ _ | .sub rd _ _ | .sll rd _ _ | .slt rd _ _ | .sltu rd _ _ => some rd
  | .xor rd _ _ | .srl rd _ _ | .sra rd _ _ | .or rd _ _ | .and rd _ _ => some rd
  | .jal rd _ | .jalr rd _ _ => some rd
  | .beq _ _ _ | .bne _ _ _ | .blt _ _ _ | .bge _ _ _ | .bltu _ _ _ | .bgeu _ _ _ => none
  | .lb rd _ _ | .lh rd _ _ | .lw rd _ _ | .lbu rd _ _ | .lhu rd _ _ => some rd
  | .sb _ _ _ | .sh _ _ _ | .sw _ _ _ => none
  | .mul rd _ _ | .mulh rd _ _ | .mulhsu rd _ _ | .mulhu rd _ _ => some rd
  | .div rd _ _ | .divu rd _ _ | .rem rd _ _ | .remu rd _ _ => some rd
  | .fence _ _ _ _ _ | .fenceI _ _ _ => none
  | .csrrw rd _ _ | .csrrs rd _ _ | .csrrc rd _ _ => some rd
  | .csrrwi rd _ _ | .csrrsi rd _ _ | .csrrci rd _ _ => some rd
  | .ecall | .mret => some a0

/-- The instructions that store to memory (R77). -/
def isStore : Instr → Bool
  | .sb _ _ _ | .sh _ _ _ | .sw _ _ _ => true
  | _ => false

/-- The instructions that access a CSR or return from a trap: those that change a CSR cell by their own effect. -/
def writesCsr : Instr → Bool
  | .csrrw _ _ _ | .csrrs _ _ _ | .csrrc _ _ _ | .csrrwi _ _ _ | .csrrsi _ _ _ | .csrrci _ _ _ | .mret => true
  | _ => false

/-- The instructions that may call a hook: the loads, the stores and ECALL (R90, R291). -/
def mayCallHook : Instr → Bool
  | .lb _ _ _ | .lh _ _ _ | .lw _ _ _ | .lbu _ _ _ | .lhu _ _ _ => true
  | .sb _ _ _ | .sh _ _ _ | .sw _ _ _ | .ecall => true
  | _ => false

/-! ### The opcode table and the classes of words -/

/-- A row of spec/opcode_table.json: the fixed bits and their mask. -/
structure OpcodeRow where
  bits : Word
  mask : Word
deriving DecidableEq, Repr

/-- The row of each instruction, as spec/opcode_table.json has it. -/
def opcodeRow : Instr → OpcodeRow
  | .lui _ _ => ⟨0x00000037, 0x0000007F⟩
  | .auipc _ _ => ⟨0x00000017, 0x0000007F⟩
  | .addi _ _ _ => ⟨0x00000013, 0x0000707F⟩
  | .slti _ _ _ => ⟨0x00002013, 0x0000707F⟩
  | .sltiu _ _ _ => ⟨0x00003013, 0x0000707F⟩
  | .xori _ _ _ => ⟨0x00004013, 0x0000707F⟩
  | .ori _ _ _ => ⟨0x00006013, 0x0000707F⟩
  | .andi _ _ _ => ⟨0x00007013, 0x0000707F⟩
  | .slli _ _ _ => ⟨0x00001013, 0xFE00707F⟩
  | .srli _ _ _ => ⟨0x00005013, 0xFE00707F⟩
  | .srai _ _ _ => ⟨0x40005013, 0xFE00707F⟩
  | .add _ _ _ => ⟨0x00000033, 0xFE00707F⟩
  | .sub _ _ _ => ⟨0x40000033, 0xFE00707F⟩
  | .sll _ _ _ => ⟨0x00001033, 0xFE00707F⟩
  | .slt _ _ _ => ⟨0x00002033, 0xFE00707F⟩
  | .sltu _ _ _ => ⟨0x00003033, 0xFE00707F⟩
  | .xor _ _ _ => ⟨0x00004033, 0xFE00707F⟩
  | .srl _ _ _ => ⟨0x00005033, 0xFE00707F⟩
  | .sra _ _ _ => ⟨0x40005033, 0xFE00707F⟩
  | .or _ _ _ => ⟨0x00006033, 0xFE00707F⟩
  | .and _ _ _ => ⟨0x00007033, 0xFE00707F⟩
  | .jal _ _ => ⟨0x0000006F, 0x0000007F⟩
  | .jalr _ _ _ => ⟨0x00000067, 0x0000707F⟩
  | .beq _ _ _ => ⟨0x00000063, 0x0000707F⟩
  | .bne _ _ _ => ⟨0x00001063, 0x0000707F⟩
  | .blt _ _ _ => ⟨0x00004063, 0x0000707F⟩
  | .bge _ _ _ => ⟨0x00005063, 0x0000707F⟩
  | .bltu _ _ _ => ⟨0x00006063, 0x0000707F⟩
  | .bgeu _ _ _ => ⟨0x00007063, 0x0000707F⟩
  | .lb _ _ _ => ⟨0x00000003, 0x0000707F⟩
  | .lh _ _ _ => ⟨0x00001003, 0x0000707F⟩
  | .lw _ _ _ => ⟨0x00002003, 0x0000707F⟩
  | .lbu _ _ _ => ⟨0x00004003, 0x0000707F⟩
  | .lhu _ _ _ => ⟨0x00005003, 0x0000707F⟩
  | .sb _ _ _ => ⟨0x00000023, 0x0000707F⟩
  | .sh _ _ _ => ⟨0x00001023, 0x0000707F⟩
  | .sw _ _ _ => ⟨0x00002023, 0x0000707F⟩
  | .mul _ _ _ => ⟨0x02000033, 0xFE00707F⟩
  | .mulh _ _ _ => ⟨0x02001033, 0xFE00707F⟩
  | .mulhsu _ _ _ => ⟨0x02002033, 0xFE00707F⟩
  | .mulhu _ _ _ => ⟨0x02003033, 0xFE00707F⟩
  | .div _ _ _ => ⟨0x02004033, 0xFE00707F⟩
  | .divu _ _ _ => ⟨0x02005033, 0xFE00707F⟩
  | .rem _ _ _ => ⟨0x02006033, 0xFE00707F⟩
  | .remu _ _ _ => ⟨0x02007033, 0xFE00707F⟩
  | .fence _ _ _ _ _ => ⟨0x0000000F, 0x0000707F⟩
  | .fenceI _ _ _ => ⟨0x0000100F, 0x0000707F⟩
  | .csrrw _ _ _ => ⟨0x00001073, 0x0000707F⟩
  | .csrrs _ _ _ => ⟨0x00002073, 0x0000707F⟩
  | .csrrc _ _ _ => ⟨0x00003073, 0x0000707F⟩
  | .csrrwi _ _ _ => ⟨0x00005073, 0x0000707F⟩
  | .csrrsi _ _ _ => ⟨0x00006073, 0x0000707F⟩
  | .csrrci _ _ _ => ⟨0x00007073, 0x0000707F⟩
  | .ecall => ⟨0x00000073, 0xFFFFFFFF⟩
  | .mret => ⟨0x30200073, 0xFFFFFFFF⟩

/-- The eleven major opcodes of R120. -/
def majorOpcodes : List (BitVec 7) := [0x37, 0x17, 0x6F, 0x67, 0x63, 0x03, 0x23, 0x13, 0x33, 0x0F, 0x73]

/-- An illegal word: conditions I1 to I6 of R131. -/
def IllegalWord (w : Word) : Prop :=
  let op := w.extractLsb' 0 7
  let f3 := w.extractLsb' 12 3
  op ∉ majorOpcodes ∨
  (op = 0x63 ∧ (f3 = 0b010 ∨ f3 = 0b011)) ∨
  (op = 0x03 ∧ (f3 = 0b011 ∨ f3 = 0b110 ∨ f3 = 0b111)) ∨
  (op = 0x23 ∧ (f3 = 0b011 ∨ f3 = 0b100 ∨ f3 = 0b101 ∨ f3 = 0b110 ∨ f3 = 0b111)) ∨
  (op = 0x0F ∧ (f3 = 0b010 ∨ f3 = 0b011 ∨ f3 = 0b100 ∨ f3 = 0b101 ∨ f3 = 0b110 ∨ f3 = 0b111)) ∨
  (op = 0x73 ∧ f3 = 0b100)

/-- An unsettled word: conditions U1 to U5 of R132. -/
def UnsettledWord (w : Word) : Prop :=
  let op := w.extractLsb' 0 7
  let f3 := w.extractLsb' 12 3
  let f7 := w.extractLsb' 25 7
  (op = 0x67 ∧ f3 ≠ 0b000) ∨
  (op = 0x13 ∧ f3 = 0b001 ∧ f7 ≠ 0b0000000) ∨
  (op = 0x13 ∧ f3 = 0b101 ∧ f7 ≠ 0b0000000 ∧ f7 ≠ 0b0100000) ∨
  (op = 0x33 ∧ ((f7 ≠ 0b0000000 ∧ f7 ≠ 0b0100000 ∧ f7 ≠ 0b0000001) ∨ (f7 = 0b0100000 ∧ f3 ≠ 0b000 ∧ f3 ≠ 0b101))) ∨
  (op = 0x73 ∧ f3 = 0b000 ∧ w ≠ 0x00000073 ∧ w ≠ 0x30200073)

end Sys2Proof.Machine
end

