-- ==== Sys2Proof/Certificates/Slice0/Obligations.lean ====
section
/-! DEFINITION. The statements for the provers. Encodings are spelled out as bits of the word, results as arithmetic on
registers, and each statement about an instruction says what it leaves unchanged (RegWritten, NothingWritten,
BytesStored, ExceptionEntered and their like, of Sys2Proof/Safety.lean). -/

section
open Sys2Proof Sys2Proof.Machine

/-! ### Encoding -/

/-- Words written out from the spec's encodings decode to the instructions the spec names (examples of
spec/40_integer.md to spec/46_system.md). -/
def Obligations.ExampleWordsDecode : Prop :=
  decodeWord 0x123452B7 = .record (.lui 5 0x12345) ∧
  decodeWord 0xFFF00093 = .record (.addi 1 0 0xFFFFFFFF) ∧
  decodeWord 0x402081B3 = .record (.sub 3 1 2) ∧
  decodeWord 0x41F0D213 = .record (.srai 4 1 31) ∧
  decodeWord 0x008000EF = .record (.jal 1 8) ∧
  decodeWord 0xFE209CE3 = .record (.bne 1 2 0xFFFFFFF8) ∧
  decodeWord 0xFFC12283 = .record (.lw 5 2 0xFFFFFFFC) ∧
  decodeWord 0x00508023 = .record (.sb 1 5 0) ∧
  decodeWord 0x0220C1B3 = .record (.div 3 1 2) ∧
  decodeWord 0x0FF0000F = .record (.fence 0 0xF 0xF 0 0) ∧
  decodeWord 0x0000100F = .record (.fenceI 0 0 0) ∧
  decodeWord 0x340312F3 = .record (.csrrw 5 6 0x340) ∧
  decodeWord 0x00000073 = .record .ecall ∧
  decodeWord 0x30200073 = .record .mret

/-- Decoding an encoded well-formed instruction gives it back, with every operand at every value its encoding admits,
as a word and as bytes whatever follows them. -/
def Obligations.DecodeOfEncode : Prop :=
  ∀ i : Instr, i.wellFormed = true →
    decodeWord (encode i) = .record i ∧ ∀ rest : List Byte, decode (encodeBytes i ++ rest) = .ok (i, rest)

/-- Encoding a decoded word gives the word back, so decoding drops no bit; and what it gives is well-formed. -/
def Obligations.EncodeOfDecode : Prop :=
  ∀ (w : Word) (i : Instr), decodeWord w = .record i → i.wellFormed = true ∧ encode i = w

/-- A word with the fixed bits of an instruction's row of the opcode table decodes to an instruction of that row, so
no two rows overlap; and every decoded word has the fixed bits of its instruction's row. -/
def Obligations.OpcodeTableDecides : Prop :=
  (∀ (w : Word) (i : Instr), w &&& (opcodeRow i).mask = (opcodeRow i).bits →
    ∃ j, decodeWord w = .record j ∧ opcodeRow j = opcodeRow i) ∧
  (∀ (w : Word) (i : Instr), decodeWord w = .record i → w &&& (opcodeRow i).mask = (opcodeRow i).bits)

/-- The slots of illegal words are empty and those of unsettled words are marked, and of no other words (R131, R132;
that a word is unsettled is the spec's decision D8, log 21). -/
def Obligations.WordClasses : Prop :=
  ∀ w : Word, (decodeWord w = .empty ↔ IllegalWord w) ∧ (decodeWord w = .unsettled ↔ UnsettledWord w)

/-! ### Fetch and step -/

/-- A step runs the instruction decoded at the pc: the one in the decode table's slot, the one placed there by
withFetchWord, and the one whose bytes Initialize put at the pc. The step clears x0 before it and counts itself
after it. -/
def Obligations.StepRunsDecodedInstruction : Prop :=
  ∀ s : State, s.refused = false → s.interruptReady = false → s.pc.toNat % 4 = 0 →
    (∀ i, s.dt[s.pc.toNat / 4]? = some (.record i) → step s = countStep (exec i s.clearX0)) ∧
    (∀ nbits w i, decodeTableWord nbits w = some i →
      step (s.withFetchWord nbits w) = countStep (exec i (s.withFetchWord nbits w).clearX0)) ∧
    (∀ p image fill s0 i, hostInitialize p image fill = .next s0 → s.dt = s0.dt → s.pc.toNat < p.decodedBytes →
      decode [s0.mem.read s.pc.toNat, s0.mem.read (s.pc.toNat + 1), s0.mem.read (s.pc.toNat + 2),
        s0.mem.read (s.pc.toNat + 3)] = .ok (i, []) →
      step s = countStep (exec i s.clearX0))

/-- R141, R142, R143: the fetch checks in their order. That `DECODED_BYTES` is 4 bytes for each slot of the decode table
is the model's reading (log 20, DEDUCED); that an unsettled slot refuses is the spec's decision D8; the frame is R320's
and the counting R150's. -/
def Obligations.FetchChecks : Prop :=
  ∀ s : State, s.refused = false → s.interruptReady = false →
    (s.pc.toNat % 4 ≠ 0 →
      ∃ t, step s = .next t.countCycle ∧ ExceptionEntered .instMisaligned [] s.clearX0 t) ∧
    (s.pc.toNat % 4 = 0 → 4 * s.dt.length ≤ s.pc.toNat →
      ∃ t, step s = .next t.countCycle ∧ ExceptionEntered .instAccess [] s.clearX0 t) ∧
    (s.pc.toNat % 4 = 0 → s.pc.toNat < 4 * s.dt.length →
      (s.dt[s.pc.toNat / 4]? = some .empty →
        ∃ t, step s = .next t.countCycle ∧ ExceptionEntered .illegalInst [] s.clearX0 t) ∧
      (s.dt[s.pc.toNat / 4]? = some .unsettled → step s = .refused .unsettledEncoding) ∧
      (∀ i, s.dt[s.pc.toNat / 4]? = some (.record i) → step s = countStep (exec i s.clearX0)))

/-- x0 reads 0, every other register reads its cell, and what cell 0 holds before an instruction step never matters
(R21, R152). -/
def Obligations.RegisterZeroIsHardwired : Prop :=
  (∀ s : State, s.readReg 0 = 0 ∧ ∀ r, r ≠ 0 → s.readReg r = s.cell r) ∧
  (∀ (s : State) (v : Word), s.interruptReady = false → s.refused = false → step (s.writeReg 0 v) = step s) ∧
  (∀ s : State, s.clearX0.cell 0 = 0 ∧ ∀ r, r ≠ 0 → s.clearX0.cell r = s.cell r)

/-! ### Integer computation -/

/-- R172, R173. -/
def Obligations.UpperImmediates : Prop :=
  DecodesAs 0x00000037 0x0000007F (fun w => .lui (w.extractLsb' 7 5) (w.extractLsb' 12 20)) ∧
  DecodesAs 0x00000017 0x0000007F (fun w => .auipc (w.extractLsb' 7 5) (w.extractLsb' 12 20)) ∧
  ∀ (s : State) (rd : RegIdx) (imm20 : BitVec 20),
    Computes (.lui rd imm20) rd (BitVec.ofNat 32 (imm20.toNat * 2 ^ 12)) s ∧
    Computes (.auipc rd imm20) rd (BitVec.ofNat 32 (s.pc.toNat + imm20.toNat * 2 ^ 12)) s

/-- R174 to R179. -/
def Obligations.ImmediateOperations : Prop :=
  DecodesAs 0x00000013 0x0000707F
    (fun w => .addi (w.extractLsb' 7 5) (w.extractLsb' 15 5) ((w.extractLsb' 20 12).signExtend 32)) ∧
  DecodesAs 0x00002013 0x0000707F
    (fun w => .slti (w.extractLsb' 7 5) (w.extractLsb' 15 5) ((w.extractLsb' 20 12).signExtend 32)) ∧
  DecodesAs 0x00003013 0x0000707F
    (fun w => .sltiu (w.extractLsb' 7 5) (w.extractLsb' 15 5) ((w.extractLsb' 20 12).signExtend 32)) ∧
  DecodesAs 0x00004013 0x0000707F
    (fun w => .xori (w.extractLsb' 7 5) (w.extractLsb' 15 5) ((w.extractLsb' 20 12).signExtend 32)) ∧
  DecodesAs 0x00006013 0x0000707F
    (fun w => .ori (w.extractLsb' 7 5) (w.extractLsb' 15 5) ((w.extractLsb' 20 12).signExtend 32)) ∧
  DecodesAs 0x00007013 0x0000707F
    (fun w => .andi (w.extractLsb' 7 5) (w.extractLsb' 15 5) ((w.extractLsb' 20 12).signExtend 32)) ∧
  ∀ (s : State) (rd rs1 : RegIdx) (imm : Word),
    let a := s.readReg rs1
    Computes (.addi rd rs1 imm) rd (BitVec.ofNat 32 (a.toNat + imm.toNat)) s ∧
    Computes (.slti rd rs1 imm) rd (if a.toInt < imm.toInt then 1 else 0) s ∧
    Computes (.sltiu rd rs1 imm) rd (if a.toNat < imm.toNat then 1 else 0) s ∧
    Computes (.xori rd rs1 imm) rd (a ^^^ imm) s ∧
    Computes (.ori rd rs1 imm) rd (a ||| imm) s ∧
    Computes (.andi rd rs1 imm) rd (a &&& imm) s

/-- R171, and R180 to R182, R185, R189, R190: a shift amount is taken modulo 32; left is multiplication by a power
of two, logical right is division of the unsigned value, arithmetic right is flooring division of the signed value. -/
def Obligations.Shifts : Prop :=
  DecodesAs 0x00001013 0xFE00707F
    (fun w => .slli (w.extractLsb' 7 5) (w.extractLsb' 15 5) (w.extractLsb' 20 5)) ∧
  DecodesAs 0x00005013 0xFE00707F
    (fun w => .srli (w.extractLsb' 7 5) (w.extractLsb' 15 5) (w.extractLsb' 20 5)) ∧
  DecodesAs 0x40005013 0xFE00707F
    (fun w => .srai (w.extractLsb' 7 5) (w.extractLsb' 15 5) (w.extractLsb' 20 5)) ∧
  DecodesAs 0x00001033 0xFE00707F
    (fun w => .sll (w.extractLsb' 7 5) (w.extractLsb' 15 5) (w.extractLsb' 20 5)) ∧
  DecodesAs 0x00005033 0xFE00707F
    (fun w => .srl (w.extractLsb' 7 5) (w.extractLsb' 15 5) (w.extractLsb' 20 5)) ∧
  DecodesAs 0x40005033 0xFE00707F
    (fun w => .sra (w.extractLsb' 7 5) (w.extractLsb' 15 5) (w.extractLsb' 20 5)) ∧
  ∀ (s : State) (rd rs1 rs2 : RegIdx) (shamt : BitVec 5),
    let a := s.readReg rs1
    let sh := (s.readReg rs2).toNat % 32
    Computes (.slli rd rs1 shamt) rd (BitVec.ofNat 32 (a.toNat * 2 ^ shamt.toNat)) s ∧
    Computes (.srli rd rs1 shamt) rd (BitVec.ofNat 32 (a.toNat / 2 ^ shamt.toNat)) s ∧
    Computes (.srai rd rs1 shamt) rd (BitVec.ofInt 32 (a.toInt / 2 ^ shamt.toNat)) s ∧
    Computes (.sll rd rs1 rs2) rd (BitVec.ofNat 32 (a.toNat * 2 ^ sh)) s ∧
    Computes (.srl rd rs1 rs2) rd (BitVec.ofNat 32 (a.toNat / 2 ^ sh)) s ∧
    Computes (.sra rd rs1 rs2) rd (BitVec.ofInt 32 (a.toInt / 2 ^ sh)) s

/-- R183, R184, R186, R187, R188, R191, R192. -/
def Obligations.RegisterOperations : Prop :=
  DecodesAs 0x00000033 0xFE00707F
    (fun w => .add (w.extractLsb' 7 5) (w.extractLsb' 15 5) (w.extractLsb' 20 5)) ∧
  DecodesAs 0x40000033 0xFE00707F
    (fun w => .sub (w.extractLsb' 7 5) (w.extractLsb' 15 5) (w.extractLsb' 20 5)) ∧
  DecodesAs 0x00002033 0xFE00707F
    (fun w => .slt (w.extractLsb' 7 5) (w.extractLsb' 15 5) (w.extractLsb' 20 5)) ∧
  DecodesAs 0x00003033 0xFE00707F
    (fun w => .sltu (w.extractLsb' 7 5) (w.extractLsb' 15 5) (w.extractLsb' 20 5)) ∧
  DecodesAs 0x00004033 0xFE00707F
    (fun w => .xor (w.extractLsb' 7 5) (w.extractLsb' 15 5) (w.extractLsb' 20 5)) ∧
  DecodesAs 0x00006033 0xFE00707F
    (fun w => .or (w.extractLsb' 7 5) (w.extractLsb' 15 5) (w.extractLsb' 20 5)) ∧
  DecodesAs 0x00007033 0xFE00707F
    (fun w => .and (w.extractLsb' 7 5) (w.extractLsb' 15 5) (w.extractLsb' 20 5)) ∧
  ∀ (s : State) (rd rs1 rs2 : RegIdx),
    let a := s.readReg rs1
    let b := s.readReg rs2
    Computes (.add rd rs1 rs2) rd (BitVec.ofNat 32 (a.toNat + b.toNat)) s ∧
    Computes (.sub rd rs1 rs2) rd (BitVec.ofInt 32 (a.toNat - b.toNat)) s ∧
    Computes (.slt rd rs1 rs2) rd (if a.toInt < b.toInt then 1 else 0) s ∧
    Computes (.sltu rd rs1 rs2) rd (if a.toNat < b.toNat then 1 else 0) s ∧
    Computes (.xor rd rs1 rs2) rd (a ^^^ b) s ∧
    Computes (.or rd rs1 rs2) rd (a ||| b) s ∧
    Computes (.and rd rs1 rs2) rd (a &&& b) s

/-! ### Multiply and divide -/

/-- R241 to R244: the low word of the product, whichever way the operands are read, and the three high words. -/
def Obligations.Multiply : Prop :=
  DecodesAs 0x02000033 0xFE00707F
    (fun w => .mul (w.extractLsb' 7 5) (w.extractLsb' 15 5) (w.extractLsb' 20 5)) ∧
  DecodesAs 0x02001033 0xFE00707F
    (fun w => .mulh (w.extractLsb' 7 5) (w.extractLsb' 15 5) (w.extractLsb' 20 5)) ∧
  DecodesAs 0x02002033 0xFE00707F
    (fun w => .mulhsu (w.extractLsb' 7 5) (w.extractLsb' 15 5) (w.extractLsb' 20 5)) ∧
  DecodesAs 0x02003033 0xFE00707F
    (fun w => .mulhu (w.extractLsb' 7 5) (w.extractLsb' 15 5) (w.extractLsb' 20 5)) ∧
  ∀ (s : State) (rd rs1 rs2 : RegIdx),
    let a := s.readReg rs1
    let b := s.readReg rs2
    Computes (.mul rd rs1 rs2) rd (BitVec.ofNat 32 (a.toNat * b.toNat)) s ∧
    Computes (.mul rd rs1 rs2) rd (BitVec.ofInt 32 (a.toInt * b.toInt)) s ∧
    Computes (.mulh rd rs1 rs2) rd (BitVec.ofInt 32 (a.toInt * b.toInt / 2 ^ 32)) s ∧
    Computes (.mulhsu rd rs1 rs2) rd (BitVec.ofInt 32 (a.toInt * b.toNat / 2 ^ 32)) s ∧
    Computes (.mulhu rd rs1 rs2) rd (BitVec.ofNat 32 (a.toNat * b.toNat / 2 ^ 32)) s

/-- R245 to R248, with their corners; `tdiv` is division truncating toward zero. -/
def Obligations.Divide : Prop :=
  DecodesAs 0x02004033 0xFE00707F
    (fun w => .div (w.extractLsb' 7 5) (w.extractLsb' 15 5) (w.extractLsb' 20 5)) ∧
  DecodesAs 0x02005033 0xFE00707F
    (fun w => .divu (w.extractLsb' 7 5) (w.extractLsb' 15 5) (w.extractLsb' 20 5)) ∧
  DecodesAs 0x02006033 0xFE00707F
    (fun w => .rem (w.extractLsb' 7 5) (w.extractLsb' 15 5) (w.extractLsb' 20 5)) ∧
  DecodesAs 0x02007033 0xFE00707F
    (fun w => .remu (w.extractLsb' 7 5) (w.extractLsb' 15 5) (w.extractLsb' 20 5)) ∧
  ∀ (s : State) (rd rs1 rs2 : RegIdx),
    let a := s.readReg rs1
    let b := s.readReg rs2
    (b = 0 →
      Computes (.div rd rs1 rs2) rd 0xFFFFFFFF s ∧ Computes (.divu rd rs1 rs2) rd 0xFFFFFFFF s ∧
      Computes (.rem rd rs1 rs2) rd a s ∧ Computes (.remu rd rs1 rs2) rd a s) ∧
    (a = 0x80000000 → b = 0xFFFFFFFF →
      Computes (.div rd rs1 rs2) rd 0x80000000 s ∧ Computes (.rem rd rs1 rs2) rd 0 s) ∧
    (b ≠ 0 →
      Computes (.divu rd rs1 rs2) rd (BitVec.ofNat 32 (a.toNat / b.toNat)) s ∧
      Computes (.remu rd rs1 rs2) rd (BitVec.ofNat 32 (a.toNat % b.toNat)) s) ∧
    (b ≠ 0 → ¬(a = 0x80000000 ∧ b = 0xFFFFFFFF) →
      Computes (.div rd rs1 rs2) rd (BitVec.ofInt 32 (a.toInt.tdiv b.toInt)) s ∧
      Computes (.rem rd rs1 rs2) rd (BitVec.ofInt 32 (a.toInt - a.toInt.tdiv b.toInt * b.toInt)) s)

/-- R249: dividing and taking the remainder of the same operands, signed or unsigned, the divisor 0 or not, the
dividend is quotient times divisor plus remainder modulo 2^32; and the signed remainder is 0 or has the dividend's
sign. -/
def Obligations.DivisionIdentity : Prop :=
  ∀ (s : State) (rd rs1 rs2 : RegIdx),
    let a := s.readReg rs1
    let b := s.readReg rs2
    (∃ q r, Computes (.div rd rs1 rs2) rd q s ∧ Computes (.rem rd rs1 rs2) rd r s ∧ a = q * b + r ∧
      (r = 0 ∨ (r.msb = a.msb))) ∧
    (∃ q r, Computes (.divu rd rs1 rs2) rd q s ∧ Computes (.remu rd rs1 rs2) rd r s ∧ a = q * b + r)

/-! ### Control transfer -/

/-- R201: the link is written, and the pc is the target whatever its alignment; a target that is not a multiple of 4
faults at the next fetch (the spec's decision D13), no host action falling between (log 12). -/
def Obligations.JumpAndLink : Prop :=
  DecodesAs 0x0000006F 0x0000007F
    (fun w => .jal (w.extractLsb' 7 5)
      ((w.extractLsb' 31 1 ++ w.extractLsb' 12 8 ++ w.extractLsb' 20 1 ++ w.extractLsb' 21 10 ++ 0#1).signExtend 32)) ∧
  ∀ (s : State) (rd : RegIdx) (imm : Word),
    (∃ t, exec (.jal rd imm) s = .next t ∧ RegWritten rd (s.pc + 4) [] s t ∧ t.pc = s.pc + imm ∧
      t.clearX0.cell 0 = 0) ∧
    (∀ u, exec (.jal rd imm) s = .next u → (s.pc + imm).toNat % 4 ≠ 0 → u.refused = false → u.interruptReady = false →
      ∃ t, step u = .next t.countCycle ∧ ExceptionEntered .instMisaligned [] u.clearX0 t ∧ t.csr.mepc = s.pc + imm)

/-- R202: the base is read before the link is written, bit 0 of the sum is cleared and no other; a target that is not
a multiple of 4 faults at the next fetch (decisions D13, D14), no host action falling between (log 12). -/
def Obligations.JumpAndLinkRegister : Prop :=
  DecodesAs 0x00000067 0x0000707F
    (fun w => .jalr (w.extractLsb' 7 5) (w.extractLsb' 15 5) ((w.extractLsb' 20 12).signExtend 32)) ∧
  ∀ (s : State) (rd rs1 : RegIdx) (imm : Word),
    (∃ t, exec (.jalr rd rs1 imm) s = .next t ∧ RegWritten rd (s.pc + 4) [] s t ∧ t.clearX0.cell 0 = 0 ∧
      ∀ j, t.pc.getLsbD j = (decide (1 ≤ j) && (s.readReg rs1 + imm).getLsbD j)) ∧
    (∀ u, exec (.jalr rd rs1 imm) s = .next u → u.pc.toNat % 4 ≠ 0 → u.refused = false → u.interruptReady = false →
      ∃ t, step u = .next t.countCycle ∧ ExceptionEntered .instMisaligned [] u.clearX0 t ∧ t.csr.mepc = u.pc)

/-- R203 to R208: the condition of each branch, that a branch writes nothing but the pc, and that a target that is not
a multiple of 4 faults at the next fetch (the spec's decision D13), no host action falling between (log 12). -/
def Obligations.ConditionalBranches : Prop :=
  let immOf : Word → Word := fun w =>
    (w.extractLsb' 31 1 ++ w.extractLsb' 7 1 ++ w.extractLsb' 25 6 ++ w.extractLsb' 8 4 ++ 0#1 : BitVec 13).signExtend 32
  DecodesAs 0x00000063 0x0000707F (fun w => .beq (w.extractLsb' 15 5) (w.extractLsb' 20 5) (immOf w)) ∧
  DecodesAs 0x00001063 0x0000707F (fun w => .bne (w.extractLsb' 15 5) (w.extractLsb' 20 5) (immOf w)) ∧
  DecodesAs 0x00004063 0x0000707F (fun w => .blt (w.extractLsb' 15 5) (w.extractLsb' 20 5) (immOf w)) ∧
  DecodesAs 0x00005063 0x0000707F (fun w => .bge (w.extractLsb' 15 5) (w.extractLsb' 20 5) (immOf w)) ∧
  DecodesAs 0x00006063 0x0000707F (fun w => .bltu (w.extractLsb' 15 5) (w.extractLsb' 20 5) (immOf w)) ∧
  DecodesAs 0x00007063 0x0000707F (fun w => .bgeu (w.extractLsb' 15 5) (w.extractLsb' 20 5) (immOf w)) ∧
  ∀ (s : State) (rs1 rs2 : RegIdx) (imm : Word),
    let a := s.readReg rs1
    let b := s.readReg rs2
    Branches (.beq rs1 rs2 imm) (a = b) imm s ∧
    Branches (.bne rs1 rs2 imm) (a ≠ b) imm s ∧
    Branches (.blt rs1 rs2 imm) (a.toInt < b.toInt) imm s ∧
    Branches (.bge rs1 rs2 imm) (b.toInt ≤ a.toInt) imm s ∧
    Branches (.bltu rs1 rs2 imm) (a.toNat < b.toNat) imm s ∧
    Branches (.bgeu rs1 rs2 imm) (b.toNat ≤ a.toNat) imm s ∧
    ∀ i ∈ [Instr.beq rs1 rs2 imm, .bne rs1 rs2 imm, .blt rs1 rs2 imm, .bge rs1 rs2 imm, .bltu rs1 rs2 imm,
        .bgeu rs1 rs2 imm],
      ∀ u, exec i s = .next u → u.pc.toNat % 4 ≠ 0 → u.refused = false → u.interruptReady = false →
        ∃ t, step u = .next t.countCycle ∧ ExceptionEntered .instMisaligned [] u.clearX0 t ∧ t.csr.mepc = u.pc

/-! ### Loads and stores -/

/-- R221 to R225 over the load path of R80: misaligned, served by the hook, inside the buffer, outside it. A load
that raises an exception writes no register. The hook's answer is a free value: the statement says what follows from
each (log 8). The byte order is the spec's decision D1, the hook's arguments its decision D22. -/
def Obligations.Loads : Prop :=
  DecodesAs 0x00000003 0x0000707F
    (fun w => .lb (w.extractLsb' 7 5) (w.extractLsb' 15 5) ((w.extractLsb' 20 12).signExtend 32)) ∧
  DecodesAs 0x00001003 0x0000707F
    (fun w => .lh (w.extractLsb' 7 5) (w.extractLsb' 15 5) ((w.extractLsb' 20 12).signExtend 32)) ∧
  DecodesAs 0x00002003 0x0000707F
    (fun w => .lw (w.extractLsb' 7 5) (w.extractLsb' 15 5) ((w.extractLsb' 20 12).signExtend 32)) ∧
  DecodesAs 0x00004003 0x0000707F
    (fun w => .lbu (w.extractLsb' 7 5) (w.extractLsb' 15 5) ((w.extractLsb' 20 12).signExtend 32)) ∧
  DecodesAs 0x00005003 0x0000707F
    (fun w => .lhu (w.extractLsb' 7 5) (w.extractLsb' 15 5) ((w.extractLsb' 20 12).signExtend 32)) ∧
  ∀ (s : State) (rd rs1 : RegIdx) (imm : Word) (i : Instr) (w : Width) (n : Nat) (signed : Bool),
    (i, w, n, signed) ∈
      [(Instr.lb rd rs1 imm, Width.byte, 1, true), (.lh rd rs1 imm, .half, 2, true), (.lw rd rs1 imm, .word, 4, true),
        (.lbu rd rs1 imm, .byte, 1, false), (.lhu rd rs1 imm, .half, 2, false)] →
    let ea := s.readReg rs1 + imm
    (ea.toNat % n ≠ 0 → Raises i .loadMisaligned [] s) ∧
    (ea.toNat % n = 0 → HookServes s.launch.loadHook ea →
      match Config.loadAnswer s.hookLog ea w signed with
      | some v =>
        ∃ t, exec i s = .next t ∧ RegWritten rd v [.load ea w signed (some v)] s t ∧ t.pc = s.pc + 4
      | none => Raises i .loadFault [.load ea w signed none] s) ∧
    (ea.toNat % n = 0 → ¬HookServes s.launch.loadHook ea → ea.toNat + n ≤ s.mem.len →
      Computes i rd
        (if signed then (BitVec.ofNat (8 * n) (leValue s.mem ea.toNat n)).signExtend 32
          else (BitVec.ofNat (8 * n) (leValue s.mem ea.toNat n)).setWidth 32) s) ∧
    (ea.toNat % n = 0 → ¬HookServes s.launch.loadHook ea → s.mem.len < ea.toNat + n → Raises i .loadFault [] s)

/-- R226 to R228 over the store path of R81: misaligned (the load code), served by the hook, inside the buffer, outside
it. The address stored to is `x[rs1] + imm`; every byte outside the stored ones reads as before. The byte order is the
spec's decision D1, the hook's arguments its decision D22. -/
def Obligations.Stores : Prop :=
  let immOf : Word → Word := fun w => (w.extractLsb' 25 7 ++ w.extractLsb' 7 5 : BitVec 12).signExtend 32
  DecodesAs 0x00000023 0x0000707F (fun w => .sb (w.extractLsb' 15 5) (w.extractLsb' 20 5) (immOf w)) ∧
  DecodesAs 0x00001023 0x0000707F (fun w => .sh (w.extractLsb' 15 5) (w.extractLsb' 20 5) (immOf w)) ∧
  DecodesAs 0x00002023 0x0000707F (fun w => .sw (w.extractLsb' 15 5) (w.extractLsb' 20 5) (immOf w)) ∧
  ∀ (s : State) (rs1 rs2 : RegIdx) (imm : Word) (i : Instr) (w : Width) (n : Nat),
    (i, w, n) ∈
      [(Instr.sb rs1 rs2 imm, Width.byte, 1), (.sh rs1 rs2 imm, .half, 2), (.sw rs1 rs2 imm, .word, 4)] →
    let ea := s.readReg rs1 + imm
    let x := s.readReg rs2
    let low := BitVec.ofNat 32 (x.toNat % 2 ^ (8 * n))
    (ea.toNat % n ≠ 0 → Raises i .loadMisaligned [] s) ∧
    (ea.toNat % n = 0 → HookServes s.launch.storeHook ea →
      match Config.storeAnswer s.hookLog ea w low with
      | true => ∃ t, exec i s = .next t ∧ NothingWritten [.store ea w low true] s t ∧ t.pc = s.pc + 4
      | false => Raises i .storeFault [.store ea w low false] s) ∧
    (ea.toNat % n = 0 → ¬HookServes s.launch.storeHook ea → ea.toNat + n ≤ s.mem.len →
      ∃ t, exec i s = .next t ∧ BytesStored ea.toNat n x s t ∧ t.pc = s.pc + 4) ∧
    (ea.toNat % n = 0 → ¬HookServes s.launch.storeHook ea → s.mem.len < ea.toNat + n → Raises i .storeFault [] s)

/-- R73, R74: what a word stored in the buffer reads back as, at every width and offset (the byte order is the spec's
decision D1). -/
def Obligations.MixedWidthView : Prop :=
  ∀ (s u : State) (rs1 rs2 rd : RegIdx) (imm : Word),
    let a := s.readReg rs1 + imm
    let v := s.readReg rs2
    a.toNat % 4 = 0 → a.toNat + 4 ≤ s.mem.len → s.launch.storeHook = none → s.launch.loadHook = none →
    exec (.sw rs1 rs2 imm) s = .next u →
    Computes (.lw rd rs1 imm) rd v u ∧
    Computes (.lhu rd rs1 imm) rd (BitVec.ofNat 32 (v.toNat % 2 ^ 16)) u ∧
    Computes (.lhu rd rs1 (imm + 2)) rd (BitVec.ofNat 32 (v.toNat / 2 ^ 16)) u ∧
    Computes (.lh rd rs1 imm) rd ((v.extractLsb' 0 16).signExtend 32) u ∧
    Computes (.lh rd rs1 (imm + 2)) rd ((v.extractLsb' 16 16).signExtend 32) u ∧
    ∀ k : Nat, k < 4 →
      Computes (.lbu rd rs1 (imm + BitVec.ofNat 32 k)) rd (BitVec.ofNat 32 (v.toNat / 2 ^ (8 * k) % 2 ^ 8)) u ∧
      Computes (.lb rd rs1 (imm + BitVec.ofNat 32 k)) rd ((v.extractLsb' (8 * k) 8).signExtend 32) u

/-! ### Fences -/

/-- R261: FENCE.I does nothing, and in particular leaves the decode table as it is. -/
def Obligations.FenceI : Prop :=
  DecodesAs 0x0000100F 0x0000707F
    (fun w => .fenceI ((w.extractLsb' 20 12).signExtend 32) (w.extractLsb' 15 5) (w.extractLsb' 7 5)) ∧
  ∀ (s : State) (imm : Word) (rs1 rd : RegIdx),
    ∃ t, exec (.fenceI imm rs1 rd) s = .next t ∧ NothingWritten [] s t ∧ t.dt = s.dt ∧ t.pc = s.pc + 4

/-- R260, whose field layout the spec marks as general knowledge: FENCE does nothing whatever its fields hold. -/
def Obligations.Fence : Prop :=
  DecodesAs 0x0000000F 0x0000707F
    (fun w => .fence (w.extractLsb' 28 4) (w.extractLsb' 24 4) (w.extractLsb' 20 4) (w.extractLsb' 15 5)
      (w.extractLsb' 7 5)) ∧
  ∀ (s : State) (fm pred succ : BitVec 4) (rs1 rd : RegIdx),
    ∃ t, exec (.fence fm pred succ rs1 rd) s = .next t ∧ NothingWritten [] s t ∧ t.pc = s.pc + 4

/-! ### CSR access -/

/-- R28: the eight addresses, and that no other address resolves; they are the standard addresses, the spec's
decision D3. -/
def Obligations.CsrAddresses : Prop :=
  (csrResolve 0x300 = some .mstatus ∧ csrResolve 0x304 = some .mie ∧ csrResolve 0x305 = some .mtvec ∧
    csrResolve 0x340 = some .mscratch ∧ csrResolve 0x341 = some .mepc ∧ csrResolve 0x342 = some .mcause ∧
    csrResolve 0x343 = some .mtval ∧ csrResolve 0x344 = some .mip) ∧
  ∀ a : CsrAddr,
    a ∉ ([0x300, 0x304, 0x305, 0x340, 0x341, 0x342, 0x343, 0x344] : List CsrAddr) → csrResolve a = none

/-- R277, R278, R279: the cell's old value goes to `rd` unless `rd` is 0; the cell is written, or its bits set or
cleared, unless the `rs1` field is 0; an unresolved address traps in Strict mode and reaches the sink in Sink mode (the
spec's decisions D6 and D7). -/
def Obligations.CsrRegisterForms : Prop :=
  DecodesAs 0x00001073 0x0000707F
    (fun w => .csrrw (w.extractLsb' 7 5) (w.extractLsb' 15 5) (w.extractLsb' 20 12)) ∧
  DecodesAs 0x00002073 0x0000707F
    (fun w => .csrrs (w.extractLsb' 7 5) (w.extractLsb' 15 5) (w.extractLsb' 20 12)) ∧
  DecodesAs 0x00003073 0x0000707F
    (fun w => .csrrc (w.extractLsb' 7 5) (w.extractLsb' 15 5) (w.extractLsb' 20 12)) ∧
  ∀ (s : State) (rd rs1 : RegIdx) (csr : CsrAddr),
    (∀ n, csrResolve csr = some n →
      let old := s.csr.get n
      let v := s.readReg rs1
      (∃ t, exec (.csrrw rd rs1 csr) s = .next t ∧ CsrAccessed rd n (if rs1 = 0 then old else v) s t) ∧
      (∃ t, exec (.csrrs rd rs1 csr) s = .next t ∧ CsrAccessed rd n (if rs1 = 0 then old else old ||| v) s t) ∧
      (∃ t, exec (.csrrc rd rs1 csr) s = .next t ∧ CsrAccessed rd n (if rs1 = 0 then old else old &&& ~~~v) s t)) ∧
    (csrResolve csr = none → ∀ i ∈ [Instr.csrrw rd rs1 csr, .csrrs rd rs1 csr, .csrrc rd rs1 csr],
      (s.launch.csrUnresolved = .strict → Raises i .illegalInst [] s) ∧
      (s.launch.csrUnresolved = .sink → ∃ t, exec i s = .next t ∧ SinkAccessed rd s t))

/-- R280, R281, R282: as the register forms, with the 5-bit immediate, zero-extended, in place of a register; an
unresolved address as there (the spec's decisions D6 and D7). -/
def Obligations.CsrImmediateForms : Prop :=
  DecodesAs 0x00005073 0x0000707F
    (fun w => .csrrwi (w.extractLsb' 7 5) (w.extractLsb' 15 5) (w.extractLsb' 20 12)) ∧
  DecodesAs 0x00006073 0x0000707F
    (fun w => .csrrsi (w.extractLsb' 7 5) (w.extractLsb' 15 5) (w.extractLsb' 20 12)) ∧
  DecodesAs 0x00007073 0x0000707F
    (fun w => .csrrci (w.extractLsb' 7 5) (w.extractLsb' 15 5) (w.extractLsb' 20 12)) ∧
  ∀ (s : State) (rd : RegIdx) (zimm : BitVec 5) (csr : CsrAddr),
    (∀ n, csrResolve csr = some n →
      let old := s.csr.get n
      let v := BitVec.ofNat 32 zimm.toNat
      (∃ t, exec (.csrrwi rd zimm csr) s = .next t ∧ CsrAccessed rd n (if zimm = 0 then old else v) s t) ∧
      (∃ t, exec (.csrrsi rd zimm csr) s = .next t ∧ CsrAccessed rd n (old ||| v) s t) ∧
      (∃ t, exec (.csrrci rd zimm csr) s = .next t ∧ CsrAccessed rd n (old &&& ~~~v) s t)) ∧
    (csrResolve csr = none → ∀ i ∈ [Instr.csrrwi rd zimm csr, .csrrsi rd zimm csr, .csrrci rd zimm csr],
      (s.launch.csrUnresolved = .strict → Raises i .illegalInst [] s) ∧
      (s.launch.csrUnresolved = .sink → ∃ t, exec i s = .next t ∧ SinkAccessed rd s t))

/-! ### ECALL and MRET -/

/-- R292 (decision D25): a0 = 0 asks for the length; a request from STACK_END up to 2^31 sets it, clamped to
HEAP_LIMIT; any other request is refused. A length of 2^32 or more is reported modulo 2^32 (log 13). -/
def Obligations.EcallBrk : Prop :=
  ∀ s : State, s.readReg 17 = s.launch.sysBrk →
    let req := (s.readReg 10).toNat
    (req = 0 → AfterHook s fun calls =>
      ∃ t, exec .ecall s = .next t ∧ RegWritten a0 (BitVec.ofNat 32 s.mem.len) calls s t ∧ t.pc = s.pc + 4) ∧
    (req ≠ 0 → s.launch.stackEnd ≤ req → req < 2 ^ 31 → AfterHook s fun calls =>
      ∃ t, exec .ecall s = .next t ∧ LengthSet (min req s.launch.heapLimit) calls s t) ∧
    (req ≠ 0 → req < s.launch.stackEnd ∨ 2 ^ 31 ≤ req → AfterHook s fun _ =>
      exec .ecall s = .refused .brkOutsideModel)

/-- R293: fstat answers -ENOSYS, the launch parameter's two's complement, and changes nothing else; with the default
38 that is 0xFFFFFFDA. -/
def Obligations.EcallFstat : Prop :=
  (∀ s : State, s.readReg 17 ≠ s.launch.sysBrk → s.readReg 17 = s.launch.sysFstat → AfterHook s fun calls =>
    ∃ t, exec .ecall s = .next t ∧
      RegWritten a0 (BitVec.ofNat 32 (2 ^ 32 - s.launch.enosys.toNat)) calls s t ∧ t.pc = s.pc + 4) ∧
  BitVec.ofNat 32 (2 ^ 32 - State.reset.launch.enosys.toNat) = 0xFFFFFFDA

/-- R294: a number that neither the hook nor the fallback claims raises ECALL_M, and no register is written. That a
claim by the hook writes a0 and nothing else is the spec's decision D23 (R290, R291), and that its answer is a function
of the arguments and the history of calls is the model's choice (log 8). -/
def Obligations.EcallUnclaimed : Prop :=
  ∀ s : State, s.readReg 17 ≠ s.launch.sysBrk → s.readReg 17 ≠ s.launch.sysFstat →
    AfterHook s fun calls => Raises .ecall .ecallM calls s

/-- R295 (decision D20): the pc is mepc verbatim, MIE is MPIE and MPIE stays, a0 is mscratch if mtval is not 0, and
nothing else changes. -/
def Obligations.TrapReturn : Prop :=
  ∀ s : State, ∃ t, exec .mret s = .next t ∧
    t.pc = s.csr.mepc ∧
    (∀ j, t.csr.mstatus.getLsbD j = if j = 3 then s.csr.mstatus.getLsbD 7 else s.csr.mstatus.getLsbD j) ∧
    (∀ n, n ≠ .mstatus → t.csr.get n = s.csr.get n) ∧
    (∀ r, t.cell r = if r = 10 ∧ s.csr.mtval ≠ 0 then s.csr.mscratch else s.cell r) ∧
    SameMemory s t ∧ SameFixed s t ∧ t.hookLog = s.hookLog ∧ t.draws = s.draws

/-! ### Exceptions and interrupts -/

/-- R320: exception entry, whatever raised it; the step then commits the pc and counts itself; and a handler address
outside the decoded range raises again at the next step, as R326 derives, no host action falling between (log 12). That
the decoded range is 4 bytes for each slot of the decode table is the model's reading (log 20, DEDUCED). -/
def Obligations.ExceptionEntry : Prop :=
  (∀ (s : State) (c : Cause), ExceptionEntered c [] s (s.takeException c) ∧ c.code.getLsbD 31 = false) ∧
  (∀ (s : State) (i : Instr) (t : State), s.refused = false → s.interruptReady = false → s.fetch = .run i →
    exec i s.clearX0 = .next t → ∃ u, step s = .next u ∧ u.pc = t.pc ∧ u.cycles = s.cycles + 1) ∧
  (∀ (s : State) (c : Cause), s.refused = false → 4 * s.dt.length ≤ (vectorBase s.csr.mtvec).toNat →
    ∃ u, step (s.takeException c) = .next u.countCycle ∧
      ExceptionEntered .instAccess [] (s.takeException c).clearX0 u ∧ u.csr.mepc = vectorBase s.csr.mtvec)

/-- R310: the codes of the seven causes; they are the standard RISC-V codes, the spec's decision D2. -/
def Obligations.CauseCodes : Prop :=
  Cause.code .instMisaligned = 0 ∧ Cause.code .instAccess = 1 ∧ Cause.code .illegalInst = 2 ∧
  Cause.code .loadMisaligned = 4 ∧ Cause.code .loadFault = 5 ∧ Cause.code .storeFault = 7 ∧
  Cause.code .ecallM = 11

/-- R315, R321, R322: the interrupt is taken at the start of a step exactly when MIE, MEIE and MEIP are all 1; entry
records the latched cause with the top bit set, and leaves mtval, the latch and x0 alone (decisions D4, D16 to D19). -/
def Obligations.InterruptStep : Prop :=
  ∀ s : State, s.refused = false →
    (s.csr.mstatus.getLsbD 3 = true → s.csr.mie.getLsbD 11 = true → s.csr.mip.getLsbD 11 = true →
      ∃ t, step s = .next t ∧
        t.csr.mcause = 0x80000000 ||| s.latchedCause ∧ t.csr.mepc = s.pc ∧
        (∀ j, t.csr.mstatus.getLsbD j = if j = 3 then false else if j = 7 then true else s.csr.mstatus.getLsbD j) ∧
        (∀ j, t.csr.mip.getLsbD j = if j = 11 then false else s.csr.mip.getLsbD j) ∧
        t.csr.mtval = s.csr.mtval ∧ t.csr.mie = s.csr.mie ∧ t.csr.mtvec = s.csr.mtvec ∧
        t.csr.mscratch = s.csr.mscratch ∧
        t.pc.toNat = (s.csr.mtvec.toNat / 4 * 4 +
          if s.csr.mtvec.getLsbD 0 then 4 * s.latchedCause.toNat else 0) % 2 ^ 32 ∧
        (∀ r, t.cell r = s.cell r) ∧ SameMemory s t ∧ t.latchedCause = s.latchedCause ∧ t.cycles = s.cycles + 1 ∧
        t.refused = false ∧ t.dt = s.dt ∧ t.launch = s.launch ∧ t.hookLog = s.hookLog ∧ t.draws = s.draws) ∧
    (s.csr.mstatus.getLsbD 3 = false ∨ s.csr.mie.getLsbD 11 = false ∨ s.csr.mip.getLsbD 11 = false →
      step s = instructionStep s)

/-- R314, R367: ExternalInterrupt latches the cause and sets MEIP and does nothing else; the last cause wins; and with
MIE and MEIE already 1 the very next step goes to the trap vector and clears MEIP. -/
def Obligations.ExternalInterruptDelivery : Prop :=
  ∀ (s : State) (cause : Word),
    let u := externalInterrupt cause s
    (u.latchedCause = cause ∧ (∀ j, u.csr.mip.getLsbD j = (decide (j = 11) || s.csr.mip.getLsbD j)) ∧
      (∀ n, n ≠ .mip → u.csr.get n = s.csr.get n) ∧ u.regs = s.regs ∧ u.pc = s.pc ∧ u.mem = s.mem ∧
      u.cycles = s.cycles ∧ u.refused = s.refused ∧ u.dt = s.dt ∧ u.launch = s.launch ∧ u.hookLog = s.hookLog ∧
      u.draws = s.draws) ∧
    (∀ later, externalInterrupt later u = externalInterrupt later s) ∧
    (s.refused = false → s.csr.mstatus.getLsbD 3 = true → s.csr.mie.getLsbD 11 = true →
      ∃ t, step u = .next t ∧ t.csr.mip.getLsbD 11 = false ∧ t.csr.mcause = 0x80000000 ||| cause ∧
        t.csr.mepc = s.pc ∧ t.pc = vectorTarget s.csr.mtvec cause)

/-- R326, R372: if the handler's address cannot be fetched, every step raises the same exception again and the pc
stays at it for as long as the machine only steps; and so does the instruction that jumps to itself. No host action
falls between these steps (log 12, DESIGN CHOICE): an ExternalInterrupt or a Reset there could take the pc away. The
convergence test is the spec's decision D28. -/
def Obligations.TrapLoopConverges : Prop :=
  (∀ (s : State) (c : Cause), s.refused = false → s.csr.mstatus.getLsbD 3 = false → s.pc = vectorBase s.csr.mtvec →
    s.fetch = .trap c →
    converges s = true ∧
      ∀ n, (steps (n + 1) s).pc = s.pc ∧ (steps (n + 1) s).csr.mcause = c.code ∧ (steps (n + 1) s).csr.mepc = s.pc ∧
        (steps (n + 1) s).cycles = s.cycles + (n + 1) ∧ (steps (n + 1) s).mem = s.mem) ∧
  (∀ s : State, s.refused = false → s.interruptReady = false → s.fetch = .run (.jal 0 0) →
    converges s = true ∧ ∀ n, (steps n s).pc = s.pc ∧ (steps n s).mem = s.mem ∧ (steps n s).cycles = s.cycles + n)

/-! ### Invariants and whole-machine rules -/

/-- The buffer's canonical form and `STACK_END <= memLen <= HEAP_LIMIT` (R41) are kept by every step from every
state that has them. -/
def Obligations.InvariantKept : Prop := ∀ s t : State, BufferInv s → step s = .next t → BufferInv t

/-- The invariant holds at reset. -/
def Obligations.InvariantAtReset : Prop := BufferInv State.reset

/-- The invariant holds after Initialize and every host action keeps it (R360, R373). -/
def Obligations.InvariantOfHostActions : Prop :=
  (∀ (p : Launch) (image : List Byte) (fill : List Host.Cell) (s : State), rising fill = true →
    (∀ c ∈ fill, c.2 ≠ 0) → hostInitialize p image fill = .next s → BufferInv s) ∧
  (∀ (s : State) (actions : List HostAction), BufferInv s → BufferInv (hostRun actions s))

/-- No step changes the decode table, a launch parameter, INIT_FILL, the latch or the refusal mark; every step counts
one; and so no store changes what any address fetches (R38, R39, R42, R44, R92). -/
def Obligations.StepKeepsConfiguration : Prop :=
  ∀ s t : State, step s = .next t →
    t.dt = s.dt ∧ t.launch = s.launch ∧ t.mem.fill = s.mem.fill ∧ t.latchedCause = s.latchedCause ∧
    t.refused = s.refused ∧ t.cycles = s.cycles + 1 ∧
    ∀ pc : Word, State.fetch { t with pc := pc } = State.fetch { s with pc := pc }

/-- R336: a step of a run not yet refused stops only at an unsettled encoding or at a brk request outside the model,
and it does stop at the first. -/
def Obligations.OnlyTwoRefusals : Prop :=
  ∀ s : State, s.refused = false →
    (step s = .refused .unsettledEncoding ↔ s.interruptReady = false ∧ s.fetch = .unsettled) ∧
    (∀ r, step s = .refused r → r = .unsettledEncoding ∨
      (r = .brkOutsideModel ∧ s.interruptReady = false ∧ s.fetch = .run .ecall ∧
        s.readReg 17 = s.launch.sysBrk ∧ (s.readReg 10).toNat ≠ 0 ∧
        ((s.readReg 10).toNat < s.launch.stackEnd ∨ 2 ^ 31 ≤ (s.readReg 10).toNat))) ∧
    (∀ f, step s ≠ .fault f)

/-- R311, R327: an instruction that is neither a CSR access nor MRET leaves every CSR cell alone, or takes one of the
seven exceptions. -/
def Obligations.CsrCellsIsolated : Prop :=
  ∀ (i : Instr) (s t : State), exec i s = .next t → writesCsr i = false →
    t.csr = s.csr ∨ ∃ c calls, ExceptionEntered c calls s t

/-- R23: an instruction changes no register but its destination. -/
def Obligations.RegistersIsolated : Prop :=
  ∀ (i : Instr) (s t : State), exec i s = .next t → ∀ r, destination i ≠ some r → t.cell r = s.cell r

/-- R41, R77: no instruction but ECALL changes the length, stores included; only a store changes a byte of memory; a byte
below both lengths survives ECALL. -/
def Obligations.MemoryIsolated : Prop :=
  ∀ (i : Instr) (s t : State), exec i s = .next t →
    (i ≠ .ecall → t.mem.len = s.mem.len) ∧
    (isStore i = false → i ≠ .ecall → t.mem = s.mem) ∧
    (isStore i = false → ∀ a, a < min s.mem.len t.mem.len → t.mem.read a = s.mem.read a)

/-- R90, R291: an instruction calls at most one hook, once; only a load, a store or ECALL calls one; and with no hook
installed none is called. -/
def Obligations.HookCallsBounded : Prop :=
  ∀ (i : Instr) (s t : State), exec i s = .next t →
    (t.hookLog = s.hookLog ∨ ∃ c, t.hookLog = c :: s.hookLog) ∧
    (mayCallHook i = false → t.hookLog = s.hookLog) ∧
    (s.launch.loadHook = none → s.launch.storeHook = none → s.launch.syscallHook = false → t.hookLog = s.hookLog)

/-- R29, R33, R36: outside the CSR instructions, no step writes mie, mtvec or mscratch, nor any bit of mstatus but
MIE and MPIE, nor any bit of mip but MEIP, and MEIP only in an interrupt step, which clears it. An interrupt step runs no
instruction, whatever the slot at the pc holds. -/
def Obligations.StatusWrittenOnlyByCsrInstructions : Prop :=
  ∀ s t : State, step s = .next t →
    (s.interruptReady = false → ∀ i, s.fetch = .run i → writesCsr i = true → i = .mret) →
    t.csr.mie = s.csr.mie ∧ t.csr.mtvec = s.csr.mtvec ∧ t.csr.mscratch = s.csr.mscratch ∧
    (∀ j, j ≠ 3 → j ≠ 7 → t.csr.mstatus.getLsbD j = s.csr.mstatus.getLsbD j) ∧
    (∀ j, j ≠ 11 → t.csr.mip.getLsbD j = s.csr.mip.getLsbD j) ∧
    (t.csr.mip.getLsbD 11 ≠ s.csr.mip.getLsbD 11 → s.interruptReady = true ∧ t.csr.mip.getLsbD 11 = false)

/-- R38, R42: what the guest does never depends on the latch or on the cycle counter: an instruction step of two
machines that differ in them alone has the same outcome, but for them. That both machines get the same answer from a hook
(log 8) and the same value from a sink read (log 7), their call histories and draw counters being equal, is the model's
choice (DESIGN CHOICE). -/
def Obligations.LatchAndCounterHidden : Prop :=
  ∀ (s : State) (cause : Word) (n : Nat), s.interruptReady = false →
    step { s with latchedCause := cause, cycles := n } =
      match step s with
      | .next t => .next { t with latchedCause := cause, cycles := n + 1 }
      | .fault f => .fault f
      | .refused r => .refused r

/-! ### The host's actions -/

/-- R361 and the table of R45: what Reset sets and what it leaves. That x2 is STACK_END modulo 2^32 where STACK_END is
2^32 or more is the model's choice (log 13, DEDUCED): the spec does not say what x2 holds then. -/
def Obligations.ResetEstablishes : Prop :=
  ∀ s : State,
    let t := hostReset s
    (t.cell 2).toNat = s.launch.stackEnd % 2 ^ 32 ∧ (∀ r, r ≠ 2 → t.cell r = 0) ∧ t.pc = s.launch.entry ∧
    (∀ n, t.csr.get n = 0) ∧ t.interruptReady = false ∧ t.mem = s.mem ∧ t.dt = s.dt ∧
    t.latchedCause = s.latchedCause ∧ t.refused = s.refused ∧ t.launch = s.launch

/-- R45: the values `State.reset` has and the spec states; the launch parameters it stands for are the model's choice
(log 1), and so are its latch and counter, of which nothing is said here (log 3, log 4). -/
def Obligations.ResetValues : Prop :=
  (State.reset.cell 2).toNat = State.reset.launch.stackEnd ∧ (∀ r, r ≠ 2 → State.reset.cell r = 0) ∧
  State.reset.pc = State.reset.launch.entry ∧ State.reset.csr = CsrFile.zero ∧ State.reset.refused = false ∧
  State.reset.mem.len = State.reset.launch.stackEnd ∧ State.reset.launch.csrUnresolved = .strict

/-- R85, R140, R360: Initialize puts the image at 0, INIT_FILL elsewhere, and the class of each word of the buffer in
its slot. That every image of another size than declared is refused is the model's choice (log 16, DESIGN CHOICE): decision
D32 speaks only of an image larger than the declared sizes and lets a model reject it. That a byte INIT_FILL does not list
is 0 is the model's choice too (log 5, DESIGN CHOICE). -/
def Obligations.InitializeBuilds : Prop :=
  ∀ (p : Launch) (image : List Byte) (fill : List Host.Cell),
    (image.length = p.programSize → ∃ s, hostInitialize p image fill = .next s ∧
      s.mem.len = p.stackEnd ∧ s.launch = p ∧ s.refused = false ∧
      (∀ a (h : a < image.length), s.mem.read a = image[a]) ∧
      (∀ a, image.length ≤ a → s.mem.read a = (lookupCell fill a).getD 0) ∧
      4 * s.dt.length = p.decodedBytes ∧
      ∀ k, k < s.dt.length → s.dt[k]? = some (decodeWord (BitVec.ofNat 32 (leValue s.mem (4 * k) 4)))) ∧
    (image.length ≠ p.programSize → hostInitialize p image fill = .refused .imageNotOfDeclaredSize)

/-- R151: Cycle(m+n) is Cycle(m) then Cycle(n); Cycle of 0 or less does nothing (decision D33); and a refusal stops
it for good (R10); no host action falls inside a sequence of steps (log 12). That the refused state keeps everything
but the mark is the model's choice (log 10, DEDUCED): R10 claims nothing more of such a run. -/
def Obligations.CycleComposes : Prop :=
  (∀ (s : State) (m n : Int), 0 ≤ m → 0 ≤ n → cycle (m + n) s = cycle n (cycle m s)) ∧
  (∀ (s : State) (n : Int), n ≤ 0 → cycle n s = s) ∧
  (∀ (s t : State) (n : Int), step s = .next t → 0 ≤ n → cycle (n + 1) s = cycle n t) ∧
  (∀ (s : State) (r : Refusal) (n : Int), step s = .refused r → 0 < n → cycle n s = { s with refused := true })

/-- An exception is reported exactly when it is taken. What is reported of a step is the model's choice (log 18, DESIGN
CHOICE: the observer as a function of the state, of which R334 gives only the content). Reported exceptions are taken;
an instruction that is no CSR instruction or MRET takes an exception if the step changes mcause, whatever mcause held
(so the case that it already held the code is not left out), and then that exception is reported; one of the fetch is
reported; and so is that of an unresolved CSR address in Strict mode. -/
def Obligations.ReportedExceptionIsTaken : Prop :=
  (∀ (s t : State) (c : Cause), step s = .next t → Report.exception c ∈ observe s →
    t.csr.mcause = c.code ∧ t.csr.mepc = s.pc ∧ t.csr.mtval = 0 ∧ t.pc = vectorBase s.csr.mtvec) ∧
  (∀ (s t : State) (m : Word), s.interruptReady = false → (∀ i, s.fetch = .run i → writesCsr i = false) →
    step { s with csr := { s.csr with mcause := m } } = .next t → t.csr.mcause ≠ m →
    ∃ c, t.csr.mcause = c.code ∧ Report.exception c ∈ observe s) ∧
  (∀ s : State, s.refused = false → s.interruptReady = false →
    (∀ c, s.fetch = .trap c → Report.exception c ∈ observe s) ∧
    (∀ rd src csr, csrResolve csr = none → s.launch.csrUnresolved = .strict →
      ∀ i ∈ [Instr.csrrw rd src csr, .csrrs rd src csr, .csrrc rd src csr, .csrrwi rd src csr, .csrrsi rd src csr,
          .csrrci rd src csr],
        s.fetch = .run i → Report.exception .illegalInst ∈ observe s))

/-! ### Assembler -/

/-- R135 (the spec's decision D34): the two-instruction expansions reach every 32-bit value. `li` loads it, `la` adds
it to the pc, `call` and `tail` jump by it, bit 0 of the target cleared; what they expand to is well-formed, and they
change nothing else. With rd = x0 `li` and `la` leave what later instructions see as it was. That `la`, `call` and `tail`
take the offset from their own AUIPC's address is the model's choice (log 24); no host action or interrupt falls between
the two instructions (log 12). -/
def Obligations.PseudoInstructionsReachEveryValue : Prop :=
  (∀ (rd : RegIdx) (v : Word), ∀ i ∈ (Pseudo.li rd v).expand ++ (Pseudo.la rd v).expand ++ (Pseudo.call v).expand ++
    (Pseudo.tail v).expand, i.wellFormed = true) ∧
  (∀ (s : State) (rd : RegIdx) (v : Word), rd ≠ 0 →
    (∃ t, execAll (Pseudo.li rd v).expand s = .next t ∧ RegWritten rd v [] s t ∧
      t.pc = s.pc + (if fitsI v then 4 else 8)) ∧
    (∃ t, execAll (Pseudo.la rd v).expand s = .next t ∧ RegWritten rd (s.pc + v) [] s t ∧ t.pc = s.pc + 8)) ∧
  (∀ (s : State) (v : Word),
    (∃ t, execAll (Pseudo.li 0 v).expand s = .next t ∧ NothingWritten [] s.clearX0 t.clearX0 ∧
      t.pc = s.pc + (if fitsI v then 4 else 8)) ∧
    (∃ t, execAll (Pseudo.la 0 v).expand s = .next t ∧ NothingWritten [] s.clearX0 t.clearX0 ∧ t.pc = s.pc + 8)) ∧
  (∀ (s : State) (v : Word),
    (∃ t, execAll (Pseudo.call v).expand s = .next t ∧ RegWritten 1 (s.pc + 8) [] s t ∧
      ∀ j, t.pc.getLsbD j = (decide (1 ≤ j) && (s.pc + v).getLsbD j)) ∧
    (∃ t, execAll (Pseudo.tail v).expand s = .next t ∧
      RegWritten 6 (s.pc + v - loPart v) [] s.clearX0 t.clearX0 ∧
      ∀ j, t.pc.getLsbD j = (decide (1 ≤ j) && (s.pc + v).getLsbD j)))

end
end

