-- ==== Sys2Proof/Laws/Memory.lean ====
section
/-! SUPPORT. The laws of the memory buffer: read after write, and that every operation keeps the canonical
form. -/

namespace Sys2Proof.Machine

/-! ### Lists of cells -/

theorem rising_iff (l : List Host.Cell) : rising l = true ↔ l.Pairwise (fun c d => c.1 < d.1) := by
  induction l with
  | nil => simp [rising]
  | cons c l ih =>
    cases l with
    | nil => simp [rising]
    | cons d l =>
      have h : rising (c :: d :: l) = (decide (c.1 < d.1) && rising (d :: l)) := rfl
      rw [h, Bool.and_eq_true, ih, decide_eq_true_iff]
      constructor
      · rintro ⟨hcd, hp⟩
        refine List.Pairwise.cons (fun e he => ?_) hp
        rcases List.mem_cons.mp he with rfl | he
        · exact hcd
        · exact Nat.lt_trans hcd (List.rel_of_pairwise_cons hp he)
      · intro hp
        exact ⟨List.rel_of_pairwise_cons hp (List.mem_cons_self ..), hp.of_cons⟩

theorem mem_insertCell {c : Host.Cell} {a : Nat} {b : Byte} {l : List Host.Cell} (h : c ∈ insertCell a b l) :
    c = (a, b) ∨ c ∈ l := by
  induction l with
  | nil => simpa [insertCell] using h
  | cons d l ih =>
    obtain ⟨k, v⟩ := d
    simp only [insertCell] at h
    split at h
    · simpa using h
    · split at h
      · rcases List.mem_cons.mp h with h | h
        · exact .inl h
        · exact .inr (List.mem_cons_of_mem _ h)
      · rcases List.mem_cons.mp h with h | h
        · exact .inr (h ▸ List.mem_cons_self ..)
        · exact (ih h).imp_right (List.mem_cons_of_mem _)

theorem mem_eraseCell {c : Host.Cell} {a : Nat} {l : List Host.Cell} (h : c ∈ eraseCell a l) : c ∈ l := by
  induction l with
  | nil => simp [eraseCell] at h
  | cons d l ih =>
    obtain ⟨k, v⟩ := d
    simp only [eraseCell] at h
    split at h
    · exact List.mem_cons_of_mem _ (ih h)
    · rcases List.mem_cons.mp h with h | h
      · exact h ▸ List.mem_cons_self ..
      · exact List.mem_cons_of_mem _ (ih h)

theorem rising_insertCell {a : Nat} {b : Byte} {l : List Host.Cell} (h : rising l = true) :
    rising (insertCell a b l) = true := by
  rw [rising_iff] at h ⊢
  induction l with
  | nil => simp [insertCell]
  | cons d l ih =>
    obtain ⟨k, v⟩ := d
    have hk : ∀ e ∈ l, k < e.1 := fun e he => List.rel_of_pairwise_cons h he
    simp only [insertCell]
    split
    · next hak =>
      refine List.Pairwise.cons (fun e he => ?_) h
      rcases List.mem_cons.mp he with rfl | he
      · exact hak
      · exact Nat.lt_trans hak (hk e he)
    · split
      · next hak => exact List.Pairwise.cons (fun e he => hak ▸ hk e he) h.of_cons
      · next hlt hne =>
        refine List.Pairwise.cons (fun e he => ?_) (ih h.of_cons)
        rcases mem_insertCell he with rfl | he
        · show k < a
          omega
        · exact hk e he

theorem rising_eraseCell {a : Nat} {l : List Host.Cell} (h : rising l = true) : rising (eraseCell a l) = true := by
  rw [rising_iff] at h ⊢
  induction l with
  | nil => simp [eraseCell]
  | cons d l ih =>
    obtain ⟨k, v⟩ := d
    simp only [eraseCell]
    split
    · exact ih h.of_cons
    · exact List.Pairwise.cons (fun e he => List.rel_of_pairwise_cons h (mem_eraseCell he)) (ih h.of_cons)

@[simp] theorem lookupCell_insertCell_self (a : Nat) (b : Byte) (l : List Host.Cell) :
    lookupCell (insertCell a b l) a = some b := by
  induction l with
  | nil => simp [insertCell, lookupCell]
  | cons d l ih =>
    obtain ⟨k, v⟩ := d
    simp only [insertCell]
    split
    · simp [lookupCell]
    · split
      · simp [lookupCell]
      · next hlt hne =>
        have : k ≠ a := fun e => hne e.symm
        simp [lookupCell, this, ih]

theorem lookupCell_insertCell_ne {a a' : Nat} (h : a' ≠ a) (b : Byte) (l : List Host.Cell) :
    lookupCell (insertCell a b l) a' = lookupCell l a' := by
  induction l with
  | nil => simp [insertCell, lookupCell, Ne.symm h]
  | cons d l ih =>
    obtain ⟨k, v⟩ := d
    simp only [insertCell]
    split
    · simp [lookupCell, Ne.symm h]
    · split
      · next hak => subst hak; simp [lookupCell, Ne.symm h]
      · simp [lookupCell, ih]

@[simp] theorem lookupCell_eraseCell_self (a : Nat) (l : List Host.Cell) : lookupCell (eraseCell a l) a = none := by
  induction l with
  | nil => rfl
  | cons d l ih =>
    obtain ⟨k, v⟩ := d
    simp only [eraseCell]
    split
    · exact ih
    · next h => simp [lookupCell, h, ih]

theorem lookupCell_eraseCell_ne {a a' : Nat} (h : a' ≠ a) (l : List Host.Cell) :
    lookupCell (eraseCell a l) a' = lookupCell l a' := by
  induction l with
  | nil => rfl
  | cons d l ih =>
    obtain ⟨k, v⟩ := d
    simp only [eraseCell]
    split
    · next hk => subst hk; simp [lookupCell, Ne.symm h, ih]
    · simp [lookupCell, ih]

theorem lookupCell_filter_lt {a n : Nat} (h : a < n) (l : List Host.Cell) :
    lookupCell (l.filter (fun c => decide (c.1 < n))) a = lookupCell l a := by
  induction l with
  | nil => rfl
  | cons d l ih =>
    obtain ⟨k, v⟩ := d
    by_cases hk : k < n
    · simp [hk, lookupCell, ih]
    · have : k ≠ a := by omega
      simp [hk, lookupCell, this, ih]

theorem lookupCell_filter_ge {a n : Nat} (h : n ≤ a) (l : List Host.Cell) :
    lookupCell (l.filter (fun c => decide (c.1 < n))) a = none := by
  induction l with
  | nil => rfl
  | cons d l ih =>
    obtain ⟨k, v⟩ := d
    by_cases hk : k < n
    · have : k ≠ a := by omega
      simp [hk, lookupCell, this, ih]
    · simp [hk, ih]

/-! ### One byte -/

@[simp] theorem Memory.write_fill (m : Memory) (a : Nat) (b : Byte) : (m.write a b).fill = m.fill := rfl
@[simp] theorem Memory.write_len (m : Memory) (a : Nat) (b : Byte) : (m.write a b).len = m.len := rfl
@[simp] theorem Memory.write_background (m : Memory) (a : Nat) (b : Byte) (x : Nat) :
    (m.write a b).background x = m.background x := rfl

@[simp] theorem Memory.read_write_self (m : Memory) (a : Nat) (b : Byte) : (m.write a b).read a = b := by
  simp only [Memory.read, Memory.write_background]
  simp only [Memory.write]
  split
  · next h => simp [h]
  · simp

theorem Memory.read_write_ne (m : Memory) {a x : Nat} (h : x ≠ a) (b : Byte) :
    (m.write a b).read x = m.read x := by
  simp only [Memory.read, Memory.write_background]
  simp only [Memory.write]
  split
  · rw [lookupCell_eraseCell_ne h]
  · rw [lookupCell_insertCell_ne h]

theorem Memory.wf_iff (m : Memory) : m.wf = true ↔
    rising m.fill = true ∧ (∀ c ∈ m.fill, c.2 ≠ 0) ∧ rising m.cells = true ∧
      ∀ c ∈ m.cells, c.2 ≠ m.background c.1 ∧ c.1 < m.len := by
  simp [Memory.wf, List.all_eq_true, and_assoc]

/-- Writing a byte inside the buffer keeps the canonical form. -/
theorem Memory.wf_write {m : Memory} (hm : m.wf = true) {a : Nat} (ha : a < m.len) (b : Byte) :
    (m.write a b).wf = true := by
  rw [Memory.wf_iff] at hm ⊢
  obtain ⟨hf, hf0, hr, hc⟩ := hm
  refine ⟨hf, hf0, ?_, ?_⟩
  · simp only [Memory.write]
    split
    · exact rising_eraseCell hr
    · exact rising_insertCell hr
  · intro c hmem
    simp only [Memory.write_background, Memory.write_len]
    simp only [Memory.write] at hmem
    split at hmem
    · exact hc c (mem_eraseCell hmem)
    · next hb =>
      rcases mem_insertCell hmem with rfl | h
      · exact ⟨hb, ha⟩
      · exact hc c h

/-! ### Several bytes -/

@[simp] theorem Memory.writeBytes_fill (m : Memory) (a : Nat) (bs : List Byte) :
    (m.writeBytes a bs).fill = m.fill := by
  induction bs generalizing m a with
  | nil => rfl
  | cons b bs ih => simp [Memory.writeBytes, ih]

@[simp] theorem Memory.writeBytes_len (m : Memory) (a : Nat) (bs : List Byte) :
    (m.writeBytes a bs).len = m.len := by
  induction bs generalizing m a with
  | nil => rfl
  | cons b bs ih => simp [Memory.writeBytes, ih]

/-- Outside the written bytes every byte reads as before. -/
theorem Memory.read_writeBytes_outside (m : Memory) {a x : Nat} {bs : List Byte} (h : x < a ∨ a + bs.length ≤ x) :
    (m.writeBytes a bs).read x = m.read x := by
  induction bs generalizing m a with
  | nil => rfl
  | cons b bs ih =>
    simp only [List.length_cons] at h
    simp only [Memory.writeBytes]
    rw [ih _ (by omega), Memory.read_write_ne _ (by omega)]

/-- Inside the written bytes the `k`-th byte is the `k`-th written. -/
theorem Memory.read_writeBytes_inside (m : Memory) (a k : Nat) (bs : List Byte) (h : k < bs.length) :
    (m.writeBytes a bs).read (a + k) = bs[k] := by
  induction bs generalizing m a k with
  | nil => simp at h
  | cons b bs ih =>
    simp only [Memory.writeBytes]
    cases k with
    | zero =>
      rw [Memory.read_writeBytes_outside _ (by omega)]
      simp
    | succ k =>
      have := ih (m.write a b) (a + 1) k (by simpa using h)
      rw [show a + (k + 1) = a + 1 + k by omega, this]
      rfl

theorem Memory.wf_writeBytes {m : Memory} (hm : m.wf = true) {a : Nat} {bs : List Byte} (h : a + bs.length ≤ m.len) :
    (m.writeBytes a bs).wf = true := by
  induction bs generalizing m a with
  | nil => exact hm
  | cons b bs ih =>
    simp only [List.length_cons] at h
    simp only [Memory.writeBytes]
    exact ih (Memory.wf_write hm (by omega) b) (by simp only [Memory.write_len]; omega)

@[simp] theorem storedBytes_length (w : Width) (v : Word) : (storedBytes w v).length = accessBytes w := by
  cases w <;> rfl

@[simp] theorem Memory.store_len (m : Memory) (a : Nat) (w : Width) (v : Word) : (m.store a w v).len = m.len := by
  simp [Memory.store]

@[simp] theorem Memory.store_fill (m : Memory) (a : Nat) (w : Width) (v : Word) : (m.store a w v).fill = m.fill := by
  simp [Memory.store]

/-- A store leaves every byte outside its own unchanged. -/
theorem Memory.read_store_outside (m : Memory) {a x : Nat} {w : Width} (v : Word)
    (h : x < a ∨ a + accessBytes w ≤ x) : (m.store a w v).read x = m.read x :=
  Memory.read_writeBytes_outside m (by simpa using h)

/-- A store's `k`-th byte is bits `8k+7..8k` of the register (R73). -/
theorem Memory.read_store_inside (m : Memory) (a : Nat) (w : Width) (v : Word) {k : Nat} (h : k < accessBytes w) :
    (m.store a w v).read (a + k) = v.extractLsb' (8 * k) 8 := by
  rw [Memory.store, Memory.read_writeBytes_inside m a k _ (by simpa using h)]
  cases w <;> simp only [accessBytes] at h <;> simp only [storedBytes]
  · have : k = 0 := by omega
    subst this; rfl
  · obtain rfl | rfl : k = 0 ∨ k = 1 := by omega
    all_goals rfl
  · obtain rfl | rfl | rfl | rfl : k = 0 ∨ k = 1 ∨ k = 2 ∨ k = 3 := by omega
    all_goals rfl

/-- A store inside the buffer keeps the canonical form. -/
theorem Memory.wf_store {m : Memory} (hm : m.wf = true) {a : Nat} {w : Width} (v : Word)
    (h : a + accessBytes w ≤ m.len) : (m.store a w v).wf = true :=
  Memory.wf_writeBytes hm (by simpa using h)

/-! ### Resize and the initial buffer -/

@[simp] theorem Memory.resize_len (m : Memory) (n : Nat) : (m.resize n).len = n := rfl
@[simp] theorem Memory.resize_fill (m : Memory) (n : Nat) : (m.resize n).fill = m.fill := rfl
@[simp] theorem Memory.resize_background (m : Memory) (n x : Nat) : (m.resize n).background x = m.background x := rfl

/-- Bytes below both lengths keep their values (R86). -/
theorem Memory.read_resize_kept (m : Memory) {n x : Nat} (h : x < min m.len n) : (m.resize n).read x = m.read x := by
  have : lookupCell (m.resize n).cells x = lookupCell m.cells x := lookupCell_filter_lt h m.cells
  simp [Memory.read, this]

/-- The other bytes are INIT_FILL (R86, D25). -/
theorem Memory.read_resize_new (m : Memory) {n x : Nat} (h : min m.len n ≤ x) :
    (m.resize n).read x = m.background x := by
  have : lookupCell (m.resize n).cells x = none := lookupCell_filter_ge h m.cells
  simp [Memory.read, this]

theorem Memory.wf_resize {m : Memory} (hm : m.wf = true) (n : Nat) : (m.resize n).wf = true := by
  rw [Memory.wf_iff] at hm ⊢
  obtain ⟨hf, hf0, hr, hc⟩ := hm
  refine ⟨hf, hf0, ?_, ?_⟩
  · rw [rising_iff] at hr ⊢
    exact hr.filter _
  · intro c hmem
    obtain ⟨hin, hlt⟩ := List.mem_filter.mp hmem
    have hlt : c.1 < min m.len n := of_decide_eq_true hlt
    exact ⟨(hc c hin).1, lt_of_lt_of_le hlt (min_le_right _ _)⟩

theorem Memory.wf_initial {fill : List Host.Cell} (hf : rising fill = true) (hf0 : ∀ c ∈ fill, c.2 ≠ 0)
    {image : List Byte} {len : Nat} (h : image.length ≤ len) : (Memory.initial fill image len).wf = true := by
  rw [Memory.wf_iff]
  refine ⟨hf, hf0, ?_, ?_⟩
  · rw [rising_iff]
    refine List.Pairwise.filter _ ?_
    rw [List.pairwise_map]
    rw [List.pairwise_iff_getElem]
    intro i j hi hj hij
    simpa using hij
  · intro c hc
    obtain ⟨hin, hne⟩ := List.mem_filter.mp hc
    obtain ⟨e, he, rfl⟩ := List.mem_map.mp hin
    have he := List.mem_zipIdx he
    refine ⟨of_decide_eq_true hne, ?_⟩
    show e.2 < len
    omega

theorem lookupCell_image (fill : List Host.Cell) (image : List Byte) (k a : Nat) :
    lookupCell (((image.zipIdx k).map (fun e => (e.2, e.1))).filter
      (fun c => decide (c.2 ≠ (lookupCell fill c.1).getD 0))) a =
      if h : k ≤ a ∧ a - k < image.length then
        if image[a - k] = (lookupCell fill a).getD 0 then none else some image[a - k]
      else none := by
  induction image generalizing k with
  | nil => simp [lookupCell]
  | cons b bs ih =>
    simp only [List.zipIdx_cons, List.map_cons, List.filter_cons]
    by_cases hka : k = a
    · subst hka
      have hrest := ih (k + 1)
      rw [dif_neg (by omega)] at hrest
      by_cases hb : b = (lookupCell fill k).getD 0
      · rw [if_neg (by simpa using hb), hrest, dif_pos (by simp)]
        simp only [Nat.sub_self, List.getElem_cons_zero]
        rw [if_pos hb]
      · rw [if_pos (by simpa using hb), dif_pos (by simp)]
        simp only [Nat.sub_self, List.getElem_cons_zero]
        rw [if_neg hb]
        simp [lookupCell]
    · have hstep : ∀ l : List Host.Cell, lookupCell ((k, b) :: l) a = lookupCell l a := by
        intro l; simp [lookupCell, hka]
      refine Eq.trans (b := lookupCell (((bs.zipIdx (k + 1)).map (fun e => (e.2, e.1))).filter
        (fun c => decide (c.2 ≠ (lookupCell fill c.1).getD 0))) a) ?_ ?_
      · split
        · exact hstep _
        · rfl
      rw [ih (k + 1)]
      by_cases hr : k ≤ a ∧ a - k < (b :: bs).length
      · have hr' : k + 1 ≤ a ∧ a - (k + 1) < bs.length := by
          simp only [List.length_cons] at hr; omega
        rw [dif_pos hr, dif_pos hr']
        have hidx : (b :: bs)[a - k]'hr.2 = bs[a - (k + 1)]'hr'.2 := by
          have : a - k = (a - (k + 1)) + 1 := by omega
          simp [this]
        rw [hidx]
      · have hr' : ¬(k + 1 ≤ a ∧ a - (k + 1) < bs.length) := by
          simp only [List.length_cons] at hr; omega
        rw [dif_neg hr, dif_neg hr']

/-- The initial buffer holds the image at `[0, P)` (R85). -/
theorem Memory.read_initial_image (fill : List Host.Cell) (image : List Byte) (len : Nat) {a : Nat}
    (h : a < image.length) : (Memory.initial fill image len).read a = image[a] := by
  have := lookupCell_image fill image 0 a
  simp only [Nat.sub_zero, Nat.zero_le, true_and, h, dif_pos] at this
  simp only [Memory.read, Memory.initial, Memory.background]
  rw [this]
  split
  · next e => simp [e]
  · rfl

/-- The initial buffer holds INIT_FILL elsewhere (R85). -/
theorem Memory.read_initial_fill (fill : List Host.Cell) (image : List Byte) (len : Nat) {a : Nat}
    (h : image.length ≤ a) : (Memory.initial fill image len).read a = (lookupCell fill a).getD 0 := by
  have := lookupCell_image fill image 0 a
  rw [dif_neg (by omega)] at this
  simp only [Memory.read, Memory.initial, Memory.background]
  rw [this]
  rfl

end Sys2Proof.Machine
end

