-- ==== Sys2Proof/Laws/State.lean ====
section
/-! SUPPORT. One lemma per field per update, so that no later proof unfolds a record update. -/

namespace Sys2Proof.Machine

/-! ### writeReg -/

@[simp] theorem State.writeReg_pc (s : State) (r : RegIdx) (v : Word) : (s.writeReg r v).pc = s.pc := rfl
@[simp] theorem State.writeReg_csr (s : State) (r : RegIdx) (v : Word) : (s.writeReg r v).csr = s.csr := rfl
@[simp] theorem State.writeReg_latchedCause (s : State) (r : RegIdx) (v : Word) : (s.writeReg r v).latchedCause = s.latchedCause := rfl
@[simp] theorem State.writeReg_mem (s : State) (r : RegIdx) (v : Word) : (s.writeReg r v).mem = s.mem := rfl
@[simp] theorem State.writeReg_cycles (s : State) (r : RegIdx) (v : Word) : (s.writeReg r v).cycles = s.cycles := rfl
@[simp] theorem State.writeReg_refused (s : State) (r : RegIdx) (v : Word) : (s.writeReg r v).refused = s.refused := rfl
@[simp] theorem State.writeReg_dt (s : State) (r : RegIdx) (v : Word) : (s.writeReg r v).dt = s.dt := rfl
@[simp] theorem State.writeReg_launch (s : State) (r : RegIdx) (v : Word) : (s.writeReg r v).launch = s.launch := rfl
@[simp] theorem State.writeReg_hookLog (s : State) (r : RegIdx) (v : Word) : (s.writeReg r v).hookLog = s.hookLog := rfl
@[simp] theorem State.writeReg_draws (s : State) (r : RegIdx) (v : Word) : (s.writeReg r v).draws = s.draws := rfl

/-! ### advance -/

@[simp] theorem State.advance_regs (s : State) : (s.advance).regs = s.regs := rfl
@[simp] theorem State.advance_csr (s : State) : (s.advance).csr = s.csr := rfl
@[simp] theorem State.advance_latchedCause (s : State) : (s.advance).latchedCause = s.latchedCause := rfl
@[simp] theorem State.advance_mem (s : State) : (s.advance).mem = s.mem := rfl
@[simp] theorem State.advance_cycles (s : State) : (s.advance).cycles = s.cycles := rfl
@[simp] theorem State.advance_refused (s : State) : (s.advance).refused = s.refused := rfl
@[simp] theorem State.advance_dt (s : State) : (s.advance).dt = s.dt := rfl
@[simp] theorem State.advance_launch (s : State) : (s.advance).launch = s.launch := rfl
@[simp] theorem State.advance_hookLog (s : State) : (s.advance).hookLog = s.hookLog := rfl
@[simp] theorem State.advance_draws (s : State) : (s.advance).draws = s.draws := rfl

/-! ### jumpTo -/

@[simp] theorem State.jumpTo_regs (s : State) (target : Word) : (s.jumpTo target).regs = s.regs := rfl
@[simp] theorem State.jumpTo_csr (s : State) (target : Word) : (s.jumpTo target).csr = s.csr := rfl
@[simp] theorem State.jumpTo_latchedCause (s : State) (target : Word) : (s.jumpTo target).latchedCause = s.latchedCause := rfl
@[simp] theorem State.jumpTo_mem (s : State) (target : Word) : (s.jumpTo target).mem = s.mem := rfl
@[simp] theorem State.jumpTo_cycles (s : State) (target : Word) : (s.jumpTo target).cycles = s.cycles := rfl
@[simp] theorem State.jumpTo_refused (s : State) (target : Word) : (s.jumpTo target).refused = s.refused := rfl
@[simp] theorem State.jumpTo_dt (s : State) (target : Word) : (s.jumpTo target).dt = s.dt := rfl
@[simp] theorem State.jumpTo_launch (s : State) (target : Word) : (s.jumpTo target).launch = s.launch := rfl
@[simp] theorem State.jumpTo_hookLog (s : State) (target : Word) : (s.jumpTo target).hookLog = s.hookLog := rfl
@[simp] theorem State.jumpTo_draws (s : State) (target : Word) : (s.jumpTo target).draws = s.draws := rfl

/-! ### clearX0 -/

@[simp] theorem State.clearX0_pc (s : State) : (s.clearX0).pc = s.pc := rfl
@[simp] theorem State.clearX0_csr (s : State) : (s.clearX0).csr = s.csr := rfl
@[simp] theorem State.clearX0_latchedCause (s : State) : (s.clearX0).latchedCause = s.latchedCause := rfl
@[simp] theorem State.clearX0_mem (s : State) : (s.clearX0).mem = s.mem := rfl
@[simp] theorem State.clearX0_cycles (s : State) : (s.clearX0).cycles = s.cycles := rfl
@[simp] theorem State.clearX0_refused (s : State) : (s.clearX0).refused = s.refused := rfl
@[simp] theorem State.clearX0_dt (s : State) : (s.clearX0).dt = s.dt := rfl
@[simp] theorem State.clearX0_launch (s : State) : (s.clearX0).launch = s.launch := rfl
@[simp] theorem State.clearX0_hookLog (s : State) : (s.clearX0).hookLog = s.hookLog := rfl
@[simp] theorem State.clearX0_draws (s : State) : (s.clearX0).draws = s.draws := rfl

/-! ### countCycle -/

@[simp] theorem State.countCycle_regs (s : State) : (s.countCycle).regs = s.regs := rfl
@[simp] theorem State.countCycle_pc (s : State) : (s.countCycle).pc = s.pc := rfl
@[simp] theorem State.countCycle_csr (s : State) : (s.countCycle).csr = s.csr := rfl
@[simp] theorem State.countCycle_latchedCause (s : State) : (s.countCycle).latchedCause = s.latchedCause := rfl
@[simp] theorem State.countCycle_mem (s : State) : (s.countCycle).mem = s.mem := rfl
@[simp] theorem State.countCycle_refused (s : State) : (s.countCycle).refused = s.refused := rfl
@[simp] theorem State.countCycle_dt (s : State) : (s.countCycle).dt = s.dt := rfl
@[simp] theorem State.countCycle_launch (s : State) : (s.countCycle).launch = s.launch := rfl
@[simp] theorem State.countCycle_hookLog (s : State) : (s.countCycle).hookLog = s.hookLog := rfl
@[simp] theorem State.countCycle_draws (s : State) : (s.countCycle).draws = s.draws := rfl

/-! ### recordCall -/

@[simp] theorem State.recordCall_regs (s : State) (c : HookCall) : (s.recordCall c).regs = s.regs := rfl
@[simp] theorem State.recordCall_pc (s : State) (c : HookCall) : (s.recordCall c).pc = s.pc := rfl
@[simp] theorem State.recordCall_csr (s : State) (c : HookCall) : (s.recordCall c).csr = s.csr := rfl
@[simp] theorem State.recordCall_latchedCause (s : State) (c : HookCall) : (s.recordCall c).latchedCause = s.latchedCause := rfl
@[simp] theorem State.recordCall_mem (s : State) (c : HookCall) : (s.recordCall c).mem = s.mem := rfl
@[simp] theorem State.recordCall_cycles (s : State) (c : HookCall) : (s.recordCall c).cycles = s.cycles := rfl
@[simp] theorem State.recordCall_refused (s : State) (c : HookCall) : (s.recordCall c).refused = s.refused := rfl
@[simp] theorem State.recordCall_dt (s : State) (c : HookCall) : (s.recordCall c).dt = s.dt := rfl
@[simp] theorem State.recordCall_launch (s : State) (c : HookCall) : (s.recordCall c).launch = s.launch := rfl
@[simp] theorem State.recordCall_draws (s : State) (c : HookCall) : (s.recordCall c).draws = s.draws := rfl

/-! ### takeException -/

@[simp] theorem State.takeException_regs (s : State) (c : Cause) : (s.takeException c).regs = s.regs := rfl
@[simp] theorem State.takeException_latchedCause (s : State) (c : Cause) : (s.takeException c).latchedCause = s.latchedCause := rfl
@[simp] theorem State.takeException_mem (s : State) (c : Cause) : (s.takeException c).mem = s.mem := rfl
@[simp] theorem State.takeException_cycles (s : State) (c : Cause) : (s.takeException c).cycles = s.cycles := rfl
@[simp] theorem State.takeException_refused (s : State) (c : Cause) : (s.takeException c).refused = s.refused := rfl
@[simp] theorem State.takeException_dt (s : State) (c : Cause) : (s.takeException c).dt = s.dt := rfl
@[simp] theorem State.takeException_launch (s : State) (c : Cause) : (s.takeException c).launch = s.launch := rfl
@[simp] theorem State.takeException_hookLog (s : State) (c : Cause) : (s.takeException c).hookLog = s.hookLog := rfl
@[simp] theorem State.takeException_draws (s : State) (c : Cause) : (s.takeException c).draws = s.draws := rfl

/-! ### takeInterrupt -/

@[simp] theorem State.takeInterrupt_regs (s : State) : (s.takeInterrupt).regs = s.regs := rfl
@[simp] theorem State.takeInterrupt_latchedCause (s : State) : (s.takeInterrupt).latchedCause = s.latchedCause := rfl
@[simp] theorem State.takeInterrupt_mem (s : State) : (s.takeInterrupt).mem = s.mem := rfl
@[simp] theorem State.takeInterrupt_cycles (s : State) : (s.takeInterrupt).cycles = s.cycles := rfl
@[simp] theorem State.takeInterrupt_refused (s : State) : (s.takeInterrupt).refused = s.refused := rfl
@[simp] theorem State.takeInterrupt_dt (s : State) : (s.takeInterrupt).dt = s.dt := rfl
@[simp] theorem State.takeInterrupt_launch (s : State) : (s.takeInterrupt).launch = s.launch := rfl
@[simp] theorem State.takeInterrupt_hookLog (s : State) : (s.takeInterrupt).hookLog = s.hookLog := rfl
@[simp] theorem State.takeInterrupt_draws (s : State) : (s.takeInterrupt).draws = s.draws := rfl

/-! ### answerCall -/

@[simp] theorem State.answerCall_csr (s : State) (v : Word) : (s.answerCall v).csr = s.csr := rfl
@[simp] theorem State.answerCall_latchedCause (s : State) (v : Word) : (s.answerCall v).latchedCause = s.latchedCause := rfl
@[simp] theorem State.answerCall_mem (s : State) (v : Word) : (s.answerCall v).mem = s.mem := rfl
@[simp] theorem State.answerCall_cycles (s : State) (v : Word) : (s.answerCall v).cycles = s.cycles := rfl
@[simp] theorem State.answerCall_refused (s : State) (v : Word) : (s.answerCall v).refused = s.refused := rfl
@[simp] theorem State.answerCall_dt (s : State) (v : Word) : (s.answerCall v).dt = s.dt := rfl
@[simp] theorem State.answerCall_launch (s : State) (v : Word) : (s.answerCall v).launch = s.launch := rfl
@[simp] theorem State.answerCall_hookLog (s : State) (v : Word) : (s.answerCall v).hookLog = s.hookLog := rfl
@[simp] theorem State.answerCall_draws (s : State) (v : Word) : (s.answerCall v).draws = s.draws := rfl

/-! ### The fields an update writes -/

@[simp] theorem State.advance_pc (s : State) : s.advance.pc = s.pc + 4 := rfl
@[simp] theorem State.jumpTo_pc (s : State) (target : Word) : (s.jumpTo target).pc = target := rfl
@[simp] theorem State.countCycle_cycles (s : State) : s.countCycle.cycles = s.cycles + 1 := rfl
@[simp] theorem State.recordCall_hookLog (s : State) (c : HookCall) : (s.recordCall c).hookLog = c :: s.hookLog := rfl
@[simp] theorem State.answerCall_pc (s : State) (v : Word) : (s.answerCall v).pc = s.pc + 4 := rfl
@[simp] theorem State.takeException_pc (s : State) (c : Cause) : (s.takeException c).pc = vectorBase s.csr.mtvec := rfl
@[simp] theorem State.takeInterrupt_pc (s : State) :
    s.takeInterrupt.pc = vectorTarget s.csr.mtvec s.latchedCause := rfl

/-! ### Registers -/

/-- The cell written holds the value written. -/
@[simp] theorem State.cell_writeReg_self (s : State) (r : RegIdx) (v : Word) : (s.writeReg r v).cell r = v := by
  simp [State.cell, State.writeReg]

/-- Every other cell is unchanged. -/
theorem State.cell_writeReg_ne (s : State) {r q : RegIdx} (h : q ≠ r) (v : Word) :
    (s.writeReg r v).cell q = s.cell q := by
  have : r.toNat ≠ q.toNat := fun e => h (BitVec.eq_of_toNat_eq e.symm)
  simp [State.cell, State.writeReg, Vector.getElem_set_ne _ _ this]

/-- The answer of a call is in a0, and no other register changes. -/
@[simp] theorem State.cell_answerCall_self (s : State) (v : Word) : (s.answerCall v).cell a0 = v :=
  State.cell_writeReg_self s a0 v

theorem State.cell_answerCall_ne (s : State) {r : RegIdx} (h : r ≠ a0) (v : Word) :
    (s.answerCall v).cell r = s.cell r :=
  State.cell_writeReg_ne s h v

@[simp] theorem State.readReg_zero (s : State) : s.readReg 0 = 0 := rfl

/-- The same in the form simp gives literals. -/
@[simp] theorem State.readReg_zero_lit (s : State) : s.readReg 0#5 = 0#32 := rfl

/-- Registers but x0 read as their cells. -/
theorem State.readReg_eq_cell (s : State) {r : RegIdx} (h : r ≠ 0) : s.readReg r = s.cell r := by
  unfold State.readReg State.cell
  rw [if_neg h]

theorem State.cell_congr {s t : State} (h : t.regs = s.regs) (r : RegIdx) : t.cell r = s.cell r := by
  simp [State.cell, h]

theorem State.readReg_congr {s t : State} (h : t.regs = s.regs) (r : RegIdx) : t.readReg r = s.readReg r := by
  simp [State.readReg, h]

@[simp] theorem State.cell_advance (s : State) (r : RegIdx) : (s.advance).cell r = s.cell r := rfl
@[simp] theorem State.readReg_advance (s : State) (r : RegIdx) : (s.advance).readReg r = s.readReg r := rfl
@[simp] theorem State.cell_jumpTo (s : State) (target : Word) (r : RegIdx) : (s.jumpTo target).cell r = s.cell r := rfl
@[simp] theorem State.readReg_jumpTo (s : State) (target : Word) (r : RegIdx) : (s.jumpTo target).readReg r = s.readReg r := rfl
@[simp] theorem State.cell_countCycle (s : State) (r : RegIdx) : (s.countCycle).cell r = s.cell r := rfl
@[simp] theorem State.readReg_countCycle (s : State) (r : RegIdx) : (s.countCycle).readReg r = s.readReg r := rfl
@[simp] theorem State.cell_recordCall (s : State) (c : HookCall) (r : RegIdx) : (s.recordCall c).cell r = s.cell r := rfl
@[simp] theorem State.readReg_recordCall (s : State) (c : HookCall) (r : RegIdx) : (s.recordCall c).readReg r = s.readReg r := rfl
@[simp] theorem State.cell_takeException (s : State) (c : Cause) (r : RegIdx) : (s.takeException c).cell r = s.cell r := rfl
@[simp] theorem State.readReg_takeException (s : State) (c : Cause) (r : RegIdx) : (s.takeException c).readReg r = s.readReg r := rfl
@[simp] theorem State.cell_takeInterrupt (s : State) (r : RegIdx) : (s.takeInterrupt).cell r = s.cell r := rfl
@[simp] theorem State.readReg_takeInterrupt (s : State) (r : RegIdx) : (s.takeInterrupt).readReg r = s.readReg r := rfl

/-- Clearing x0 changes no register an instruction reads. -/
@[simp] theorem State.readReg_clearX0 (s : State) (r : RegIdx) : s.clearX0.readReg r = s.readReg r := by
  by_cases h : r = 0
  · subst h; rfl
  · rw [State.readReg_eq_cell _ h, State.readReg_eq_cell _ h]
    exact State.cell_writeReg_ne s h 0

@[simp] theorem State.cell_clearX0_zero (s : State) : s.clearX0.cell 0 = 0 := State.cell_writeReg_self s 0 0

/-- The same in the form simp gives literals. -/
@[simp] theorem State.cell_clearX0_zero_lit (s : State) : s.clearX0.cell 0#5 = 0#32 := s.cell_clearX0_zero

theorem State.cell_clearX0_ne (s : State) {r : RegIdx} (h : r ≠ 0) : s.clearX0.cell r = s.cell r :=
  State.cell_writeReg_ne s h 0

/-- What cell 0 held does not survive the start of an instruction step. -/
@[simp] theorem State.clearX0_writeReg_zero (s : State) (v : Word) : (s.writeReg 0 v).clearX0 = s.clearX0 := by
  simp [State.clearX0, State.writeReg, Vector.set_set]

/-- The same in the form simp gives literals. -/
@[simp] theorem State.clearX0_writeReg_zero_lit (s : State) (v : Word) : (s.writeReg 0#5 v).clearX0 = s.clearX0 :=
  s.clearX0_writeReg_zero v

/-! ### CSR cells -/

@[simp] theorem CsrFile.get_put_self (f : CsrFile) (n : CsrName) (v : Word) : (f.put n v).get n = v := by
  cases n <;> rfl

theorem CsrFile.get_put_ne (f : CsrFile) {n m : CsrName} (h : m ≠ n) (v : Word) : (f.put n v).get m = f.get m := by
  cases n <;> cases m <;> first | rfl | exact absurd rfl h

theorem CsrFile.ext_get {f g : CsrFile} (h : ∀ n, f.get n = g.get n) : f = g := by
  cases f; cases g
  simp only [CsrFile.mk.injEq]
  exact ⟨h .mstatus, h .mie, h .mtvec, h .mscratch, h .mepc, h .mcause, h .mtval, h .mip⟩

end Sys2Proof.Machine
end

