-- ==== Sys2Proof/Laws/Ops.lean ====
section
/-! SUPPORT. One lemma for each shared operation that says everything it can do; later proofs cite these. -/

namespace Sys2Proof.Machine

/-! ### Bits of the status cells -/

theorem getLsbD_setBit (v : Word) {i : Nat} (hi : i < 32) (b : Bool) (j : Nat) :
    (setBit v i b).getLsbD j = if j = i then b else v.getLsbD j := by
  by_cases hj : j < 32
  · cases b
    · simp only [setBit, Bool.false_eq_true, if_false, BitVec.getLsbD_and, BitVec.getLsbD_not,
        BitVec.getLsbD_shiftLeft, BitVec.getLsbD_one, hj, decide_true, Bool.true_and]
      by_cases hij : j = i
      · subst hij; simp
      · rcases Nat.lt_or_ge j i with h | h
        · simp [h, hij]
        · have : ¬ j < i := by omega
          have h0 : j - i ≠ 0 := by omega
          simp [hij, h0]
    · simp only [setBit, if_true, BitVec.getLsbD_or, BitVec.getLsbD_shiftLeft, BitVec.getLsbD_one, hj, decide_true,
        Bool.true_and]
      by_cases hij : j = i
      · subst hij; simp
      · rcases Nat.lt_or_ge j i with h | h
        · simp [h, hij]
        · have h0 : j - i ≠ 0 := by omega
          simp [hij, h0]
  · have : j ≠ i := by omega
    simp [this, BitVec.getLsbD_of_ge _ _ (by omega : 32 ≤ j)]

/-- The bits of mstatus after trap entry: MPIE is the old MIE, MIE is 0, the others stay (R320). -/
theorem getLsbD_enterTrapStatus (m : Word) (j : Nat) :
    (enterTrapStatus m).getLsbD j = if j = 3 then false else if j = 7 then m.getLsbD 3 else m.getLsbD j := by
  simp only [enterTrapStatus, mieBit]
  rw [getLsbD_setBit _ (by omega), getLsbD_setBit _ (by omega)]

/-- The bits of mstatus after MRET: MIE is MPIE, the others stay (R295). -/
theorem getLsbD_leaveTrapStatus (m : Word) (j : Nat) :
    (leaveTrapStatus m).getLsbD j = if j = 3 then m.getLsbD 7 else m.getLsbD j := by
  simp only [leaveTrapStatus, mpieBit]
  rw [getLsbD_setBit _ (by omega)]

/-- The bits of mip after MEIP is set or cleared. -/
theorem getLsbD_setMeip (m : Word) (b : Bool) (j : Nat) :
    (setMeip m b).getLsbD j = if j = 11 then b else m.getLsbD j := by
  simp only [setMeip]
  rw [getLsbD_setBit _ (by omega)]

/-- The trap-vector base is a multiple of 4. -/
theorem vectorBase_aligned (mtvec : Word) : (vectorBase mtvec).toNat % 4 = 0 := by
  have h0 : (vectorBase mtvec).getLsbD 0 = false := by simp [vectorBase]
  have h1 : (vectorBase mtvec).getLsbD 1 = false := by simp [vectorBase]
  rw [BitVec.getLsbD, Nat.testBit_eq_decide_div_mod_eq] at h0 h1
  simp only [decide_eq_false_iff_not] at h0 h1
  omega

/-- The trap-vector base as a number: mtvec rounded down to a multiple of 4. -/
theorem vectorBase_toNat (mtvec : Word) : (vectorBase mtvec).toNat = mtvec.toNat / 4 * 4 := by
  have hand : (vectorBase mtvec).toNat = mtvec.toNat &&& 0xFFFFFFFC := by simp [vectorBase]
  have hsh : mtvec.toNat / 4 * 4 = (mtvec.toNat >>> 2) <<< 2 := by
    rw [Nat.shiftLeft_eq, Nat.shiftRight_eq_div_pow]
  rw [hand, hsh]
  apply Nat.eq_of_testBit_eq
  intro i
  rw [Nat.testBit_and, Nat.testBit_shiftLeft, Nat.testBit_shiftRight]
  by_cases h : i < 32
  · have hm : ∀ j < 32, Nat.testBit 0xFFFFFFFC j = decide (2 ≤ j) := by decide
    rw [hm i h]
    by_cases h2 : 2 ≤ i
    · simp [h2]
    · simp [h2]
  · have hz : mtvec.toNat.testBit i = false :=
      Nat.testBit_lt_two_pow (lt_of_lt_of_le mtvec.isLt (Nat.pow_le_pow_right (by norm_num) (by omega)))
    have h2 : 2 ≤ i := by omega
    simp [hz, h2]

/-! ### CSR access -/

/-- The value an update puts in its cell. -/
def csrNew (op : CsrOp) (old v : Word) : Word :=
  match op with
  | .write => v
  | .set => old ||| v
  | .clear => old &&& ~~~v

theorem State.csrUpdate_resolved (s : State) (op : CsrOp) {a : CsrAddr} {n : CsrName} (h : csrResolve a = some n)
    (v : Word) : s.csrUpdate op a v = { s with csr := s.csr.put n (csrNew op (s.csr.get n) v) } := by
  cases op <;> simp only [csrUpdate, csrWrite, csrSet, csrClear, h, csrNew]

theorem State.csrUpdate_unresolved (s : State) (op : CsrOp) {a : CsrAddr} (h : csrResolve a = none) (v : Word) :
    s.csrUpdate op a v = s := by
  cases op <;> simp only [csrUpdate, csrWrite, csrSet, csrClear, h]

theorem State.csrRead_resolved (s : State) {a : CsrAddr} {n : CsrName} (h : csrResolve a = some n) :
    s.csrRead a = (s.csr.get n, s) := by
  simp only [csrRead, h]

theorem State.csrRead_unresolved (s : State) {a : CsrAddr} (h : csrResolve a = none) :
    s.csrRead a = s.drawWord := by
  simp only [csrRead, h]

/-- A CSR instruction on an unresolved address in Strict mode takes ILLEGAL_INST (R270, R276). -/
theorem csrInstr_strict {s : State} {csr : CsrAddr} (h : csrResolve csr = none)
    (hm : s.launch.csrUnresolved = .strict) (op : CsrOp) (rd : RegIdx) (src : BitVec 5) (v : Word) :
    csrInstr op rd src v csr s = .next (s.takeException .illegalInst) := by
  simp [csrInstr, State.csrIllegal, h, hm]

/-- A CSR instruction on a resolved address: the old value to `rd` unless `rd` is 0, the cell updated unless the
`src` field is 0 (R276). -/
theorem csrInstr_resolved {s : State} {csr : CsrAddr} {n : CsrName} (h : csrResolve csr = some n)
    (op : CsrOp) (rd : RegIdx) (src : BitVec 5) (v : Word) :
    csrInstr op rd src v csr s = .next (State.advance
      { s with
        regs := if rd ≠ 0 then (s.writeReg rd (s.csr.get n)).regs else s.regs
        csr := if src ≠ 0 then s.csr.put n (csrNew op (s.csr.get n) v) else s.csr }) := by
  simp only [csrInstr, State.csrIllegal, h, Option.isNone_some, Bool.false_and, Bool.false_eq_true, if_false,
    State.csrRead_resolved s h]
  by_cases hrd : rd ≠ 0 <;> by_cases hsrc : src ≠ 0 <;>
    simp only [hrd, hsrc, if_true, if_false, State.csrUpdate_resolved _ op h, ne_eq,
      not_false_eq_true] <;> rfl

/-- A CSR instruction on an unresolved address in Sink mode: `rd` gets a draw, no cell changes (R270, D7). -/
theorem csrInstr_sink {s : State} {csr : CsrAddr} (h : csrResolve csr = none)
    (hm : s.launch.csrUnresolved = .sink) (op : CsrOp) (rd : RegIdx) (src : BitVec 5) (v : Word) :
    csrInstr op rd src v csr s = .next (State.advance
      { s with
        regs := if rd ≠ 0 then (s.writeReg rd (Config.drawWord s.draws)).regs else s.regs
        draws := s.draws + 1 }) := by
  have hs : s.csrIllegal csr = false := by simp [State.csrIllegal, hm]
  simp only [csrInstr, hs, Bool.false_eq_true, if_false, State.csrRead_unresolved s h, State.drawWord]
  by_cases hrd : rd ≠ 0 <;> by_cases hsrc : src ≠ 0 <;>
    simp only [hrd, hsrc, if_true, if_false, State.csrUpdate_unresolved _ op h, ne_eq,
      not_false_eq_true] <;> rfl

/-! ### The load and store paths -/

theorem hookServes_iff (base : Option Word) (addr : Word) : hookServes base addr = true ↔ HookServes base addr := by
  cases base <;> simp [hookServes, HookServes]

theorem misaligned_iff (addr : Word) (w : Width) : misaligned addr w = true ↔ addr.toNat % accessBytes w ≠ 0 := by
  simp [misaligned]

theorem State.memRead_misaligned (s : State) {addr : Word} {w : Width} (h : addr.toNat % accessBytes w ≠ 0)
    (signed : Bool) : s.memRead addr w signed = .trap .loadMisaligned s := by
  simp [memRead, misaligned, h]

theorem State.memRead_hook (s : State) {addr : Word} {w : Width} (h : addr.toNat % accessBytes w = 0)
    (hh : HookServes s.launch.loadHook addr) (signed : Bool) :
    s.memRead addr w signed =
      match Config.loadAnswer s.hookLog addr w signed with
      | none => .trap .loadFault (s.recordCall (.load addr w signed none))
      | some v => .done v (s.recordCall (.load addr w signed (some v))) := by
  have hh' := (hookServes_iff _ _).mpr hh
  simp only [memRead, misaligned, h, ne_eq, not_true_eq_false, decide_false, Bool.false_eq_true, if_false, hh',
    if_true, callLoadHook]
  cases Config.loadAnswer s.hookLog addr w signed <;> rfl

theorem State.memRead_buffer (s : State) {addr : Word} {w : Width} (h : addr.toNat % accessBytes w = 0)
    (hh : ¬HookServes s.launch.loadHook addr) (hb : addr.toNat + accessBytes w ≤ s.mem.len) (signed : Bool) :
    s.memRead addr w signed = .done (s.mem.load addr.toNat w signed) s := by
  have hh' : hookServes s.launch.loadHook addr = false := by
    rw [← Bool.not_eq_true, hookServes_iff]; exact hh
  simp [memRead, misaligned, h, hh', inBounds, hb]

theorem State.memRead_outside (s : State) {addr : Word} {w : Width} (h : addr.toNat % accessBytes w = 0)
    (hh : ¬HookServes s.launch.loadHook addr) (hb : s.mem.len < addr.toNat + accessBytes w) (signed : Bool) :
    s.memRead addr w signed = .trap .loadFault s := by
  have hh' : hookServes s.launch.loadHook addr = false := by
    rw [← Bool.not_eq_true, hookServes_iff]; exact hh
  simp [memRead, misaligned, h, hh', inBounds, Nat.not_le.mpr hb]

theorem State.memWrite_misaligned (s : State) {addr : Word} {w : Width} (h : addr.toNat % accessBytes w ≠ 0)
    (v : Word) : s.memWrite addr w v = .trap .loadMisaligned s := by
  simp [memWrite, misaligned, h]

theorem State.memWrite_hook (s : State) {addr : Word} {w : Width} (h : addr.toNat % accessBytes w = 0)
    (hh : HookServes s.launch.storeHook addr) (v : Word) :
    s.memWrite addr w v =
      match Config.storeAnswer s.hookLog addr w (hookValue w v) with
      | false => .trap .storeFault (s.recordCall (.store addr w (hookValue w v) false))
      | true => .done () (s.recordCall (.store addr w (hookValue w v) true)) := by
  have hh' := (hookServes_iff _ _).mpr hh
  simp only [memWrite, misaligned, h, ne_eq, not_true_eq_false, decide_false, Bool.false_eq_true, if_false, hh',
    if_true, callStoreHook]
  cases Config.storeAnswer s.hookLog addr w (hookValue w v) <;> rfl

theorem State.memWrite_buffer (s : State) {addr : Word} {w : Width} (h : addr.toNat % accessBytes w = 0)
    (hh : ¬HookServes s.launch.storeHook addr) (hb : addr.toNat + accessBytes w ≤ s.mem.len) (v : Word) :
    s.memWrite addr w v = .done () { s with mem := s.mem.store addr.toNat w v } := by
  have hh' : hookServes s.launch.storeHook addr = false := by
    rw [← Bool.not_eq_true, hookServes_iff]; exact hh
  simp [memWrite, misaligned, h, hh', inBounds, hb]

theorem State.memWrite_outside (s : State) {addr : Word} {w : Width} (h : addr.toNat % accessBytes w = 0)
    (hh : ¬HookServes s.launch.storeHook addr) (hb : s.mem.len < addr.toNat + accessBytes w) (v : Word) :
    s.memWrite addr w v = .trap .storeFault s := by
  have hh' : hookServes s.launch.storeHook addr = false := by
    rw [← Bool.not_eq_true, hookServes_iff]; exact hh
  simp [memWrite, misaligned, h, hh', inBounds, Nat.not_le.mpr hb]

/-- The state after the hook calls of an instruction: none, or one to a hook that is installed. -/
def Called (s u : State) : Prop :=
  u = s ∨ ∃ k, u = s.recordCall k ∧
    (s.launch.loadHook ≠ none ∨ s.launch.storeHook ≠ none ∨ s.launch.syscallHook = true)

theorem HookServes.installed {base : Option Word} {addr : Word} (h : HookServes base addr) : base ≠ none := by
  obtain ⟨b, hb, _⟩ := h
  simp [hb]

/-- Everything a load path can do. -/
theorem State.memRead_cases (s : State) (addr : Word) (w : Width) (signed : Bool) :
    ∃ u, Called s u ∧
      ((∃ c, s.memRead addr w signed = .trap c u) ∨ (∃ v, s.memRead addr w signed = .done v u)) := by
  by_cases h : addr.toNat % accessBytes w = 0
  · by_cases hh : HookServes s.launch.loadHook addr
    · rw [s.memRead_hook h hh]
      cases Config.loadAnswer s.hookLog addr w signed
      · exact ⟨_, .inr ⟨_, rfl, .inl hh.installed⟩, .inl ⟨_, rfl⟩⟩
      · exact ⟨_, .inr ⟨_, rfl, .inl hh.installed⟩, .inr ⟨_, rfl⟩⟩
    · rcases Nat.lt_or_ge s.mem.len (addr.toNat + accessBytes w) with hb | hb
      · exact ⟨s, .inl rfl, .inl ⟨_, s.memRead_outside h hh hb signed⟩⟩
      · exact ⟨s, .inl rfl, .inr ⟨_, s.memRead_buffer h hh hb signed⟩⟩
  · exact ⟨s, .inl rfl, .inl ⟨_, s.memRead_misaligned h signed⟩⟩

/-- Everything a store path can do: a trap, a store the hook accepts, or bytes stored inside the buffer. -/
theorem State.memWrite_cases (s : State) (addr : Word) (w : Width) (v : Word) :
    (∃ u, Called s u ∧ ((∃ c, s.memWrite addr w v = .trap c u) ∨ s.memWrite addr w v = .done () u)) ∨
    (addr.toNat + accessBytes w ≤ s.mem.len ∧
      s.memWrite addr w v = .done () { s with mem := s.mem.store addr.toNat w v }) := by
  by_cases h : addr.toNat % accessBytes w = 0
  · by_cases hh : HookServes s.launch.storeHook addr
    · rw [s.memWrite_hook h hh]
      cases Config.storeAnswer s.hookLog addr w (hookValue w v)
      · exact .inl ⟨_, .inr ⟨_, rfl, .inr (.inl hh.installed)⟩, .inl ⟨_, rfl⟩⟩
      · exact .inl ⟨_, .inr ⟨_, rfl, .inr (.inl hh.installed)⟩, .inr rfl⟩
    · rcases Nat.lt_or_ge s.mem.len (addr.toNat + accessBytes w) with hb | hb
      · exact .inl ⟨s, .inl rfl, .inl ⟨_, s.memWrite_outside h hh hb v⟩⟩
      · exact .inr ⟨hb, s.memWrite_buffer h hh hb v⟩
  · exact .inl ⟨s, .inl rfl, .inl ⟨_, s.memWrite_misaligned h v⟩⟩

/-! ### Shared endings of instructions -/

/-- Everything a load can do. -/
theorem execLoad_cases (rd : RegIdx) (addr : Word) (w : Width) (signed : Bool) (s : State) :
    ∃ u, Called s u ∧
      ((∃ c, execLoad rd addr w signed s = .next (u.takeException c)) ∨
       (∃ v, execLoad rd addr w signed s = .next ((u.writeReg rd v).advance))) := by
  obtain ⟨u, hu, ⟨c, h⟩ | ⟨v, h⟩⟩ := s.memRead_cases addr w signed <;> simp only [execLoad, h]
  · exact ⟨u, hu, .inl ⟨c, rfl⟩⟩
  · exact ⟨u, hu, .inr ⟨v, rfl⟩⟩

/-- Everything a store can do. -/
theorem execStore_cases (addr : Word) (w : Width) (v : Word) (s : State) :
    (∃ u, Called s u ∧
      ((∃ c, execStore addr w v s = .next (u.takeException c)) ∨ execStore addr w v s = .next u.advance)) ∨
    (addr.toNat + accessBytes w ≤ s.mem.len ∧
      execStore addr w v s = .next (State.advance { s with mem := s.mem.store addr.toNat w v })) := by
  obtain ⟨u, hu, ⟨c, h⟩ | h⟩ | ⟨hb, h⟩ := s.memWrite_cases addr w v <;> simp only [execStore, h]
  · exact .inl ⟨u, hu, .inl ⟨c, rfl⟩⟩
  · exact .inl ⟨u, hu, .inr rfl⟩
  · exact .inr ⟨hb, trivial⟩

/-- Everything a CSR instruction can do: it traps, or it may write `rd`, one cell and the draw counter, and moves
on. -/
theorem csrInstr_cases (op : CsrOp) (rd : RegIdx) (src : BitVec 5) (v : Word) (csr : CsrAddr) (s : State) :
    csrInstr op rd src v csr s = .next (s.takeException .illegalInst) ∨
    ∃ old f d, csrInstr op rd src v csr s = .next (State.advance
      { s with regs := if rd ≠ 0 then (s.writeReg rd old).regs else s.regs, csr := f, draws := d }) := by
  cases h : csrResolve csr with
  | some n => exact .inr ⟨s.csr.get n, _, s.draws, csrInstr_resolved h op rd src v⟩
  | none =>
    cases hm : s.launch.csrUnresolved with
    | strict => exact .inl (csrInstr_strict h hm op rd src v)
    | sink => exact .inr ⟨Config.drawWord s.draws, s.csr, s.draws + 1, csrInstr_sink h hm op rd src v⟩

/-- Everything brk can do: a query, a new length in the range, or a refusal (R292). -/
theorem execBrk_cases (s : State) :
    execBrk s = .next (s.answerCall (BitVec.ofNat 32 s.mem.len)) ∨
    (∃ n, s.launch.stackEnd ≤ n ∧ n ≤ s.launch.heapLimit ∧
      execBrk s = .next (State.answerCall { s with mem := s.mem.resize n } (BitVec.ofNat 32 n))) ∨
    execBrk s = .refused .brkOutsideModel := by
  by_cases h0 : (s.readReg a0).toNat = 0
  · exact .inl (by simp only [execBrk, h0, if_true])
  · by_cases hr : (s.readReg a0).toNat < s.launch.stackEnd ∨ 2 ^ 31 ≤ (s.readReg a0).toNat
    · exact .inr (.inr (by simp only [execBrk, h0, if_false, hr, if_true]))
    · refine .inr (.inl ⟨min (s.readReg a0).toNat s.launch.heapLimit, ?_, min_le_right _ _, ?_⟩)
      · have : s.launch.stackEnd ≤ s.launch.heapLimit := Nat.le_add_right _ _
        omega
      · simp only [execBrk, h0, if_false, hr]

/-- Everything the syscall fallback can do (R290, R292 to R294). -/
theorem execSyscallFallback_cases (s : State) :
    execSyscallFallback s = execBrk s ∨ (∃ v, execSyscallFallback s = .next (s.answerCall v)) ∨
      execSyscallFallback s = .next (s.takeException .ecallM) := by
  unfold execSyscallFallback
  split
  · exact .inl rfl
  · split
    · exact .inr (.inl ⟨_, rfl⟩)
    · exact .inr (.inr rfl)

/-- Everything ECALL can do: with at most one hook call recorded, an answer or the fallback (R290, R291). -/
theorem execEcall_cases (s : State) :
    ∃ u, Called s u ∧
      ((∃ v, execEcall s = .next (u.answerCall v)) ∨ execEcall s = execSyscallFallback u) := by
  unfold execEcall
  split
  · next hs =>
    cases h : (s.callSyscallHook).1 with
    | some v =>
      refine ⟨s.callSyscallHook.2, .inr ⟨_, rfl, .inr (.inr hs)⟩, .inl ⟨v, ?_⟩⟩
      rw [show s.callSyscallHook = (some v, s.callSyscallHook.2) from Prod.ext h rfl]
    | none =>
      refine ⟨s.callSyscallHook.2, .inr ⟨_, rfl, .inr (.inr hs)⟩, .inr ?_⟩
      rw [show s.callSyscallHook = (none, s.callSyscallHook.2) from Prod.ext h rfl]
  · exact ⟨s, .inl rfl, .inr rfl⟩

/-! ### Trap return -/

@[simp] theorem State.trapReturn_pc (s : State) : s.trapReturn.pc = s.csr.mepc := by
  unfold State.trapReturn; split <;> rfl
@[simp] theorem State.trapReturn_csr (s : State) :
    s.trapReturn.csr = { s.csr with mstatus := leaveTrapStatus s.csr.mstatus } := by
  unfold State.trapReturn; split <;> rfl
@[simp] theorem State.trapReturn_mem (s : State) : s.trapReturn.mem = s.mem := by
  unfold State.trapReturn; split <;> rfl
@[simp] theorem State.trapReturn_latchedCause (s : State) : s.trapReturn.latchedCause = s.latchedCause := by
  unfold State.trapReturn; split <;> rfl
@[simp] theorem State.trapReturn_cycles (s : State) : s.trapReturn.cycles = s.cycles := by
  unfold State.trapReturn; split <;> rfl
@[simp] theorem State.trapReturn_refused (s : State) : s.trapReturn.refused = s.refused := by
  unfold State.trapReturn; split <;> rfl
@[simp] theorem State.trapReturn_dt (s : State) : s.trapReturn.dt = s.dt := by
  unfold State.trapReturn; split <;> rfl
@[simp] theorem State.trapReturn_launch (s : State) : s.trapReturn.launch = s.launch := by
  unfold State.trapReturn; split <;> rfl
@[simp] theorem State.trapReturn_hookLog (s : State) : s.trapReturn.hookLog = s.hookLog := by
  unfold State.trapReturn; split <;> rfl
@[simp] theorem State.trapReturn_draws (s : State) : s.trapReturn.draws = s.draws := by
  unfold State.trapReturn; split <;> rfl

/-- a0 after trap return: mscratch if mtval is not 0, else unchanged; the other registers are unchanged (R295). -/
theorem State.cell_trapReturn (s : State) (r : RegIdx) :
    s.trapReturn.cell r = if r = a0 ∧ s.csr.mtval ≠ 0 then s.csr.mscratch else s.cell r := by
  unfold State.trapReturn
  by_cases hv : s.csr.mtval = 0
  · simp only [hv, ne_eq, not_true_eq_false, if_false, and_false]
    rfl
  · simp only [ne_eq, hv, not_false_eq_true, if_true, and_true]
    by_cases hr : r = a0
    · subst hr; simp
    · rw [if_neg hr, State.cell_writeReg_ne _ hr]
      rfl

/-! ### Frames of the shared operations -/

theorem SameMemory.of_eq {s t : State} (h : t.mem = s.mem) : SameMemory s t :=
  ⟨fun _ => by rw [h], by rw [h], by rw [h]⟩

/-- A register written and the pc moved on. -/
theorem regWritten_writeReg (s : State) (rd : RegIdx) (v pc : Word) :
    RegWritten rd v [] s { s.writeReg rd v with pc := pc } where
  result := State.cell_writeReg_self s rd v
  others := fun _ h => State.cell_writeReg_ne s h v
  csr := rfl
  memory := .of_eq rfl
  fixed := ⟨rfl, rfl, rfl, rfl, rfl⟩
  hookLog := rfl
  draws := rfl

/-- Only the pc moved. -/
theorem nothingWritten_pc (s : State) (pc : Word) : NothingWritten [] s { s with pc := pc } where
  regs := fun _ => rfl
  csr := rfl
  memory := .of_eq rfl
  fixed := ⟨rfl, rfl, rfl, rfl, rfl⟩
  hookLog := rfl
  draws := rfl

/-- The bytes of a store are stored and nothing else changes. -/
theorem bytesStored_store (s : State) (a : Nat) (w : Width) (v pc : Word) :
    BytesStored a (accessBytes w) v s { s with mem := s.mem.store a w v, pc := pc } where
  stored := fun _ h => Memory.read_store_inside s.mem a w v h
  outside := fun _ h => Memory.read_store_outside s.mem v h
  len := Memory.store_len s.mem a w v
  fill := Memory.store_fill s.mem a w v
  regs := fun _ => rfl
  csr := rfl
  fixed := ⟨rfl, rfl, rfl, rfl, rfl⟩
  hookLog := rfl
  draws := rfl

end Sys2Proof.Machine
end

