-- ==== Sys2Proof/Laws/Exec.lean ====
section
/-! SUPPORT. Everything an instruction can do, said once, and everything a step can do. Claims about all instructions
take these apart; they need no case split over the instructions. -/

namespace Sys2Proof.Machine

/-- How an instruction that answers a next state has ended. -/
inductive Ending (i : Instr) (s t : State) : Prop where
  /-- It has taken an exception, after at most one hook call. -/
  | trap (u : State) (c : Cause) (called : Called s u) (caller : u = s ∨ mayCallHook i = true)
      (result : t = u.takeException c)
  /-- It has written its destination register and set the pc. -/
  | wrote (u : State) (rd : RegIdx) (v pc : Word) (called : Called s u) (caller : u = s ∨ mayCallHook i = true)
      (dest : destination i = some rd) (result : t = { u.writeReg rd v with pc := pc })
  /-- It has set the pc and nothing else. -/
  | moved (u : State) (pc : Word) (called : Called s u) (caller : u = s ∨ mayCallHook i = true)
      (result : t = { u with pc := pc })
  /-- It has stored bytes inside the buffer. -/
  | stored (a : Nat) (w : Width) (v pc : Word) (store : isStore i = true) (bound : a + accessBytes w ≤ s.mem.len)
      (result : t = { s with mem := s.mem.store a w v, pc := pc })
  /-- It has accessed a CSR. -/
  | csr (rd : RegIdx) (v pc : Word) (f : CsrFile) (d : Nat) (writes : writesCsr i = true) (ret : i ≠ .mret)
      (dest : destination i = some rd)
      (result : t =
        { s with regs := if rd ≠ 0 then (s.writeReg rd v).regs else s.regs, csr := f, draws := d, pc := pc })
  /-- It is an ECALL that has set the buffer's length. -/
  | resized (u : State) (n : Nat) (v : Word) (called : Called s u) (ecall : i = .ecall)
      (low : s.launch.stackEnd ≤ n) (high : n ≤ s.launch.heapLimit)
      (result : t = State.answerCall { u with mem := u.mem.resize n } v)
  /-- It is an MRET. -/
  | returned (mret : i = .mret) (result : t = s.trapReturn)

theorem ending_load {i : Instr} {s t : State} {rd : RegIdx} {addr : Word} {w : Width} {signed : Bool}
    (h : execLoad rd addr w signed s = .next t) (hc : mayCallHook i = true) (hd : destination i = some rd) :
    Ending i s t := by
  obtain ⟨u, hu, ⟨c, he⟩ | ⟨v, he⟩⟩ := execLoad_cases rd addr w signed s <;> rw [he] at h <;> cases h
  · exact .trap u c hu (.inr hc) rfl
  · exact .wrote u rd v _ hu (.inr hc) hd rfl

theorem ending_store {i : Instr} {s t : State} {addr : Word} {w : Width} {v : Word}
    (h : execStore addr w v s = .next t) (hc : mayCallHook i = true) (hs : isStore i = true) : Ending i s t := by
  obtain ⟨u, hu, ⟨c, he⟩ | he⟩ | ⟨hb, he⟩ := execStore_cases addr w v s <;> rw [he] at h <;> cases h
  · exact .trap u c hu (.inr hc) rfl
  · exact .moved u _ hu (.inr hc) rfl
  · exact .stored _ w v _ hs hb rfl

theorem ending_csr {i : Instr} {s t : State} {op : CsrOp} {rd : RegIdx} {src : BitVec 5} {v : Word} {csr : CsrAddr}
    (h : csrInstr op rd src v csr s = .next t) (hw : writesCsr i = true) (hm : i ≠ .mret)
    (hd : destination i = some rd) : Ending i s t := by
  obtain he | ⟨old, f, d, he⟩ := csrInstr_cases op rd src v csr s <;> rw [he] at h <;> cases h
  · exact .trap s _ (.inl rfl) (.inl rfl) rfl
  · exact .csr rd old _ f d hw hm hd rfl

/-! A hook call changes nothing but the history of calls. -/

theorem Called.regs {s u : State} (h : Called s u) : u.regs = s.regs := by
  obtain rfl | ⟨k, rfl, _⟩ := h <;> rfl

theorem Called.pc {s u : State} (h : Called s u) : u.pc = s.pc := by
  obtain rfl | ⟨k, rfl, _⟩ := h <;> rfl

theorem Called.csr {s u : State} (h : Called s u) : u.csr = s.csr := by
  obtain rfl | ⟨k, rfl, _⟩ := h <;> rfl

theorem Called.latchedCause {s u : State} (h : Called s u) : u.latchedCause = s.latchedCause := by
  obtain rfl | ⟨k, rfl, _⟩ := h <;> rfl

theorem Called.mem {s u : State} (h : Called s u) : u.mem = s.mem := by
  obtain rfl | ⟨k, rfl, _⟩ := h <;> rfl

theorem Called.cycles {s u : State} (h : Called s u) : u.cycles = s.cycles := by
  obtain rfl | ⟨k, rfl, _⟩ := h <;> rfl

theorem Called.refused {s u : State} (h : Called s u) : u.refused = s.refused := by
  obtain rfl | ⟨k, rfl, _⟩ := h <;> rfl

theorem Called.dt {s u : State} (h : Called s u) : u.dt = s.dt := by
  obtain rfl | ⟨k, rfl, _⟩ := h <;> rfl

theorem Called.launch {s u : State} (h : Called s u) : u.launch = s.launch := by
  obtain rfl | ⟨k, rfl, _⟩ := h <;> rfl

theorem Called.draws {s u : State} (h : Called s u) : u.draws = s.draws := by
  obtain rfl | ⟨k, rfl, _⟩ := h <;> rfl

theorem Called.cell {s u : State} (h : Called s u) (r : RegIdx) : u.cell r = s.cell r := State.cell_congr h.regs r

theorem ending_ecall {s t : State} (h : execEcall s = .next t) : Ending .ecall s t := by
  obtain ⟨u, hu, ⟨v, he⟩ | he⟩ := execEcall_cases s <;> rw [he] at h
  · cases h
    exact .wrote u a0 v _ hu (.inr rfl) rfl rfl
  obtain hf | ⟨v, hf⟩ | hf := execSyscallFallback_cases u <;> rw [hf] at h
  · obtain hb | ⟨n, hlo, hhi, hb⟩ | hb := execBrk_cases u <;> rw [hb] at h <;> cases h
    · exact .wrote u a0 _ _ hu (.inr rfl) rfl rfl
    · exact .resized u n _ hu rfl (hu.launch ▸ hlo) (hu.launch ▸ hhi) rfl
  · cases h
    exact .wrote u a0 v _ hu (.inr rfl) rfl rfl
  · cases h
    exact .trap u _ hu (.inr rfl) rfl

theorem ending_branch {i : Instr} {s t : State} {taken : Bool} {imm : Word}
    (h : execBranch taken imm s = .next t) : Ending i s t := by
  cases taken <;> cases h <;> exact .moved s _ (.inl rfl) (.inl rfl) rfl

/-- Everything an instruction can do. -/
theorem exec_cases {i : Instr} {s t : State} (h : exec i s = .next t) : Ending i s t := by
  cases i
  case ecall => exact ending_ecall h
  case mret =>
    cases h
    exact .returned rfl rfl
  case beq | bne | blt | bge | bltu | bgeu => exact ending_branch h
  case lb | lh | lw | lbu | lhu => exact ending_load h rfl rfl
  case sb | sh | sw => exact ending_store h rfl rfl
  case csrrw | csrrs | csrrc | csrrwi | csrrsi | csrrci => exact ending_csr h rfl (by intro e; cases e) rfl
  case fence | fenceI =>
    cases h
    exact .moved s _ (.inl rfl) (.inl rfl) rfl
  all_goals
    cases h
    exact .wrote s _ _ _ (.inl rfl) (.inl rfl) rfl rfl

/-! ### Steps -/

/-- Clearing x0 does not change what is fetched. -/
@[simp] theorem State.fetch_clearX0 (s : State) : s.clearX0.fetch = s.fetch := rfl

/-- What is fetched depends on the pc and the decode table alone. -/
theorem State.fetch_congr {s t : State} (hp : t.pc = s.pc) (hd : t.dt = s.dt) : t.fetch = s.fetch := by
  unfold State.fetch State.decodedBytes
  rw [hp, hd]

theorem State.fetch_misaligned {s : State} (h : s.pc.toNat % 4 ≠ 0) : s.fetch = .trap .instMisaligned := by
  simp only [State.fetch, h, ne_eq, not_false_eq_true, if_true]

theorem State.fetch_outside {s : State} (h : s.pc.toNat % 4 = 0) (ho : 4 * s.dt.length ≤ s.pc.toNat) :
    s.fetch = .trap .instAccess := by
  have ho : s.decodedBytes ≤ s.pc.toNat := ho
  simp only [State.fetch, h, ne_eq, not_true_eq_false, if_false, ho, if_true]

theorem State.fetch_slot {s : State} (h : s.pc.toNat % 4 = 0) {e : Slot} (he : s.dt[s.pc.toNat / 4]? = some e) :
    s.fetch =
      match e with
      | .empty => .trap .illegalInst
      | .unsettled => .unsettled
      | .record i => .run i := by
  obtain ⟨hlt, _⟩ := List.getElem?_eq_some_iff.mp he
  have hin : ¬s.decodedBytes ≤ s.pc.toNat := by
    simp only [State.decodedBytes]
    omega
  have hs : slotAt s.dt (s.pc.toNat / 4) = e := by
    simp [slotAt, List.getD_eq_getElem?_getD, he]
  simp only [State.fetch, h, ne_eq, not_true_eq_false, if_false, hin, hs]
  cases e <;> rfl

/-- After trap entry MIE is 0, so no interrupt is ready. -/
theorem State.interruptReady_of_mie {s : State} (h : s.csr.mstatus.getLsbD 3 = false) : s.interruptReady = false := by
  simp only [State.interruptReady, mieBit, h, Bool.false_and]

theorem State.interruptReady_takeException (s : State) (c : Cause) : (s.takeException c).interruptReady = false :=
  State.interruptReady_of_mie ((getLsbD_enterTrapStatus s.csr.mstatus 3).trans (if_pos rfl))

/-- A step of a run not refused, with no interrupt ready, runs what fetch gives. -/
theorem step_instruction {s : State} (hr : s.refused = false) (hi : s.interruptReady = false) :
    step s = countStep (fetchExecute s.clearX0) := by
  simp only [step, hr, hi, Bool.false_eq_true, if_false, instructionStep]

theorem step_interrupt {s : State} (hr : s.refused = false) (hi : s.interruptReady = true) :
    step s = .next s.takeInterrupt.countCycle := by
  simp only [step, hr, hi, Bool.false_eq_true, if_false, if_true, interruptStep]

/-- Everything a step can do. -/
theorem step_cases {s t : State} (h : step s = .next t) :
    s.refused = false ∧
      ((s.interruptReady = true ∧ t = s.takeInterrupt.countCycle) ∨
       (s.interruptReady = false ∧ ∃ c, s.fetch = .trap c ∧ t = (s.clearX0.takeException c).countCycle) ∨
       (s.interruptReady = false ∧ ∃ i u, s.fetch = .run i ∧ exec i s.clearX0 = .next u ∧ t = u.countCycle)) := by
  cases hr : s.refused
  · refine ⟨rfl, ?_⟩
    cases hi : s.interruptReady
    · rw [step_instruction hr hi, fetchExecute, State.fetch_clearX0] at h
      cases hf : s.fetch with
      | trap c =>
        rw [hf] at h
        cases h
        exact .inr (.inl ⟨rfl, c, rfl, rfl⟩)
      | unsettled =>
        rw [hf] at h
        cases h
      | run i =>
        rw [hf] at h
        cases he : exec i s.clearX0 with
        | next u =>
          simp only [he, countStep] at h
          cases h
          exact .inr (.inr ⟨rfl, i, u, rfl, he, rfl⟩)
        | fault f => nomatch f
        | refused r =>
          simp only [he, countStep] at h
          cases h
    · rw [step_interrupt hr hi] at h
      cases h
      exact .inl ⟨rfl, rfl⟩
  · rw [step, hr] at h
    cases h

end Sys2Proof.Machine
end

