-- ==== Sys2Proof/Laws/Observer.lean ====
section
/-! SUPPORT. What the observer's reports depend on: those of an instruction that accesses no CSR do not depend on the
CSR cells. -/

namespace Sys2Proof.Machine

/-- A load's reports do not depend on the CSR cells. -/
theorem observeLoad_csr (s : State) (f : CsrFile) (addr : Word) (w : Width) (signed : Bool) :
    observeLoad addr w signed { s with csr := f } = observeLoad addr w signed s := by
  unfold observeLoad
  by_cases aligned : addr.toNat % accessBytes w = 0
  · by_cases served : HookServes s.launch.loadHook addr
    · rw [s.memRead_hook aligned served, State.memRead_hook { s with csr := f } aligned served]
      cases Config.loadAnswer s.hookLog addr w signed <;> rfl
    · by_cases inside : addr.toNat + accessBytes w ≤ s.mem.len
      · rw [s.memRead_buffer aligned served inside, State.memRead_buffer { s with csr := f } aligned served inside]
      · have outside := Nat.lt_of_not_le inside
        rw [s.memRead_outside aligned served outside, State.memRead_outside { s with csr := f } aligned served outside]
  · rw [s.memRead_misaligned aligned, State.memRead_misaligned { s with csr := f } aligned]

/-- A store's reports do not depend on the CSR cells. -/
theorem observeStore_csr (s : State) (f : CsrFile) (addr : Word) (w : Width) (v : Word) :
    observeStore addr w v { s with csr := f } = observeStore addr w v s := by
  unfold observeStore
  by_cases aligned : addr.toNat % accessBytes w = 0
  · by_cases served : HookServes s.launch.storeHook addr
    · rw [s.memWrite_hook aligned served, State.memWrite_hook { s with csr := f } aligned served]
      cases Config.storeAnswer s.hookLog addr w (hookValue w v) <;> rfl
    · by_cases inside : addr.toNat + accessBytes w ≤ s.mem.len
      · rw [s.memWrite_buffer aligned served inside, State.memWrite_buffer { s with csr := f } aligned served inside]
      · have outside := Nat.lt_of_not_le inside
        rw [s.memWrite_outside aligned served outside, State.memWrite_outside { s with csr := f } aligned served outside]
  · rw [s.memWrite_misaligned aligned, State.memWrite_misaligned { s with csr := f } aligned]

/-- The reports of an instruction that is no CSR instruction and no MRET do not depend on the CSR cells. -/
theorem observeInstr_csr {i : Instr} (h : writesCsr i = false) (s : State) (f : CsrFile) :
    observeInstr i { s with csr := f } = observeInstr i s := by
  cases i
  case lb | lh | lw | lbu | lhu => exact observeLoad_csr s f _ _ _
  case sb | sh | sw => exact observeStore_csr s f _ _ _
  case csrrw | csrrs | csrrc | csrrwi | csrrsi | csrrci => cases h
  all_goals rfl

/-- A load that takes an exception reports it, and one that completes reports none. -/
theorem exception_mem_observeLoad (s : State) (addr : Word) (w : Width) (signed : Bool) (c : Cause) :
    Report.exception c ∈ observeLoad addr w signed s ↔ ∃ t, s.memRead addr w signed = .trap c t := by
  unfold observeLoad
  cases s.memRead addr w signed <;> simp [eq_comm]

/-- A store that takes an exception reports it, and one that completes reports none. -/
theorem exception_mem_observeStore (s : State) (addr : Word) (w : Width) (v : Word) (c : Cause) :
    Report.exception c ∈ observeStore addr w v s ↔ ∃ t, s.memWrite addr w v = .trap c t := by
  unfold observeStore
  cases s.memWrite addr w v <;> simp [eq_comm]

/-- A CSR instruction reports an exception exactly when it raises ILLEGAL_INST. -/
theorem exception_mem_observeCsr (op : CsrOp) (src : BitVec 5) (v : Word) (csr : CsrAddr) (s : State) (c : Cause) :
    Report.exception c ∈ observeCsr op src v csr s ↔ s.csrIllegal csr = true ∧ c = .illegalInst := by
  unfold observeCsr
  split
  · next h => simp [h]
  · next h => simp only [h]; split <;> simp

end Sys2Proof.Machine
end

