-- ==== Sys2Proof/Laws/PerInstr.lean ====
section
/-! SUPPORT. The family OpcodeRow: every instruction's word has the fixed bits of its row of
spec/opcode_table.json. -/

namespace Sys2Proof.Laws

theorem encR_mask (f7 : BitVec 7) (rs2 rs1 : RegIdx) (f3 : BitVec 3) (rd : RegIdx) (op : BitVec 7) :
    encR f7 rs2 rs1 f3 rd op &&& 0xFE00707F = encR f7 0 0 f3 0 op := by
  have h : (f7 ++ rs2 ++ rs1 ++ f3 ++ rd ++ op) &&&
      (127#7 ++ 0#5 ++ 0#5 ++ 7#3 ++ 0#5 ++ 127#7) =
      f7 ++ 0#5 ++ 0#5 ++ f3 ++ 0#5 ++ op := by
    rw [show (127#7) = BitVec.allOnes 7 from rfl, show (7#3) = BitVec.allOnes 3 from rfl]
    simp only [BitVec.and_append, BitVec.and_zero, BitVec.and_allOnes]
  exact h

theorem encI_mask (imm12 : BitVec 12) (rs1 : RegIdx) (f3 : BitVec 3) (rd : RegIdx) (op : BitVec 7) :
    encI imm12 rs1 f3 rd op &&& 0x707F = encI 0 0 f3 0 op := by
  have h : (imm12 ++ rs1 ++ f3 ++ rd ++ op) &&&
      (0#12 ++ 0#5 ++ 7#3 ++ 0#5 ++ 127#7) =
      0#12 ++ 0#5 ++ f3 ++ 0#5 ++ op := by
    rw [show (127#7) = BitVec.allOnes 7 from rfl, show (7#3) = BitVec.allOnes 3 from rfl]
    simp only [BitVec.and_append, BitVec.and_zero, BitVec.and_allOnes]
  exact h

theorem encS_mask (imm : Word) (rs2 rs1 : RegIdx) (f3 : BitVec 3) (op : BitVec 7) :
    encS imm rs2 rs1 f3 op &&& 0x707F = 0#7 ++ 0#5 ++ 0#5 ++ f3 ++ 0#5 ++ op := by
  have h : (imm.extractLsb' 5 7 ++ rs2 ++ rs1 ++ f3 ++ imm.extractLsb' 0 5 ++ op) &&&
      (0#7 ++ 0#5 ++ 0#5 ++ 7#3 ++ 0#5 ++ 127#7) =
      0#7 ++ 0#5 ++ 0#5 ++ f3 ++ 0#5 ++ op := by
    rw [show (127#7) = BitVec.allOnes 7 from rfl, show (7#3) = BitVec.allOnes 3 from rfl]
    simp only [BitVec.and_append, BitVec.and_zero, BitVec.and_allOnes]
  exact h

theorem encB_mask (imm : Word) (rs2 rs1 : RegIdx) (f3 : BitVec 3) (op : BitVec 7) :
    encB imm rs2 rs1 f3 op &&& 0x707F = 0#1 ++ 0#6 ++ 0#5 ++ 0#5 ++ f3 ++ 0#4 ++ 0#1 ++ op := by
  have h : (imm.extractLsb' 12 1 ++ imm.extractLsb' 5 6 ++ rs2 ++ rs1 ++ f3 ++ imm.extractLsb' 1 4 ++ imm.extractLsb' 11 1 ++ op) &&&
      (0#1 ++ 0#6 ++ 0#5 ++ 0#5 ++ 7#3 ++ 0#4 ++ 0#1 ++ 127#7) =
      0#1 ++ 0#6 ++ 0#5 ++ 0#5 ++ f3 ++ 0#4 ++ 0#1 ++ op := by
    rw [show (127#7) = BitVec.allOnes 7 from rfl, show (7#3) = BitVec.allOnes 3 from rfl]
    simp only [BitVec.and_append, BitVec.and_zero, BitVec.and_allOnes]
  exact h

theorem encU_mask (imm20 : BitVec 20) (rd : RegIdx) (op : BitVec 7) :
    encU imm20 rd op &&& 0x7F = encU 0 0 op := by
  have h : (imm20 ++ rd ++ op) &&&
      (0#20 ++ 0#5 ++ 127#7) =
      0#20 ++ 0#5 ++ op := by
    rw [show (127#7) = BitVec.allOnes 7 from rfl]
    simp only [BitVec.and_append, BitVec.and_zero, BitVec.and_allOnes]
  exact h

theorem encJ_mask (imm : Word) (rd : RegIdx) (op : BitVec 7) :
    encJ imm rd op &&& 0x7F = 0#1 ++ 0#10 ++ 0#1 ++ 0#8 ++ 0#5 ++ op := by
  have h : (imm.extractLsb' 20 1 ++ imm.extractLsb' 1 10 ++ imm.extractLsb' 11 1 ++ imm.extractLsb' 12 8 ++ rd ++ op) &&&
      (0#1 ++ 0#10 ++ 0#1 ++ 0#8 ++ 0#5 ++ 127#7) =
      0#1 ++ 0#10 ++ 0#1 ++ 0#8 ++ 0#5 ++ op := by
    rw [show (127#7) = BitVec.allOnes 7 from rfl]
    simp only [BitVec.and_append, BitVec.and_zero, BitVec.and_allOnes]
  exact h

/-- The instruction's word has the fixed bits of its row of the opcode table. -/
def OpcodeRow.Statement (i : Instr) : Prop :=
  encode i &&& (Machine.opcodeRow i).mask = (Machine.opcodeRow i).bits

theorem OpcodeRow.lui (rd : RegIdx) (imm20 : BitVec 20) : OpcodeRow.Statement (.lui rd imm20) :=
  (encU_mask _ _ _).trans rfl

theorem OpcodeRow.auipc (rd : RegIdx) (imm20 : BitVec 20) : OpcodeRow.Statement (.auipc rd imm20) :=
  (encU_mask _ _ _).trans rfl

theorem OpcodeRow.addi (rd rs1 : RegIdx) (imm : Word) : OpcodeRow.Statement (.addi rd rs1 imm) :=
  (encI_mask _ _ _ _ _).trans rfl

theorem OpcodeRow.slti (rd rs1 : RegIdx) (imm : Word) : OpcodeRow.Statement (.slti rd rs1 imm) :=
  (encI_mask _ _ _ _ _).trans rfl

theorem OpcodeRow.sltiu (rd rs1 : RegIdx) (imm : Word) : OpcodeRow.Statement (.sltiu rd rs1 imm) :=
  (encI_mask _ _ _ _ _).trans rfl

theorem OpcodeRow.xori (rd rs1 : RegIdx) (imm : Word) : OpcodeRow.Statement (.xori rd rs1 imm) :=
  (encI_mask _ _ _ _ _).trans rfl

theorem OpcodeRow.ori (rd rs1 : RegIdx) (imm : Word) : OpcodeRow.Statement (.ori rd rs1 imm) :=
  (encI_mask _ _ _ _ _).trans rfl

theorem OpcodeRow.andi (rd rs1 : RegIdx) (imm : Word) : OpcodeRow.Statement (.andi rd rs1 imm) :=
  (encI_mask _ _ _ _ _).trans rfl

theorem OpcodeRow.slli (rd rs1 : RegIdx) (shamt : BitVec 5) : OpcodeRow.Statement (.slli rd rs1 shamt) :=
  (encR_mask _ _ _ _ _ _).trans rfl

theorem OpcodeRow.srli (rd rs1 : RegIdx) (shamt : BitVec 5) : OpcodeRow.Statement (.srli rd rs1 shamt) :=
  (encR_mask _ _ _ _ _ _).trans rfl

theorem OpcodeRow.srai (rd rs1 : RegIdx) (shamt : BitVec 5) : OpcodeRow.Statement (.srai rd rs1 shamt) :=
  (encR_mask _ _ _ _ _ _).trans rfl

theorem OpcodeRow.add (rd rs1 rs2 : RegIdx) : OpcodeRow.Statement (.add rd rs1 rs2) :=
  (encR_mask _ _ _ _ _ _).trans rfl

theorem OpcodeRow.sub (rd rs1 rs2 : RegIdx) : OpcodeRow.Statement (.sub rd rs1 rs2) :=
  (encR_mask _ _ _ _ _ _).trans rfl

theorem OpcodeRow.sll (rd rs1 rs2 : RegIdx) : OpcodeRow.Statement (.sll rd rs1 rs2) :=
  (encR_mask _ _ _ _ _ _).trans rfl

theorem OpcodeRow.slt (rd rs1 rs2 : RegIdx) : OpcodeRow.Statement (.slt rd rs1 rs2) :=
  (encR_mask _ _ _ _ _ _).trans rfl

theorem OpcodeRow.sltu (rd rs1 rs2 : RegIdx) : OpcodeRow.Statement (.sltu rd rs1 rs2) :=
  (encR_mask _ _ _ _ _ _).trans rfl

theorem OpcodeRow.xor (rd rs1 rs2 : RegIdx) : OpcodeRow.Statement (.xor rd rs1 rs2) :=
  (encR_mask _ _ _ _ _ _).trans rfl

theorem OpcodeRow.srl (rd rs1 rs2 : RegIdx) : OpcodeRow.Statement (.srl rd rs1 rs2) :=
  (encR_mask _ _ _ _ _ _).trans rfl

theorem OpcodeRow.sra (rd rs1 rs2 : RegIdx) : OpcodeRow.Statement (.sra rd rs1 rs2) :=
  (encR_mask _ _ _ _ _ _).trans rfl

theorem OpcodeRow.or (rd rs1 rs2 : RegIdx) : OpcodeRow.Statement (.or rd rs1 rs2) :=
  (encR_mask _ _ _ _ _ _).trans rfl

theorem OpcodeRow.and (rd rs1 rs2 : RegIdx) : OpcodeRow.Statement (.and rd rs1 rs2) :=
  (encR_mask _ _ _ _ _ _).trans rfl

theorem OpcodeRow.jal (rd : RegIdx) (imm : Word) : OpcodeRow.Statement (.jal rd imm) :=
  (encJ_mask _ _ _).trans rfl

theorem OpcodeRow.jalr (rd rs1 : RegIdx) (imm : Word) : OpcodeRow.Statement (.jalr rd rs1 imm) :=
  (encI_mask _ _ _ _ _).trans rfl

theorem OpcodeRow.beq (rs1 rs2 : RegIdx) (imm : Word) : OpcodeRow.Statement (.beq rs1 rs2 imm) :=
  (encB_mask _ _ _ _ _).trans rfl

theorem OpcodeRow.bne (rs1 rs2 : RegIdx) (imm : Word) : OpcodeRow.Statement (.bne rs1 rs2 imm) :=
  (encB_mask _ _ _ _ _).trans rfl

theorem OpcodeRow.blt (rs1 rs2 : RegIdx) (imm : Word) : OpcodeRow.Statement (.blt rs1 rs2 imm) :=
  (encB_mask _ _ _ _ _).trans rfl

theorem OpcodeRow.bge (rs1 rs2 : RegIdx) (imm : Word) : OpcodeRow.Statement (.bge rs1 rs2 imm) :=
  (encB_mask _ _ _ _ _).trans rfl

theorem OpcodeRow.bltu (rs1 rs2 : RegIdx) (imm : Word) : OpcodeRow.Statement (.bltu rs1 rs2 imm) :=
  (encB_mask _ _ _ _ _).trans rfl

theorem OpcodeRow.bgeu (rs1 rs2 : RegIdx) (imm : Word) : OpcodeRow.Statement (.bgeu rs1 rs2 imm) :=
  (encB_mask _ _ _ _ _).trans rfl

theorem OpcodeRow.lb (rd rs1 : RegIdx) (imm : Word) : OpcodeRow.Statement (.lb rd rs1 imm) :=
  (encI_mask _ _ _ _ _).trans rfl

theorem OpcodeRow.lh (rd rs1 : RegIdx) (imm : Word) : OpcodeRow.Statement (.lh rd rs1 imm) :=
  (encI_mask _ _ _ _ _).trans rfl

theorem OpcodeRow.lw (rd rs1 : RegIdx) (imm : Word) : OpcodeRow.Statement (.lw rd rs1 imm) :=
  (encI_mask _ _ _ _ _).trans rfl

theorem OpcodeRow.lbu (rd rs1 : RegIdx) (imm : Word) : OpcodeRow.Statement (.lbu rd rs1 imm) :=
  (encI_mask _ _ _ _ _).trans rfl

theorem OpcodeRow.lhu (rd rs1 : RegIdx) (imm : Word) : OpcodeRow.Statement (.lhu rd rs1 imm) :=
  (encI_mask _ _ _ _ _).trans rfl

theorem OpcodeRow.sb (rs1 rs2 : RegIdx) (imm : Word) : OpcodeRow.Statement (.sb rs1 rs2 imm) :=
  (encS_mask _ _ _ _ _).trans rfl

theorem OpcodeRow.sh (rs1 rs2 : RegIdx) (imm : Word) : OpcodeRow.Statement (.sh rs1 rs2 imm) :=
  (encS_mask _ _ _ _ _).trans rfl

theorem OpcodeRow.sw (rs1 rs2 : RegIdx) (imm : Word) : OpcodeRow.Statement (.sw rs1 rs2 imm) :=
  (encS_mask _ _ _ _ _).trans rfl

theorem OpcodeRow.mul (rd rs1 rs2 : RegIdx) : OpcodeRow.Statement (.mul rd rs1 rs2) :=
  (encR_mask _ _ _ _ _ _).trans rfl

theorem OpcodeRow.mulh (rd rs1 rs2 : RegIdx) : OpcodeRow.Statement (.mulh rd rs1 rs2) :=
  (encR_mask _ _ _ _ _ _).trans rfl

theorem OpcodeRow.mulhsu (rd rs1 rs2 : RegIdx) : OpcodeRow.Statement (.mulhsu rd rs1 rs2) :=
  (encR_mask _ _ _ _ _ _).trans rfl

theorem OpcodeRow.mulhu (rd rs1 rs2 : RegIdx) : OpcodeRow.Statement (.mulhu rd rs1 rs2) :=
  (encR_mask _ _ _ _ _ _).trans rfl

theorem OpcodeRow.div (rd rs1 rs2 : RegIdx) : OpcodeRow.Statement (.div rd rs1 rs2) :=
  (encR_mask _ _ _ _ _ _).trans rfl

theorem OpcodeRow.divu (rd rs1 rs2 : RegIdx) : OpcodeRow.Statement (.divu rd rs1 rs2) :=
  (encR_mask _ _ _ _ _ _).trans rfl

theorem OpcodeRow.rem (rd rs1 rs2 : RegIdx) : OpcodeRow.Statement (.rem rd rs1 rs2) :=
  (encR_mask _ _ _ _ _ _).trans rfl

theorem OpcodeRow.remu (rd rs1 rs2 : RegIdx) : OpcodeRow.Statement (.remu rd rs1 rs2) :=
  (encR_mask _ _ _ _ _ _).trans rfl

theorem OpcodeRow.fence (fm pred succ : BitVec 4) (rs1 rd : RegIdx) : OpcodeRow.Statement (.fence fm pred succ rs1 rd) :=
  (encI_mask _ _ _ _ _).trans rfl

theorem OpcodeRow.fenceI (imm : Word) (rs1 rd : RegIdx) : OpcodeRow.Statement (.fenceI imm rs1 rd) :=
  (encI_mask _ _ _ _ _).trans rfl

theorem OpcodeRow.csrrw (rd rs1 : RegIdx) (csr : CsrAddr) : OpcodeRow.Statement (.csrrw rd rs1 csr) :=
  (encI_mask _ _ _ _ _).trans rfl

theorem OpcodeRow.csrrs (rd rs1 : RegIdx) (csr : CsrAddr) : OpcodeRow.Statement (.csrrs rd rs1 csr) :=
  (encI_mask _ _ _ _ _).trans rfl

theorem OpcodeRow.csrrc (rd rs1 : RegIdx) (csr : CsrAddr) : OpcodeRow.Statement (.csrrc rd rs1 csr) :=
  (encI_mask _ _ _ _ _).trans rfl

theorem OpcodeRow.csrrwi (rd : RegIdx) (zimm : BitVec 5) (csr : CsrAddr) : OpcodeRow.Statement (.csrrwi rd zimm csr) :=
  (encI_mask _ _ _ _ _).trans rfl

theorem OpcodeRow.csrrsi (rd : RegIdx) (zimm : BitVec 5) (csr : CsrAddr) : OpcodeRow.Statement (.csrrsi rd zimm csr) :=
  (encI_mask _ _ _ _ _).trans rfl

theorem OpcodeRow.csrrci (rd : RegIdx) (zimm : BitVec 5) (csr : CsrAddr) : OpcodeRow.Statement (.csrrci rd zimm csr) :=
  (encI_mask _ _ _ _ _).trans rfl

theorem OpcodeRow.ecall : OpcodeRow.Statement .ecall := rfl

theorem OpcodeRow.mret : OpcodeRow.Statement .mret := rfl

end Sys2Proof.Laws
end

