-- ==== Sys2Proof/Tests/Slice0.lean ====
section
/-! SUPPORT. Tests of one step, with expected results from spec/95_test_vectors.md (the section is named at each group),
encodings written out field by field from spec/30_encoding.md and spec/opcode_table.json, and for each statement of
Sys2Proof/Certificates/Slice0/Obligations.lean a witness that meets its hypotheses. -/

namespace Sys2Proof.Tests
open Sys2Proof Sys2Proof.Machine

/-! ### Well-formedness: an ill-formed term for each check -/

/-- I and S immediates are -2048 to 2047: 2048 and -2049 do not fit (R113, R114). -/
theorem test_wellFormed_rejects_I_and_S :
    ([0x800, 0xFFFFF7FF] : List Word).all (fun imm =>
      [Instr.addi 1 2 imm, .slti 1 2 imm, .sltiu 1 2 imm, .xori 1 2 imm, .ori 1 2 imm, .andi 1 2 imm, .jalr 1 2 imm,
        .lb 1 2 imm, .lh 1 2 imm, .lw 1 2 imm, .lbu 1 2 imm, .lhu 1 2 imm, .sb 1 2 imm, .sh 1 2 imm, .sw 1 2 imm,
        .fenceI imm 0 0].all (fun i => !i.wellFormed)) = true := by decide

/-- B immediates are even, -4096 to 4094 (R115). -/
theorem test_wellFormed_rejects_B :
    ([3, 0x1000, 0xFFFFEFFE] : List Word).all (fun imm =>
      [Instr.beq 1 2 imm, .bne 1 2 imm, .blt 1 2 imm, .bge 1 2 imm, .bltu 1 2 imm, .bgeu 1 2 imm].all
        (fun i => !i.wellFormed)) = true := by decide

/-- J immediates are even, -1048576 to 1048574 (R117). -/
theorem test_wellFormed_rejects_J :
    ([1, 0x100000, 0xFFEFFFFE] : List Word).all (fun imm => !(Instr.jal 1 imm).wellFormed) = true := by decide

/-! ### Decoding: a word of every instruction, bit by bit -/

/-- The word decodes to the instruction, is its encoding, and has the fixed bits of its row of the opcode table. -/
def isWordOf (p : Word × Instr) : Bool :=
  decide (decodeWord p.1 = .record p.2 ∧ encode p.2 = p.1 ∧ p.2.wellFormed = true ∧
    p.1 &&& (opcodeRow p.2).mask = (opcodeRow p.2).bits)

theorem test_decode_upper : [
    (0b00010010001101000101_00101_0110111, Instr.lui 5 0x12345),
    (0b11111111111111111111_00110_0010111, .auipc 6 0xFFFFF)].all isWordOf = true := by decide

theorem test_decode_immediate : [
    (0b111111111111_00000_000_00001_0010011, Instr.addi 1 0 0xFFFFFFFF),
    (0b011111111111_00010_010_00001_0010011, .slti 1 2 0x7FF),
    (0b100000000000_00010_011_00001_0010011, .sltiu 1 2 0xFFFFF800),
    (0b000000001111_00010_100_00001_0010011, .xori 1 2 0xF),
    (0b011111111111_00010_110_00001_0010011, .ori 1 2 0x7FF),
    (0b111111110000_00010_111_00001_0010011, .andi 1 2 0xFFFFFFF0),
    (0b0000000_11111_00010_001_00001_0010011, .slli 1 2 31),
    (0b0000000_11111_00010_101_00001_0010011, .srli 1 2 31),
    (0b0100000_11111_00001_101_00100_0010011, .srai 4 1 31)].all isWordOf = true := by decide

theorem test_decode_register : [
    (0b0000000_00010_00001_000_00011_0110011, Instr.add 3 1 2),
    (0b0100000_00010_00001_000_00011_0110011, .sub 3 1 2),
    (0b0000000_00010_00001_001_00011_0110011, .sll 3 1 2),
    (0b0000000_00010_00001_010_00011_0110011, .slt 3 1 2),
    (0b0000000_00010_00001_011_00011_0110011, .sltu 3 1 2),
    (0b0000000_00010_00001_100_00011_0110011, .xor 3 1 2),
    (0b0000000_00010_00001_101_00011_0110011, .srl 3 1 2),
    (0b0100000_00010_00001_101_00011_0110011, .sra 3 1 2),
    (0b0000000_00010_00001_110_00011_0110011, .or 3 1 2),
    (0b0000000_00010_00001_111_00011_0110011, .and 3 1 2)].all isWordOf = true := by decide

theorem test_decode_control : [
    (0b0_1001010101_1_01010101_00001_1101111, Instr.jal 1 0x55CAA),
    (0b000000000100_00001_000_00011_1100111, .jalr 3 1 4),
    (0b1_111111_00010_00001_000_1100_1_1100011, .beq 1 2 0xFFFFFFF8),
    (0b0_000000_00010_00001_001_1000_0_1100011, .bne 1 2 16),
    (0b0_010101_00010_00001_100_0001_1_1100011, .blt 1 2 0xAA2),
    (0b1_000000_00010_00001_101_0000_0_1100011, .bge 1 2 0xFFFFF000),
    (0b0_111111_00010_00001_110_1111_1_1100011, .bltu 1 2 0xFFE),
    (0b0_000001_00010_00001_111_0000_0_1100011, .bgeu 1 2 0x20)].all isWordOf = true := by decide

theorem test_decode_memory : [
    (0b000000000001_00001_000_00101_0000011, Instr.lb 5 1 1),
    (0b000000000010_00001_001_00101_0000011, .lh 5 1 2),
    (0b111111111100_00010_010_00101_0000011, .lw 5 2 0xFFFFFFFC),
    (0b000000000011_00001_100_00101_0000011, .lbu 5 1 3),
    (0b100000000000_00001_101_00101_0000011, .lhu 5 1 0xFFFFF800),
    (0b0000000_00010_00001_000_00001_0100011, .sb 1 2 1),
    (0b1000000_00010_00001_001_00000_0100011, .sh 1 2 0xFFFFF800),
    (0b0111111_00010_00001_010_11101_0100011, .sw 1 2 0x7FD)].all isWordOf = true := by decide

theorem test_decode_muldiv : [
    (0b0000001_00010_00001_000_00011_0110011, Instr.mul 3 1 2),
    (0b0000001_00010_00001_001_00011_0110011, .mulh 3 1 2),
    (0b0000001_00010_00001_010_00011_0110011, .mulhsu 3 1 2),
    (0b0000001_00010_00001_011_00011_0110011, .mulhu 3 1 2),
    (0b0000001_00010_00001_100_00011_0110011, .div 3 1 2),
    (0b0000001_00010_00001_101_00011_0110011, .divu 3 1 2),
    (0b0000001_00010_00001_110_00011_0110011, .rem 3 1 2),
    (0b0000001_00010_00001_111_00011_0110011, .remu 3 1 2)].all isWordOf = true := by decide

theorem test_decode_fence : [
    (0b1000_0011_0101_00010_000_00001_0001111, Instr.fence 8 3 5 2 1),
    (0b000000000000_00000_001_00000_0001111, .fenceI 0 0 0)].all isWordOf = true := by decide

theorem test_decode_system : [
    (0b001101000000_00110_001_00101_1110011, Instr.csrrw 5 6 0x340),
    (0b001100000000_00110_010_00101_1110011, .csrrs 5 6 0x300),
    (0b110000000001_00110_011_00101_1110011, .csrrc 5 6 0xC01),
    (0b001101000011_00001_101_00101_1110011, .csrrwi 5 1 0x343),
    (0b001100000100_11111_110_00000_1110011, .csrrsi 0 31 0x304),
    (0b001100000000_01000_111_00101_1110011, .csrrci 5 8 0x300),
    (0b000000000000_00000_000_00000_1110011, .ecall),
    (0b001100000010_00000_000_00000_1110011, .mret)].all isWordOf = true := by decide

/-- The immediates of 95_test_vectors §S1, at the ends of each format's range. -/
theorem test_decode_immediate_extremes : [
    (0x80000013, Instr.addi 0 0 0xFFFFF800), (0x7FF00013, .addi 0 0 0x7FF),
    (0x80002023, .sw 0 0 0xFFFFF800), (0xFE002FA3, .sw 0 0 0xFFFFFFFF), (0x7E002FA3, .sw 0 0 0x7FF),
    (0x80000063, .beq 0 0 0xFFFFF000), (0xFE000FE3, .beq 0 0 0xFFFFFFFE), (0x00000163, .beq 0 0 2),
    (0x7E000FE3, .beq 0 0 0xFFE),
    (0x8000006F, .jal 0 0xFFF00000), (0xFFFFF06F, .jal 0 0xFFFFFFFE), (0x0020006F, .jal 0 2),
    (0x7FFFF06F, .jal 0 0xFFFFE), (0x80000037, .lui 0 0x80000)].all isWordOf = true := by decide

/-- Illegal words (95_test_vectors §2.5, §2.8). -/
theorem test_decode_illegal :
    ([0x00000000, 0xFFFFFFFF, 0x0000B283, 0x0020B023, 0x00002463, 0x00004073, 0x0000202F, 0x0000200F] : List Word).all
      (fun w => decide (decodeWord w = .empty)) = true := by decide

/-- Unsettled words: EBREAK, WFI, and reserved funct7 and funct3 fields (95_test_vectors §2.8). -/
theorem test_decode_unsettled :
    ([0x00100073, 0x10500073, 0x02111093, 0x802081B3, 0x000090E7] : List Word).all
      (fun w => decide (decodeWord w = .unsettled)) = true := by decide

/-- Bytes decode little-endian, and fewer than four do not decode (R75, R110). -/
theorem test_decode_bytes :
    (decode [0x93, 0x00, 0xF0, 0xFF, 0x07]).toOption = some (.addi 1 0 0xFFFFFFFF, [0x07]) ∧
    (decode [0x93, 0x00, 0xF0]).toOption = none := by decide

/-! ### One step -/

/-- The state before each vector (95_test_vectors, "Conventions"): pc 0x100, memLen 0x1000, HEAP_LIMIT 0x1100. -/
def base : State :=
  { State.reset with
    regs := resetRegs 0x1000
    pc := 0x100
    mem := { fill := [], cells := [], len := 0x1000 }
    launch := { Launch.atReset with programSize := 0x300, stackSize := 0xD00, heapSize := 0x100 } }

/-- Registers given values. -/
def put : List (RegIdx × Word) → State → State
  | [], s => s
  | (r, v) :: rest, s => put rest (s.writeReg r v)

/-- CSR cells given values. -/
def putCsr : List (CsrName × Word) → State → State
  | [], s => s
  | (n, v) :: rest, s => putCsr rest { s with csr := s.csr.put n v }

/-- The vector's word at the pc. -/
def load (w : Nat) (s : State) : State := s.withFetchWord 32 w

/-- Part of the state after one step, if the step has a successor. -/
def view {α : Type} (s : State) (f : State → α) : Option α :=
  match step s with
  | .next t => some (f t)
  | .fault _ => none
  | .refused _ => none

/-- The pc and a register after running a word with these registers. -/
def result (w : Nat) (ins : List (RegIdx × Word)) (rd : RegIdx) : Option (Word × Word) :=
  view (load w (put ins base)) (fun t => (t.pc, t.cell rd))

/-- The pc after running a word with these registers. -/
def target (w : Nat) (ins : List (RegIdx × Word)) : Option Word := view (load w (put ins base)) (fun t => t.pc)

/-! 95_test_vectors §2.1 -/

theorem test_lui : result 0xFFFFF2B7 [] 5 = some (0x104, 0xFFFFF000) := by decide
theorem test_auipc_wraps : result 0xFFFFF317 [] 6 = some (0x104, 0xFFFFF100) := by decide
theorem test_addi_wraps : result 0x00108093 [(1, 0x7FFFFFFF)] 1 = some (0x104, 0x80000000) := by decide
theorem test_addi_x0_is_stored : result 0x00500013 [] 0 = some (0x104, 5) := by decide
theorem test_slti_signed : result 0x00012093 [(2, 0xFFFFFFFF)] 1 = some (0x104, 1) := by decide
theorem test_sltiu_extends_then_compares : result 0xFFF13093 [(2, 0xFFFFFFFE)] 1 = some (0x104, 1) := by decide
theorem test_sltiu_not_less : result 0x00113093 [(2, 5)] 1 = some (0x104, 0) := by decide
theorem test_xori : result 0xFFF14093 [(2, 0x0F0F0F0F)] 1 = some (0x104, 0xF0F0F0F0) := by decide
theorem test_ori : result 0x7FF16093 [(2, 0x80000000)] 1 = some (0x104, 0x800007FF) := by decide
theorem test_andi : result 0xFF017093 [(2, 0xFFFFFFFF)] 1 = some (0x104, 0xFFFFFFF0) := by decide
theorem test_slli : result 0x01F11093 [(2, 1)] 1 = some (0x104, 0x80000000) := by decide
theorem test_srli : result 0x01F15093 [(2, 0x80000000)] 1 = some (0x104, 1) := by decide
theorem test_srai_negative : result 0x41F15093 [(2, 0x80000000)] 1 = some (0x104, 0xFFFFFFFF) := by decide
theorem test_srai_positive : result 0x40415093 [(2, 0x7FFFFFF0)] 1 = some (0x104, 0x07FFFFFF) := by decide
theorem test_add_wraps : result 0x002081B3 [(1, 0xFFFFFFFF), (2, 1)] 3 = some (0x104, 0) := by decide
theorem test_add_reads_x0_as_zero : result 0x000001B3 [(0, 5), (3, 9)] 3 = some (0x104, 0) := by decide
theorem test_sub_wraps : result 0x402081B3 [(1, 0), (2, 1)] 3 = some (0x104, 0xFFFFFFFF) := by decide
theorem test_sll_by_33 : result 0x002091B3 [(1, 1), (2, 0x21)] 3 = some (0x104, 2) := by decide
theorem test_slt : result 0x0020A1B3 [(1, 0x80000000), (2, 1)] 3 = some (0x104, 1) := by decide
theorem test_sltu : result 0x0020B1B3 [(1, 0x80000000), (2, 1)] 3 = some (0x104, 0) := by decide
theorem test_xor : result 0x0010C1B3 [(1, 0xDEADBEEF)] 3 = some (0x104, 0) := by decide
theorem test_srl : result 0x0020D1B3 [(1, 0x80000000), (2, 0xFFFFFFFF)] 3 = some (0x104, 1) := by decide
theorem test_sra : result 0x4020D1B3 [(1, 0x80000000), (2, 4)] 3 = some (0x104, 0xF8000000) := by decide
theorem test_sra_by_32 : result 0x4020D1B3 [(1, 0x80000000), (2, 0xFFFFFFE0)] 3 = some (0x104, 0x80000000) := by decide
theorem test_or : result 0x0020E1B3 [(1, 0xF0F00000), (2, 0x0F0F)] 3 = some (0x104, 0xF0F00F0F) := by decide
theorem test_and : result 0x0020F1B3 [(1, 0xFF00FF00), (2, 0x0FF00FF0)] 3 = some (0x104, 0x0F000F00) := by decide

/-! 95_test_vectors §2.2 -/

theorem test_jal : result 0x008000EF [] 1 = some (0x108, 0x104) := by decide
theorem test_jal_wraps_below_zero : result 0xEFDFF06F [] 0 = some (0xFFFFFFFC, 0x104) := by decide
theorem test_jalr_rd_is_rs1 : result 0x004080E7 [(1, 0x300)] 1 = some (0x304, 0x104) := by decide
theorem test_jalr_clears_bit_zero_only : target 0xFFF28067 [(5, 0)] = some 0xFFFFFFFE := by decide
theorem test_beq_taken : target 0x00208863 [(1, 3), (2, 3)] = some 0x110 := by decide
theorem test_beq_not_taken : target 0x00208863 [(1, 3), (2, 4)] = some 0x104 := by decide
theorem test_bne_backward : target 0xFE209CE3 [(1, 3), (2, 4)] = some 0xF8 := by decide
theorem test_blt_signed : target 0x0020C863 [(1, 0x80000000), (2, 1)] = some 0x110 := by decide
theorem test_bltu_unsigned : target 0x0020E863 [(1, 0x80000000), (2, 1)] = some 0x104 := by decide
theorem test_bge_equal : target 0x0020D863 [(1, 5), (2, 5)] = some 0x110 := by decide
theorem test_bge_signed : target 0x0020D863 [(1, 0xFFFFFFFF), (2, 0)] = some 0x104 := by decide
theorem test_bgeu_unsigned : target 0x0020F863 [(1, 0xFFFFFFFF), (2, 0)] = some 0x110 := by decide

/-! 95_test_vectors §2.3 -/

/-- The buffer of §2.3: bytes 80 FF 34 12 at 0x200, and x1 = 0x200. -/
def buffer : State :=
  put [(1, 0x200)]
    { base with mem := { fill := [], cells := [(0x200, 0x80), (0x201, 0xFF), (0x202, 0x34), (0x203, 0x12)], len := 0x1000 } }

/-- The pc and x5 after a load. -/
def loaded (w : Nat) (ins : List (RegIdx × Word)) : Option (Word × Word) :=
  view (load w (put ins buffer)) (fun t => (t.pc, t.cell 5))

/-- The pc, mcause and mepc after an access that traps, with x5. -/
def trapped (w : Nat) (ins : List (RegIdx × Word)) : Option (Word × Word × Word × Word) :=
  view (load w (put ins buffer)) (fun t => (t.pc, t.csr.mcause, t.csr.mepc, t.cell 5))

/-- The pc and the bytes at 0x200 to 0x203 after a store. -/
def bytesAfter (w : Nat) (ins : List (RegIdx × Word)) : Option (Word × List Byte) :=
  view (load w (put ins buffer)) (fun t => (t.pc, [0x200, 0x201, 0x202, 0x203].map t.mem.read))

theorem test_lb : loaded 0x00108283 [] = some (0x104, 0xFFFFFFFF) := by decide
theorem test_lb_top_of_memory_faults : trapped 0xFFF00283 [(5, 0x55)] = some (0, 5, 0x100, 0x55) := by decide
theorem test_lbu : loaded 0x0000C283 [] = some (0x104, 0x80) := by decide
theorem test_lh : loaded 0x00009283 [] = some (0x104, 0xFFFFFF80) ∧
    trapped 0x00109283 [(5, 0x55)] = some (0, 4, 0x100, 0x55) := by decide
theorem test_lhu : loaded 0x0000D283 [] = some (0x104, 0xFF80) := by decide
theorem test_lw_little_endian : loaded 0x0000A283 [] = some (0x104, 0x1234FF80) := by decide
theorem test_lw_at_memLen_faults : trapped 0x00032283 [(6, 0x1000), (5, 0x55)] = some (0, 5, 0x100, 0x55) := by decide
theorem test_sb : bytesAfter 0x002080A3 [(2, 0xABCDEF12)] = some (0x104, [0x80, 0x12, 0x34, 0x12]) := by decide
/-- A misaligned store has the load code. -/
theorem test_sh : bytesAfter 0x00209123 [(2, 0xABCD5678)] = some (0x104, [0x80, 0xFF, 0x78, 0x56]) ∧
    trapped 0x002090A3 [(2, 0xABCD5678), (5, 0x55)] = some (0, 4, 0x100, 0x55) := by decide
theorem test_sw : bytesAfter 0x0020A023 [(2, 0xCAFEF00D)] = some (0x104, [0x0D, 0xF0, 0xFE, 0xCA]) := by decide
theorem test_sw_at_memLen_faults : trapped 0x00232023 [(2, 1), (6, 0x1000), (5, 0x55)] = some (0, 7, 0x100, 0x55) := by
  decide

/-- The hooks of §2.3, at base 0x10000000. -/
def hooked : State := { base with launch := { base.launch with loadHook := some 0x10000000, storeHook := some 0x10000000 } }

/-- The machine with the hooks, and x6 at their base. -/
def atHook : State := put [(2, 0xABCD5678), (6, 0x10000000)] hooked

/-- LBU through the hook writes the hook's value as it is; the hook is called with (0x10000000, 1, false). -/
theorem test_lbu_hook (v : Word) (h : Config.loadAnswer [] 0x10000000 .byte false = some v) :
    ∃ t, exec (.lbu 5 6 0) atHook = .next t ∧ t.pc = 0x104 ∧ t.cell 5 = v ∧
      t.hookLog = [.load 0x10000000 .byte false (some v)] := by
  have e := State.memRead_hook atHook (addr := 0x10000000) (w := .byte) rfl ⟨0x10000000, rfl, Nat.le_refl _⟩ false
  rw [show atHook.hookLog = [] from rfl, h] at e
  exact ⟨((atHook.recordCall (.load 0x10000000 .byte false (some v))).writeReg 5 v).advance,
    (by show execLoad 5 0x10000000 .byte false atHook = _; simp only [execLoad, e]), rfl,
    State.cell_writeReg_self _ 5 v, rfl⟩

/-- SH through the hook gives it the low halfword; no byte of the buffer is written (D22). -/
theorem test_sh_hook (h : Config.storeAnswer [] 0x10000004 .half 0x5678 = true) :
    ∃ t, exec (.sh 6 2 4) atHook = .next t ∧ t.pc = 0x104 ∧ t.mem = atHook.mem ∧
      t.hookLog = [.store 0x10000004 .half 0x5678 true] := by
  have e := State.memWrite_hook atHook (addr := 0x10000004) (w := .half) rfl ⟨0x10000000, rfl, by decide⟩ 0xABCD5678
  rw [show atHook.hookLog = [] from rfl, show hookValue .half 0xABCD5678 = (0x5678 : Word) from rfl, h] at e
  exact ⟨(atHook.recordCall (.store 0x10000004 .half 0x5678 true)).advance,
    (by show execStore 0x10000004 .half 0xABCD5678 atHook = _; simp only [execStore, e]), rfl, rfl, rfl⟩

/-- A misaligned access does not call the hook. -/
theorem test_lh_hook_misaligned :
    view (load 0x00131283 (put [(6, 0x10000000)] hooked)) (fun t => (t.csr.mcause, t.hookLog)) = some (4, []) := by decide

/-! 95_test_vectors §2.4 -/

theorem test_mul : result 0x022081B3 [(1, 0x12345678), (2, 0x9ABCDEF0)] 3 = some (0x104, 0x242D2080) := by decide
theorem test_mulh : result 0x022091B3 [(1, 0x80000000), (2, 0x7FFFFFFF)] 3 = some (0x104, 0xC0000000) := by decide
theorem test_mulhsu : result 0x0220A1B3 [(1, 0xFFFFFFFF), (2, 0xFFFFFFFF)] 3 = some (0x104, 0xFFFFFFFF) := by decide
theorem test_mulhu : result 0x0220B1B3 [(1, 0xFFFFFFFF), (2, 0xFFFFFFFF)] 3 = some (0x104, 0xFFFFFFFE) := by decide
theorem test_div_toward_zero : result 0x0220C1B3 [(1, 0xFFFFFFF9), (2, 2)] 3 = some (0x104, 0xFFFFFFFD) := by decide
theorem test_div_overflow : result 0x0220C1B3 [(1, 0x80000000), (2, 0xFFFFFFFF)] 3 = some (0x104, 0x80000000) := by
  decide
theorem test_divu : result 0x0220D1B3 [(1, 0xFFFFFFF9), (2, 2)] 3 = some (0x104, 0x7FFFFFFC) := by decide
theorem test_divu_by_zero : result 0x0220D1B3 [(1, 7), (2, 0)] 3 = some (0x104, 0xFFFFFFFF) := by decide
theorem test_rem_sign_of_dividend : result 0x0220E1B3 [(1, 0xFFFFFFF9), (2, 2)] 3 = some (0x104, 0xFFFFFFFF) := by decide
theorem test_rem_by_zero : result 0x0220E1B3 [(1, 0x80000000), (2, 0)] 3 = some (0x104, 0x80000000) := by decide
theorem test_remu : result 0x0220F1B3 [(1, 0xFFFFFFF9), (2, 2)] 3 = some (0x104, 1) := by decide
theorem test_remu_by_zero : result 0x0220F1B3 [(1, 7), (2, 0)] 3 = some (0x104, 7) := by decide

/-! 95_test_vectors §2.5: nothing but the pc and the count changes -/

theorem test_fence : step (load 0x8330000F (put [(1, 1)] base)) =
    .next ((load 0x8330000F (put [(1, 1)] base)).clearX0.advance.countCycle) := by rfl
theorem test_fence_i : step (load 0x0000100F base) = .next ((load 0x0000100F base).clearX0.advance.countCycle) := by rfl

/-! 95_test_vectors §2.6 -/

/-- The pc, a register and a CSR cell after running a word. -/
def csrResult (w : Nat) (ins : List (RegIdx × Word)) (cells : List (CsrName × Word)) (rd : RegIdx) (n : CsrName) :
    Option (Word × Word × Word) :=
  view (load w (putCsr cells (put ins base))) (fun t => (t.pc, t.cell rd, t.csr.get n))

theorem test_csrrw_swaps : csrResult 0x340292F3 [(5, 0x22)] [(.mscratch, 0x11)] 5 .mscratch = some (0x104, 0x11, 0x22) := by
  decide
theorem test_csrrw_rs1_zero_writes_nothing :
    csrResult 0x340012F3 [] [(.mscratch, 0x11)] 5 .mscratch = some (0x104, 0x11, 0x11) := by decide
theorem test_csrrs : csrResult 0x300322F3 [(6, 8)] [(.mstatus, 0x80)] 5 .mstatus = some (0x104, 0x80, 0x88) ∧
    view (load 0xC00022F3 (putCsr [(.mstatus, 8), (.mtval, 3), (.mtvec, 0x40)] (put [(5, 0x55)] base)))
      (fun t => (t.pc, t.csr.mstatus, t.csr.mepc, t.csr.mcause, t.csr.mtval, t.cell 5)) =
      some (0x40, 0x80, 0x100, 2, 0, 0x55) := by decide
theorem test_csrrc : csrResult 0x300332F3 [(6, 0x88)] [(.mstatus, 0x1888)] 5 .mstatus = some (0x104, 0x1888, 0x1800) := by
  decide
theorem test_csrrwi : csrResult 0x3050D073 [] [(.mtvec, 0x40)] 0 .mtvec = some (0x104, 0, 1) := by decide
theorem test_csrrwi_zimm_zero_writes_nothing :
    csrResult 0x343052F3 [] [(.mtval, 9)] 5 .mtval = some (0x104, 9, 9) := by decide
theorem test_csrrsi : csrResult 0x304FE073 [] [] 0 .mie = some (0x104, 0, 0x1F) := by decide
theorem test_csrrci : csrResult 0x300472F3 [] [(.mstatus, 0x88)] 5 .mstatus = some (0x104, 0x88, 0x80) := by decide

/-- The same machine with `CSR_UNRESOLVED = Sink`. -/
def sink : State := { base with launch := { base.launch with csrUnresolved := .sink } }

/-- A read of the sink is a draw, whatever it is. -/
theorem test_csrrs_sink :
    view (load 0xC00022F3 (put [(5, 0x55)] sink)) (fun t => (t.pc, t.cell 5, t.draws)) =
      some (0x104, Config.drawWord 0, 1) := by rfl

/-! 95_test_vectors §2.7 -/

/-- The pc, a0 and memLen after ECALL with this number and argument. -/
def called (num arg : Word) : Option (Word × Word × Nat) :=
  view (load 0x00000073 (put [(17, num), (10, arg)] base)) (fun t => (t.pc, t.cell 10, t.mem.len))

/-- brk, fstat and an unclaimed number. -/
theorem test_ecall : called 214 0 = some (0x104, 0x1000, 0x1000) ∧ called 214 0x1080 = some (0x104, 0x1080, 0x1080) ∧
    called 214 0x2000 = some (0x104, 0x1100, 0x1100) ∧ called 214 0x10 = none ∧ called 214 0x80000000 = none ∧
    called 80 1 = some (0x104, 0xFFFFFFDA, 0x1000) ∧
    view (load 0x00000073 (putCsr [(.mtvec, 0x41), (.mstatus, 8), (.mtval, 5)] (put [(17, 93), (10, 1)] base)))
      (fun t => [t.pc, t.csr.mstatus, t.csr.mepc, t.csr.mcause, t.csr.mtval, t.cell 10]) =
      some [0x40, 0x80, 0x100, 11, 0, 1] := by
  refine ⟨?_, ?_, ?_, ?_, ?_, ?_, ?_⟩ <;> decide
/-- A hook that claims brk is asked before the fallback. -/
theorem test_ecall_hook (v : Word) (h : Config.syscallAnswer [] 214 0 0 0 0 0 0 0 = some v) :
    let s := put [(17, 214)] { base with launch := { base.launch with syscallHook := true } }
    ∃ t, exec .ecall s = .next t ∧ t.pc = 0x104 ∧ t.cell 10 = v ∧ t.mem = s.mem := by
  intro s
  have e : s.callSyscallHook = (some v, s.recordCall (.syscall 214 0 0 0 0 0 0 0 (some v))) := by rw [← h]; rfl
  refine ⟨(s.recordCall (.syscall 214 0 0 0 0 0 0 0 (some v))).answerCall v,
    (by show execEcall s = _; simp only [execEcall, e]; rfl), rfl,
    State.cell_writeReg_self _ 10 v, rfl⟩

theorem test_mret : csrResult 0x30200073 [] [(.mepc, 0x102), (.mstatus, 0x80)] 10 .mstatus = some (0x102, 0, 0x88) := by
  decide
theorem test_mret_copies_mscratch :
    csrResult 0x30200073 [(10, 1)] [(.mepc, 0x104), (.mstatus, 8), (.mtval, 1), (.mscratch, 0x2A)] 10 .mstatus =
      some (0x104, 0x2A, 0) := by decide

/-! 95_test_vectors §2.8: with mtvec = 0x41, mstatus = 8, mtval = 5 -/

/-- The machine before the vectors of §2.8, its decode table covering the image. -/
def beforeTrap (pc : Word) : State :=
  putCsr [(.mtvec, 0x41), (.mstatus, 8), (.mtval, 5)] { base with dt := List.replicate 0xC0 .empty, pc := pc }

/-- What the vectors of §2.8 list. -/
def trapResult (s : State) : Option (List Word) :=
  view s (fun t => [t.pc, t.csr.mstatus, t.csr.mtval, t.csr.mcause, t.csr.mepc])

set_option maxRecDepth 4096 in
theorem test_fetch_misaligned : trapResult (beforeTrap 0x102) = some [0x40, 0x80, 0, 0, 0x102] := by decide
set_option maxRecDepth 4096 in
theorem test_fetch_at_decoded_bytes : trapResult (beforeTrap 0x300) = some [0x40, 0x80, 0, 1, 0x300] := by decide
set_option maxRecDepth 4096 in
theorem test_fetch_top_of_memory : trapResult (beforeTrap 0xFFFFFFFC) = some [0x40, 0x80, 0, 1, 0xFFFFFFFC] := by decide
set_option maxRecDepth 4096 in
theorem test_illegal_word : trapResult (beforeTrap 0x100) = some [0x40, 0x80, 0, 2, 0x100] := by decide
theorem test_unsettled_refuses : step (load 0x00100073 base) = .refused .unsettledEncoding := by rfl

/-! 95_test_vectors §2.9 -/

/-- A machine with a NOP at the pc and an external interrupt of this cause delivered. -/
def interrupted (mstatus mie mtvec pc cause : Word) : State :=
  externalInterrupt cause (load 0x00000013
    (putCsr [(.mstatus, mstatus), (.mie, mie), (.mtvec, mtvec), (.mtval, 5)] { base with pc := pc }))

/-- What the vectors of §2.9 list. -/
def interruptResult (s : State) : Option (List Word) :=
  view s (fun t => [t.pc, t.csr.mcause, t.csr.mepc, t.csr.mstatus, t.csr.mip, t.csr.mtval])

theorem test_interrupt_direct :
    interruptResult (interrupted 8 0x800 0x40 0x100 11) = some [0x40, 0x8000000B, 0x100, 0x80, 0, 5] := by decide
theorem test_interrupt_vectored :
    interruptResult (interrupted 8 0x800 0x41 0x100 3) = some [0x4C, 0x80000003, 0x100, 0x80, 0, 5] := by decide
theorem test_interrupt_large_cause :
    interruptResult (interrupted 8 0x800 0x41 0x100 0x40000000) = some [0x40, 0xC0000000, 0x100, 0x80, 0, 5] := by decide
theorem test_interrupt_cause_bit_31 :
    interruptResult (interrupted 8 0x800 0x41 0x100 0x80000005) = some [0x54, 0x80000005, 0x100, 0x80, 0, 5] := by decide
theorem test_interrupt_last_cause_wins :
    interruptResult (externalInterrupt 3 (interrupted 8 0x800 0x41 0x100 5)) =
      some [0x4C, 0x80000003, 0x100, 0x80, 0, 5] := by decide
theorem test_interrupt_masked :
    interruptResult (interrupted 0 0x800 0x40 0x100 11) = some [0x104, 0, 0, 0, 0x800, 5] ∧
    interruptResult (interrupted 8 0 0x40 0x100 11) = some [0x104, 0, 0, 8, 0x800, 5] := by decide
theorem test_interrupt_before_fetch_checks :
    interruptResult (interrupted 8 0x800 0x40 0x102 11) = some [0x40, 0x8000000B, 0x102, 0x80, 0, 5] := by decide

/-! 95_test_vectors §2.10 and the interface -/

theorem test_reset_registers :
    let t := hostReset { base with launch := { base.launch with programSize := 0x40, stackSize := 0x100, entry := 0x20 } }
    t.cell 2 = 0x140 ∧ t.cell 1 = 0 ∧ t.pc = 0x20 ∧ t.csr = CsrFile.zero ∧ t.mem = base.mem := by decide

/-- From reset nothing is loaded, so the first step raises INST_ACCESS at pc 0 (R142). -/
theorem test_step_from_reset : view State.reset (fun t => (t.pc, t.csr.mcause)) = some (0, 1) := by decide

/-- A word placed by withFetchWord is the first instruction that runs. -/
theorem test_withFetchWord_from_reset :
    decodeTableWord 32 0x00500093 = some (.addi 1 0 5) ∧
    view (State.reset.withFetchWord 32 0x00500093) (fun t => (t.pc, t.cell 1)) = some (4, 5) := by decide

/-- Program P1's first word, brought in as an image: bytes, little-endian, from address 0 (R85, R140). -/
theorem test_initialize_decodes_the_image :
    (match hostInitialize { Launch.atReset with programSize := 4 } [0x93, 0x00, 0x50, 0x00] [] with
    | .next s => s.dt
    | .fault _ => []
    | .refused _ => []) = [.record (.addi 1 0 5), .empty, .empty, .empty] := by rfl

/-! ### The observer (R275, R334) -/

/-- A state runs an instruction from the decode table. -/
def running (i : Instr) : State := { base with dt := List.replicate 0x40 .empty ++ [.record i] }

/-- A sink read reports the value `rd` gets; an update of mscratch reports its input and the resulting cell value. -/
theorem test_observe_csr :
    observe { running (.csrrs 5 0 0xC00) with launch := sink.launch } =
      [.instruction ⟨"CSRRS", .I, 5, 0, 0, 0xFFFFFC00⟩, .csr .read 0xC00 none (Config.drawWord 0)] ∧
    observe (putCsr [(.mscratch, 0x11)] (put [(6, 0x22)] (running (.csrrs 5 6 0x340)))) =
      [.instruction ⟨"CSRRS", .I, 5, 6, 0, 0x340⟩, .csr .read 0x340 none 0x11,
        .csr (.update .set) 0x340 (some 0x22) 0x33] := ⟨by rfl, by rfl⟩

/-- A store's details are reported, also of one that faults. -/
theorem test_observe_store :
    observe (put [(1, 0x200), (2, 0xABCDEF12)] (running (.sb 1 2 1))) =
      [.instruction ⟨"SB", .S, 0, 1, 2, 1⟩, .store 0x201 .byte 0x12] ∧
    observe (put [(1, 0x1000), (2, 7)] (running (.sw 1 2 0))) =
      [.instruction ⟨"SW", .S, 0, 1, 2, 0⟩, .store 0x1000 .word 7, .exception .storeFault] := ⟨by rfl, by rfl⟩

/-! ### Assembler (R134, R135) -/

/-- `li x5, 0x12345FFF`: lo = -1, so hi = 0x12346, by hand. -/
theorem test_pseudo_li : (Pseudo.li 5 0x12345FFF).expand = [.lui 5 0x12346, .addi 5 5 0xFFFFFFFF] ∧
    (Pseudo.li 5 0xFFFFF800).expand = [.addi 5 0 0xFFFFF800] := by decide

/-- `sltu x3, x0, x2` is snez, `fence` is 0x0FF0000F, `csrw mtvec, t0` is 0x30529073 (95_test_vectors §2.1, §2.5, P4). -/
theorem test_pseudo_words : ((Pseudo.snez 3 2).expand ++ Pseudo.fence.expand ++ (Pseudo.csrw 0x305 5).expand).map encode =
    [0x002031B3, 0x0FF0000F, 0x30529073] := by decide

theorem test_register_names : regNamed "a7" = some 17 ∧ regNamed "fp" = some 8 ∧ regNamed "x31" = some 31 ∧
    regNamed "x32" = none ∧ abiName 2 = "sp" := by decide

/-- As 95_test_vectors writes them in P2 and P5. -/
theorem test_asmText : asmText (.sw 10 10 0xFFFFFFFC) = "sw x10, -4(x10)" ∧
    asmText (.csrrs 0 6 0x304) = "csrrs x0, mie, x6" ∧ asmText (.jal 0 0) = "jal x0, 0" := by decide

/-! ### Witnesses: concrete states and operands that meet the hypotheses of each statement -/

theorem witness_DecodeOfEncode :
    ([Instr.addi 31 31 0xFFFFF800, .sw 31 31 0x7FF, .beq 31 31 0xFFFFF000, .jal 31 0xFFFFE, .lui 31 0xFFFFF,
      .srai 31 31 31, .fence 15 15 15 31 31, .csrrwi 31 31 0xFFF, .mret]).all Instr.wellFormed = true := by decide

theorem witness_EncodeOfDecode : decodeWord 0xFE209CE3 = .record (.bne 1 2 0xFFFFFFF8) := by decide

/-- The words of the decode tests above have the fixed bits of their rows; this one fixes them by the format alone. -/
theorem witness_OpcodeTableDecides :
    (0xFFFFFFB7 : Word) &&& (opcodeRow (.lui 0 0)).mask = (opcodeRow (.lui 0 0)).bits ∧
    decodeWord 0xFFFFFFB7 = .record (.lui 31 0xFFFFF) := by decide

theorem witness_StepRunsDecodedInstruction_slot :
    let s := running (.addi 1 0 5);
    s.refused = false ∧ s.interruptReady = false ∧ s.pc.toNat % 4 = 0 ∧
      s.dt[s.pc.toNat / 4]? = some (.record (.addi 1 0 5)) := by decide

theorem witness_StepRunsDecodedInstruction_placed :
    base.refused = false ∧ base.interruptReady = false ∧ base.pc.toNat % 4 = 0 ∧
      decodeTableWord 32 0x30200073 = some .mret := by decide

/-- The machine launched with a two-word image and reset, but for the counter. -/
theorem witness_StepRunsDecodedInstruction_image :
    ∃ s0 s : State,
      hostInitialize { Launch.atReset with programSize := 8, extent := .ceil4 } [0x13, 0, 0, 0, 0x93, 0, 0x50, 0] [] =
        .next s0 ∧
      s.refused = false ∧ s.interruptReady = false ∧ s.pc.toNat % 4 = 0 ∧ s.dt = s0.dt ∧ s.pc = 4 ∧
      s.pc.toNat < Launch.decodedBytes { Launch.atReset with programSize := 8, extent := .ceil4 } ∧
      decode [s0.mem.read s.pc.toNat, s0.mem.read (s.pc.toNat + 1), s0.mem.read (s.pc.toNat + 2),
        s0.mem.read (s.pc.toNat + 3)] = .ok (.addi 1 0 5, []) := by
  refine ⟨_, { State.reset with
    pc := 4, dt := buildDecodeTable (Memory.initial [] [0x13, 0, 0, 0, 0x93, 0, 0x50, 0] 0x110) 8 }, rfl, ?_⟩
  refine ⟨rfl, rfl, rfl, rfl, rfl, by decide, rfl⟩

set_option maxRecDepth 4096 in
theorem witness_FetchChecks :
    (let s := { base with pc := 0x101 };
      s.refused = false ∧ s.interruptReady = false ∧ s.pc.toNat % 4 ≠ 0) ∧
    (let s := beforeTrap 0x300;
      s.refused = false ∧ s.interruptReady = false ∧ s.pc.toNat % 4 = 0 ∧ 4 * s.dt.length = s.pc.toNat) ∧
    (let s := beforeTrap 0x2FC;
      s.refused = false ∧ s.interruptReady = false ∧ s.pc.toNat % 4 = 0 ∧ s.pc.toNat + 4 = 4 * s.dt.length ∧
        s.dt[s.pc.toNat / 4]? = some .empty) ∧
    (let s := load 0x00100073 base;
      s.refused = false ∧ s.interruptReady = false ∧ s.pc.toNat % 4 = 0 ∧ s.pc.toNat + 4 = 4 * s.dt.length ∧
        s.dt[s.pc.toNat / 4]? = some .unsettled) ∧
    (let s := load 0x30200073 base;
      s.refused = false ∧ s.interruptReady = false ∧ s.pc.toNat % 4 = 0 ∧ s.pc.toNat + 4 = 4 * s.dt.length ∧
        s.dt[s.pc.toNat / 4]? = some (.record .mret)) := by decide

theorem witness_RegisterZeroIsHardwired :
    (put [(0, 7)] base).interruptReady = false ∧ (put [(0, 7)] base).refused = false ∧ (31 : RegIdx) ≠ 0 := by decide

/-- The divisor 0; the overflow; and a divisor that is neither, of either sign. -/
theorem witness_Divide :
    (let s := put [(1, 7)] base; s.readReg 2 ≠ 0 ∧ s.readReg 3 = 0) ∧
    (let s := put [(1, 0x80000000), (2, 0xFFFFFFFF)] base; s.readReg 1 = 0x80000000 ∧ s.readReg 2 = 0xFFFFFFFF) ∧
    (let s := put [(1, 0x80000001), (2, 0xFFFFFFFF)] base;
      s.readReg 2 ≠ 0 ∧ ¬(s.readReg 1 = 0x80000000 ∧ s.readReg 2 = 0xFFFFFFFF)) ∧
    (let s := put [(1, 0x80000000), (2, 1)] base;
      s.readReg 2 ≠ 0 ∧ ¬(s.readReg 1 = 0x80000000 ∧ s.readReg 2 = 0xFFFFFFFF)) := by decide

theorem witness_JumpAndLink :
    ∃ u, exec (.jal 1 2) base = .next u ∧ (base.pc + 2).toNat % 4 ≠ 0 ∧ u.refused = false ∧ u.interruptReady = false :=
  ⟨_, rfl, by decide, rfl, rfl⟩

theorem witness_JumpAndLinkRegister :
    ∃ u, exec (.jalr 1 5 0) (put [(5, 0x202)] base) = .next u ∧ u.pc.toNat % 4 ≠ 0 ∧ u.refused = false ∧
      u.interruptReady = false :=
  ⟨_, rfl, by decide, rfl, rfl⟩

/-- Each condition holds somewhere and fails somewhere; equal operands are a boundary of four of them. -/
theorem witness_ConditionalBranches :
    (let s := put [(1, 3), (2, 3)] base;
      s.readReg 1 = s.readReg 2 ∧ ¬(s.readReg 1).toInt < (s.readReg 2).toInt ∧
      (s.readReg 2).toInt ≤ (s.readReg 1).toInt ∧ ¬(s.readReg 1).toNat < (s.readReg 2).toNat ∧
      (s.readReg 2).toNat ≤ (s.readReg 1).toNat) ∧
    (let s := put [(1, 0x80000000), (2, 0x7FFFFFFF)] base;
      s.readReg 1 ≠ s.readReg 2 ∧ (s.readReg 1).toInt < (s.readReg 2).toInt ∧
      ¬(s.readReg 2).toInt ≤ (s.readReg 1).toInt) ∧
    (let s := put [(1, 0x7FFFFFFF), (2, 0x80000000)] base;
      (s.readReg 1).toNat < (s.readReg 2).toNat ∧ ¬(s.readReg 2).toNat ≤ (s.readReg 1).toNat) := by decide

/-- A taken branch to pc + 6. -/
theorem witness_ConditionalBranches_misaligned :
    ∃ u, exec (.beq 0 0 6) base = .next u ∧ u.pc.toNat % 4 ≠ 0 ∧ u.refused = false ∧ u.interruptReady = false :=
  ⟨_, rfl, by decide, rfl, rfl⟩

/-- Misaligned; at the hook's base exactly; the last word inside the buffer and the first outside it. -/
theorem witness_Loads :
    (let s := put [(1, 0xFFE)] base; (s.readReg 1 + 0).toNat % 4 ≠ 0 ∧ (s.readReg 1 + 1).toNat % 2 ≠ 0) ∧
    ((atHook.readReg 6 + 0).toNat % 4 = 0 ∧ HookServes atHook.launch.loadHook (atHook.readReg 6 + 0)) ∧
    (let s := put [(1, 0xFFC)] base;
      (s.readReg 1 + 0).toNat % 4 = 0 ∧ ¬HookServes s.launch.loadHook (s.readReg 1 + 0) ∧
      (s.readReg 1 + 0).toNat + 4 = s.mem.len) ∧
    (let s := put [(1, 0x0FFFFFFF)] hooked;
      (s.readReg 1 + 0).toNat % 1 = 0 ∧ ¬HookServes s.launch.loadHook (s.readReg 1 + 0) ∧
      s.mem.len < (s.readReg 1 + 0).toNat + 1) ∧
    (let s := put [(1, 0x1000)] base;
      (s.readReg 1 + 0).toNat % 1 = 0 ∧ ¬HookServes s.launch.loadHook (s.readReg 1 + 0) ∧
      s.mem.len + 1 = (s.readReg 1 + 0).toNat + 1 ∧ s.mem.len < (s.readReg 1 + 0).toNat + 1) := by
  refine ⟨by decide, ⟨by decide, ⟨0x10000000, rfl, by decide⟩⟩, ⟨by decide, ?_, by decide⟩, ⟨by decide, ?_, by decide⟩,
    ⟨by decide, ?_, by decide, by decide⟩⟩
  · rintro ⟨b, h, _⟩; cases h
  · rintro ⟨b, h, hb⟩; cases h; revert hb; decide
  · rintro ⟨b, h, _⟩; cases h

theorem witness_Stores :
    (let s := put [(1, 0xFFE)] base; (s.readReg 1 + 0).toNat % 4 ≠ 0 ∧ (s.readReg 1 + 1).toNat % 2 ≠ 0) ∧
    ((atHook.readReg 6 + 0).toNat % 4 = 0 ∧ HookServes atHook.launch.storeHook (atHook.readReg 6 + 0)) ∧
    (let s := put [(1, 0xFFC)] base;
      (s.readReg 1 + 0).toNat % 4 = 0 ∧ ¬HookServes s.launch.storeHook (s.readReg 1 + 0) ∧
      (s.readReg 1 + 0).toNat + 4 = s.mem.len) ∧
    (let s := put [(1, 0x1000)] base;
      (s.readReg 1 + 0).toNat % 1 = 0 ∧ ¬HookServes s.launch.storeHook (s.readReg 1 + 0) ∧
      s.mem.len < (s.readReg 1 + 0).toNat + 1) := by
  refine ⟨by decide, ⟨by decide, ⟨0x10000000, rfl, by decide⟩⟩, ⟨by decide, ?_, by decide⟩, ⟨by decide, ?_, by decide⟩⟩
  · rintro ⟨b, h, _⟩; cases h
  · rintro ⟨b, h, _⟩; cases h

theorem witness_MixedWidthView :
    let s := put [(1, 0xFFC), (2, 0xCAFEF00D)] base;
    ∃ u, (s.readReg 1 + 0).toNat % 4 = 0 ∧ (s.readReg 1 + 0).toNat + 4 = s.mem.len ∧ s.launch.storeHook = none ∧
      s.launch.loadHook = none ∧ exec (.sw 1 2 0) s = .next u :=
  ⟨_, by decide, by decide, rfl, rfl, rfl⟩

/-- A resolved address, and an unresolved one in each mode. -/
theorem witness_CsrRegisterForms :
    csrResolve 0x344 = some .mip ∧ csrResolve 0x345 = none ∧ base.launch.csrUnresolved = .strict ∧
      sink.launch.csrUnresolved = .sink := by decide

theorem witness_CsrImmediateForms :
    csrResolve 0x300 = some .mstatus ∧ csrResolve 0x301 = none ∧ base.launch.csrUnresolved = .strict ∧
      sink.launch.csrUnresolved = .sink := by decide

/-- A state about to call brk with this request. -/
def brkRequest (req : Word) : State := put [(17, 214), (10, req)] base

/-- A query; requests at STACK_END and at 2^31 - 1; requests just below STACK_END and at 2^31. -/
theorem witness_EcallBrk :
    (∀ req, (brkRequest req).readReg 17 = (brkRequest req).launch.sysBrk) ∧
    ((brkRequest 0).readReg 10).toNat = 0 ∧
    (((brkRequest 0x1000).readReg 10).toNat ≠ 0 ∧
      ((brkRequest 0x1000).readReg 10).toNat = (brkRequest 0x1000).launch.stackEnd) ∧
    (((brkRequest 0x7FFFFFFF).readReg 10).toNat ≠ 0 ∧
      (brkRequest 0x7FFFFFFF).launch.stackEnd ≤ ((brkRequest 0x7FFFFFFF).readReg 10).toNat ∧
      ((brkRequest 0x7FFFFFFF).readReg 10).toNat = 0x7FFFFFFF) ∧
    (((brkRequest 0xFFF).readReg 10).toNat ≠ 0 ∧
      ((brkRequest 0xFFF).readReg 10).toNat < (brkRequest 0xFFF).launch.stackEnd) ∧
    (((brkRequest 0x80000000).readReg 10).toNat ≠ 0 ∧ ((brkRequest 0x80000000).readReg 10).toNat = 0x80000000) :=
  ⟨fun _ => rfl, by decide, by decide, by decide, by decide, by decide⟩

theorem witness_EcallFstat :
    let s := put [(17, 80)] base;
    s.readReg 17 ≠ s.launch.sysBrk ∧ s.readReg 17 = s.launch.sysFstat := by decide

theorem witness_EcallUnclaimed :
    let s := put [(17, 93)] base;
    s.readReg 17 ≠ s.launch.sysBrk ∧ s.readReg 17 ≠ s.launch.sysFstat := by decide

theorem witness_ExceptionEntry_commit :
    let s := running (.addi 1 0 5);
    ∃ t, s.refused = false ∧ s.interruptReady = false ∧ s.fetch = .run (.addi 1 0 5) ∧
      exec (.addi 1 0 5) s.clearX0 = .next t :=
  ⟨_, rfl, rfl, by decide, rfl⟩

set_option maxRecDepth 4096 in
theorem witness_ExceptionEntry_handler_outside :
    let s := putCsr [(.mtvec, 0x301)] (beforeTrap 0x100);
    s.refused = false ∧ 4 * s.dt.length = (vectorBase s.csr.mtvec).toNat := by decide

theorem witness_InterruptStep :
    (let s := interrupted 8 0x800 0x41 0x100 3;
      s.refused = false ∧ s.csr.mstatus.getLsbD 3 = true ∧ s.csr.mie.getLsbD 11 = true ∧ s.csr.mip.getLsbD 11 = true) ∧
    (interrupted 0xFFFFFFF7 0x800 0x41 0x100 3).csr.mstatus.getLsbD 3 = false ∧
    (interrupted 8 0xFFFFF7FF 0x41 0x100 3).csr.mie.getLsbD 11 = false ∧
    (putCsr [(.mip, 0xFFFFF7FF)] (interrupted 8 0x800 0x41 0x100 3)).csr.mip.getLsbD 11 = false := by decide

theorem witness_ExternalInterruptDelivery :
    let s := putCsr [(.mstatus, 8), (.mie, 0x800)] base;
    s.refused = false ∧ s.csr.mstatus.getLsbD 3 = true ∧ s.csr.mie.getLsbD 11 = true := by decide

theorem witness_TrapLoopConverges :
    (let s := State.reset;
      s.refused = false ∧ s.csr.mstatus.getLsbD 3 = false ∧ s.pc = vectorBase s.csr.mtvec ∧ s.fetch = .trap .instAccess) ∧
    (let s := running (.jal 0 0);
      s.refused = false ∧ s.interruptReady = false ∧ s.fetch = .run (.jal 0 0)) := by decide

/-- A store that lists a byte, from a state that meets the invariant. -/
theorem witness_InvariantKept :
    let s := put [(1, 0xFFF), (2, 0xAB)] (running (.sb 1 2 0));
    ∃ t, BufferInv s ∧ step s = .next t ∧ t.mem.cells = [(0xFFF, 0xAB)] :=
  ⟨_, ⟨by decide, by decide⟩, rfl, by decide⟩

theorem witness_InvariantOfHostActions :
    ∃ s, rising [(5, 1), (0x20, 0xFF)] = true ∧ (∀ c ∈ ([(5, 1), (0x20, 0xFF)] : List Host.Cell), c.2 ≠ 0) ∧
      hostInitialize { Launch.atReset with programSize := 1 } [0x13] [(5, 1), (0x20, 0xFF)] = .next s ∧ BufferInv s :=
  ⟨_, by decide, by decide, rfl, by decide, by decide⟩

theorem witness_StepKeepsConfiguration : ∃ t, step (running (.sw 2 1 0xFFFFFFFC)) = .next t := ⟨_, rfl⟩

/-- A run that has not refused; and one that refuses at each of the two points. -/
theorem witness_OnlyTwoRefusals :
    base.refused = false ∧ step (load 0x00100073 base) = .refused .unsettledEncoding ∧
    step (put [(17, 214), (10, 1)] (running .ecall)) = .refused .brkOutsideModel :=
  ⟨rfl, rfl, rfl⟩

/-- An instruction that completes and one that takes an exception. -/
theorem witness_CsrCellsIsolated :
    (∃ t, exec (.addi 1 0 5) base = .next t) ∧ writesCsr (.addi 1 0 5) = false ∧
    (∃ t, exec (.lw 1 2 0) base = .next t) ∧ writesCsr (.lw 1 2 0) = false :=
  ⟨⟨_, rfl⟩, rfl, ⟨_, rfl⟩, rfl⟩

theorem witness_RegistersIsolated :
    ∃ t, exec (.csrrw 5 6 0x340) base = .next t ∧ destination (.csrrw 5 6 0x340) ≠ some 6 := ⟨_, rfl, by decide⟩

/-- A store; an instruction that stores nothing; and an ECALL that shrinks the buffer, with an address below both lengths. -/
theorem witness_MemoryIsolated :
    (∃ t, exec (.sw 2 1 0xFFFFFFFC) base = .next t ∧ Instr.sw 2 1 0xFFFFFFFC ≠ .ecall) ∧
    (∃ t, exec (.lw 1 2 0xFFFFFFFC) base = .next t ∧ isStore (.lw 1 2 0xFFFFFFFC) = false) ∧
    (let s := put [(17, 214), (10, 0x1000)] { base with mem := { base.mem with len := 0x1100 } };
      ∃ t, exec .ecall s = .next t ∧ isStore .ecall = false ∧ 0xFFF < min s.mem.len t.mem.len) :=
  ⟨⟨_, rfl, by decide⟩, ⟨_, rfl, rfl⟩, _, rfl, rfl, by decide⟩

theorem witness_HookCallsBounded :
    (∃ t, exec (.add 1 2 3) hooked = .next t) ∧ mayCallHook (.add 1 2 3) = false ∧
    (∃ t, exec (.lw 1 2 0) base = .next t) ∧ base.launch.loadHook = none ∧ base.launch.storeHook = none ∧
      base.launch.syscallHook = false :=
  ⟨⟨_, rfl⟩, rfl, ⟨_, rfl⟩, rfl, rfl, rfl⟩

/-- An ordinary step; one of MRET; and an interrupt step at a CSR instruction, which clears MEIP. -/
theorem witness_StatusWrittenOnlyByCsrInstructions :
    (∃ t, step (running (.addi 1 0 5)) = .next t ∧
      ((running (.addi 1 0 5)).interruptReady = false →
        ∀ i, (running (.addi 1 0 5)).fetch = .run i → writesCsr i = true → i = .mret)) ∧
    (∃ t, step (running .mret) = .next t ∧
      ((running .mret).interruptReady = false → ∀ i, (running .mret).fetch = .run i → writesCsr i = true → i = .mret)) ∧
    (let s := externalInterrupt 3 (putCsr [(.mstatus, 8), (.mie, 0x800)] (running (.csrrw 5 6 0x344)));
      ∃ t, step s = .next t ∧ s.fetch = .run (.csrrw 5 6 0x344) ∧
        (s.interruptReady = false → ∀ i, s.fetch = .run i → writesCsr i = true → i = .mret) ∧
        t.csr.mip.getLsbD 11 ≠ s.csr.mip.getLsbD 11) := by
  refine ⟨⟨_, rfl, fun _ => ?_⟩, ⟨_, rfl, fun _ => ?_⟩, ⟨_, rfl, by decide, fun h => absurd h (by decide), by decide⟩⟩
  · intro i h; rw [show (running (.addi 1 0 5)).fetch = .run (.addi 1 0 5) by decide] at h; cases h; decide
  · intro i h _; rw [show (running .mret).fetch = .run .mret by decide] at h; cases h; rfl

theorem witness_LatchAndCounterHidden : (running (.addi 1 0 5)).interruptReady = false := by decide

theorem witness_ResetEstablishes : (31 : RegIdx) ≠ 2 ∧ (hostReset base).mem = base.mem := ⟨by decide, rfl⟩

theorem witness_InitializeBuilds :
    ([0x13] : List Byte).length = ({ Launch.atReset with programSize := 1 } : Launch).programSize ∧
    ([] : List Byte).length ≠ ({ Launch.atReset with programSize := 1 } : Launch).programSize := by decide

theorem witness_CycleComposes :
    (∃ t, step (running (.addi 1 0 5)) = .next t) ∧ step (load 0x00100073 base) = .refused .unsettledEncoding ∧
      (0 : Int) ≤ 3 ∧ (-1 : Int) ≤ 0 :=
  ⟨⟨_, rfl⟩, rfl, by decide, by decide⟩

theorem witness_PseudoInstructionsReachEveryValue :
    (31 : RegIdx) ≠ 0 ∧ Instr.addi 31 0 0xFFFFF800 ∈ (Pseudo.li 31 0xFFFFF800).expand ∧
      Instr.lui 31 1 ∈ (Pseudo.li 31 0x800).expand := by decide

/-- A machine whose mcause already holds the code of the exception its store takes: from another mcause the step changes
it. And an unresolved CSR address in Strict mode. -/
theorem witness_ReportedExceptionIsTaken_converse :
    (let s := putCsr [(.mcause, 7)] (running (.sw 2 1 0));
      ∃ t, s.interruptReady = false ∧ (∀ i, s.fetch = .run i → writesCsr i = false) ∧
        step { s with csr := { s.csr with mcause := 1 } } = .next t ∧ t.csr.mcause ≠ 1) ∧
    (let s := State.reset; s.refused = false ∧ s.interruptReady = false ∧ s.fetch = .trap .instAccess) ∧
    (let s := running (.csrrs 5 0 0xC00);
      s.refused = false ∧ s.interruptReady = false ∧ csrResolve 0xC00 = none ∧ s.launch.csrUnresolved = .strict ∧
        s.fetch = .run (.csrrs 5 0 0xC00)) := by
  refine ⟨⟨_, rfl, ?_, rfl, by decide⟩, by decide, by decide⟩
  intro i h
  rw [show (putCsr [(.mcause, 7)] (running (.sw 2 1 0))).fetch = .run (.sw 2 1 0) by decide] at h
  cases h; rfl

/-- An exception of the fetch, and one of an instruction. -/
theorem witness_ReportedExceptionIsTaken :
    (∃ t, step State.reset = .next t) ∧ Report.exception .instAccess ∈ observe State.reset ∧
    (∃ t, step (running (.sw 2 1 0)) = .next t) ∧ Report.exception .storeFault ∈ observe (running (.sw 2 1 0)) :=
  ⟨⟨_, rfl⟩, by decide, ⟨_, rfl⟩, by decide⟩

end Sys2Proof.Tests
end

section
/-! SUPPORT. From an opcode table row to the instruction it decodes to: a word with the row's bits under the row's
mask has the row's opcode, funct3 and funct7, and those pick one arm of the decoder. -/

namespace Sys2Proof.Machine

/-! ### Words under the masks of the opcode table -/

/-- A mask over the opcode alone (the U and J formats). -/
theorem decodesAs_of_opcode {bits : Word} {op : BitVec 7} {f : Word → Instr} (hop : opcodeOf bits = op)
    (h : ∀ w, opcodeOf w = op → decodeWord w = .record (f w)) : DecodesAs bits 0x0000007F f :=
  fun w hw => h w (opcodeOf_of_masked hw rfl ▸ hop)

/-- A mask over the opcode and funct3 (the I, S and B formats). -/
theorem decodesAs_of_funct3 {bits : Word} {op : BitVec 7} {f3 : BitVec 3} {f : Word → Instr}
    (hop : opcodeOf bits = op) (hf3 : funct3Of bits = f3)
    (h : ∀ w, opcodeOf w = op → funct3Of w = f3 → decodeWord w = .record (f w)) : DecodesAs bits 0x0000707F f :=
  fun w hw => h w (opcodeOf_of_masked hw rfl ▸ hop) (funct3Of_of_masked hw rfl ▸ hf3)

/-- A mask over the opcode, funct3 and funct7 (the R format and the shifts by an immediate). -/
theorem decodesAs_of_funct7 {bits : Word} {op : BitVec 7} {f3 : BitVec 3} {f7 : BitVec 7} {f : Word → Instr}
    (hop : opcodeOf bits = op) (hf3 : funct3Of bits = f3) (hf7 : funct7Of bits = f7)
    (h : ∀ w, opcodeOf w = op → funct3Of w = f3 → funct7Of w = f7 → decodeWord w = .record (f w)) :
    DecodesAs bits 0xFE00707F f :=
  fun w hw => h w (opcodeOf_of_masked hw rfl ▸ hop) (funct3Of_of_masked hw rfl ▸ hf3)
    (funct7Of_of_masked hw rfl ▸ hf7)

/-! ### The OP-IMM and OP rows -/

theorem decodeWord_opImm {w : Word} (h : opcodeOf w = 0x13#7) : decodeWord w = decodeOpImm w := by
  simp only [decodeWord, h]

theorem decodeWord_op {w : Word} (h : opcodeOf w = 0x33#7) : decodeWord w = decodeOp w := by
  simp only [decodeWord, h]

/-- An OP-IMM row that is no shift: its funct3 decides (R126). -/
theorem decodesAs_opImm {bits : Word} {f3 : BitVec 3} {f : Word → Instr} (hop : opcodeOf bits = 0x13#7)
    (hf3 : funct3Of bits = f3) (h : ∀ w, funct3Of w = f3 → decodeOpImm w = .record (f w)) :
    DecodesAs bits 0x0000707F f :=
  decodesAs_of_funct3 hop hf3 fun w ho h3 => (decodeWord_opImm ho).trans (h w h3)

/-- An OP-IMM row of a shift: its funct3 and funct7 decide (R126). -/
theorem decodesAs_opImmShift {bits : Word} {f3 : BitVec 3} {f7 : BitVec 7} {f : Word → Instr}
    (hop : opcodeOf bits = 0x13#7) (hf3 : funct3Of bits = f3) (hf7 : funct7Of bits = f7)
    (h : ∀ w, funct3Of w = f3 → funct7Of w = f7 → decodeOpImm w = .record (f w)) : DecodesAs bits 0xFE00707F f :=
  decodesAs_of_funct7 hop hf3 hf7 fun w ho h3 h7 => (decodeWord_opImm ho).trans (h w h3 h7)

/-- An OP row: its funct3 and funct7 decide (R127). -/
theorem decodesAs_op {bits : Word} {f3 : BitVec 3} {f7 : BitVec 7} {f : Word → Instr} (hop : opcodeOf bits = 0x33#7)
    (hf3 : funct3Of bits = f3) (hf7 : funct7Of bits = f7)
    (h : ∀ w, funct3Of w = f3 → funct7Of w = f7 → decodeOp w = .record (f w)) : DecodesAs bits 0xFE00707F f :=
  decodesAs_of_funct7 hop hf3 hf7 fun w ho h3 h7 => (decodeWord_op ho).trans (h w h3 h7)

end Sys2Proof.Machine
end

section
/-! SUPPORT. What the integer instructions compute, as arithmetic, and the frame they share. -/

namespace Sys2Proof.Machine

/-- An instruction that ends in `execResult` writes that result to `rd`, moves the pc on and changes nothing else. -/
theorem computes_of_exec {i : Instr} {rd : RegIdx} {u v : Word} {s : State} (h : exec i s = execResult rd u s)
    (huv : u = v) : Computes i rd v s :=
  ⟨_, huv ▸ h, regWritten_writeReg s rd v (s.pc + 4), rfl, State.cell_clearX0_zero _⟩

/-! ### Upper immediates and comparisons -/

theorem upperImm_eq_ofNat (imm20 : BitVec 20) : upperImm imm20 = BitVec.ofNat 32 (imm20.toNat * 2 ^ 12) := by
  apply BitVec.eq_of_toNat_eq
  have h : imm20.toNat * 2 ^ 12 < 2 ^ 32 := by omega
  calc (upperImm imm20).toNat
    _ = imm20.toNat <<< 12 ||| 0 := BitVec.toNat_append imm20 0#12
    _ = imm20.toNat * 2 ^ 12 := by rw [Nat.or_zero, Nat.shiftLeft_eq]
    _ = (BitVec.ofNat 32 (imm20.toNat * 2 ^ 12)).toNat := (Nat.mod_eq_of_lt h).symm

theorem add_upperImm_eq_ofNat (pc : Word) (imm20 : BitVec 20) :
    pc + upperImm imm20 = BitVec.ofNat 32 (pc.toNat + imm20.toNat * 2 ^ 12) := by
  rw [upperImm_eq_ofNat, BitVec.ofNat_add, BitVec.ofNat_toNat, BitVec.setWidth_eq]

theorem sub_eq_ofInt (a b : Word) : a - b = BitVec.ofInt 32 (a.toNat - b.toNat) := by
  simp [sub_eq_add_neg, BitVec.ofInt_add, BitVec.ofInt_neg, BitVec.ofInt_natCast]

theorem boolWord_lessSigned (a b : Word) : boolWord (lessSigned a b) = if a.toInt < b.toInt then 1 else 0 := by
  simp [boolWord, lessSigned]

theorem boolWord_lessUnsigned (a b : Word) : boolWord (lessUnsigned a b) = if a.toNat < b.toNat then 1 else 0 := by
  simp [boolWord, lessUnsigned]

/-! ### Shifts -/

/-- R171: the low 5 bits are the amount modulo 32. -/
theorem shiftAmount_eq_mod (v : Word) : shiftAmount v = v.toNat % 32 := by
  simp [shiftAmount, BitVec.extractLsb'_toNat]

/-- A 5-bit amount counts as it is. -/
theorem shiftAmount_setWidth (shamt : BitVec 5) : shiftAmount (shamt.setWidth 32) = shamt.toNat := by
  rw [shiftAmount_eq_mod, BitVec.toNat_setWidth]
  omega

theorem shiftLeft_eq_ofNat {amount : Word} {sh : Nat} (h : shiftAmount amount = sh) (v : Word) :
    shiftLeft v amount = BitVec.ofNat 32 (v.toNat * 2 ^ sh) := by
  apply BitVec.eq_of_toNat_eq
  simp [shiftLeft, h, Nat.shiftLeft_eq]

theorem shiftRightLogical_eq_ofNat {amount : Word} {sh : Nat} (h : shiftAmount amount = sh) (v : Word) :
    shiftRightLogical v amount = BitVec.ofNat 32 (v.toNat / 2 ^ sh) := by
  apply BitVec.eq_of_toNat_eq
  have hlt : v.toNat / 2 ^ sh < 2 ^ 32 := (Nat.div_le_self _ _).trans_lt v.isLt
  rw [shiftRightLogical, h, BitVec.toNat_ushiftRight, Nat.shiftRight_eq_div_pow, BitVec.toNat_ofNat,
    Nat.mod_eq_of_lt hlt]

/-- `Int`'s `/` rounds down for a positive divisor, as filling with copies of the sign does. -/
theorem shiftRightArith_eq_ofInt {amount : Word} {sh : Nat} (h : shiftAmount amount = sh) (v : Word) :
    shiftRightArith v amount = BitVec.ofInt 32 (v.toInt / 2 ^ sh) := by
  rw [shiftRightArith, h, BitVec.sshiftRight, Int.shiftRight_eq_div_pow, Nat.cast_pow, Nat.cast_ofNat]

end Sys2Proof.Machine
end

section
/-! The statements of the integer instructions: a row each for the encoding, a value lemma each for the result. -/

namespace Sys2Proof.Machine

/-- Settles O9: the opcode decides the row, and `imm20 ++ 0#12` is `imm20 * 2 ^ 12`. -/
theorem upperImmediates : Obligations.UpperImmediates := by
  refine ⟨decodesAs_of_opcode rfl fun w ho => ?lui, decodesAs_of_opcode rfl fun w ho => ?auipc, fun s rd imm20 =>
    ⟨computes_of_exec rfl (upperImm_eq_ofNat imm20), computes_of_exec rfl (add_upperImm_eq_ofNat s.pc imm20)⟩⟩
  case lui => rw [decodeWord, ho]; rfl
  case auipc => rw [decodeWord, ho]; rfl

/-- Settles O10: funct3 decides the row under OP-IMM; the sum and the two comparisons have value lemmas, and the
three bitwise results are what `exec` writes. -/
theorem immediateOperations : Obligations.ImmediateOperations := by
  refine ⟨decodesAs_opImm rfl rfl fun w h => ?_, decodesAs_opImm rfl rfl fun w h => ?_,
    decodesAs_opImm rfl rfl fun w h => ?_, decodesAs_opImm rfl rfl fun w h => ?_,
    decodesAs_opImm rfl rfl fun w h => ?_, decodesAs_opImm rfl rfl fun w h => ?_, fun s rd rs1 imm =>
      ⟨computes_of_exec rfl (BitVec.add_def _ _), computes_of_exec rfl (boolWord_lessSigned _ _),
        computes_of_exec rfl (boolWord_lessUnsigned _ _), computes_of_exec rfl rfl, computes_of_exec rfl rfl,
        computes_of_exec rfl rfl⟩⟩
  all_goals rw [decodeOpImm, h]; rfl

/-- Settles O11: funct3 and funct7 decide the row; a 5-bit `shamt` is its own amount, a register's amount is taken
modulo 32. -/
theorem shifts : Obligations.Shifts := by
  refine ⟨decodesAs_opImmShift rfl rfl rfl fun w h3 h7 => ?_, decodesAs_opImmShift rfl rfl rfl fun w h3 h7 => ?_,
    decodesAs_opImmShift rfl rfl rfl fun w h3 h7 => ?_, decodesAs_op rfl rfl rfl fun w h3 h7 => ?_,
    decodesAs_op rfl rfl rfl fun w h3 h7 => ?_, decodesAs_op rfl rfl rfl fun w h3 h7 => ?_,
    fun s rd rs1 rs2 shamt => ?results⟩
  case results =>
    have hi := shiftAmount_setWidth shamt
    have hr := shiftAmount_eq_mod (s.readReg rs2)
    exact ⟨computes_of_exec rfl (shiftLeft_eq_ofNat hi _), computes_of_exec rfl (shiftRightLogical_eq_ofNat hi _),
      computes_of_exec rfl (shiftRightArith_eq_ofInt hi _), computes_of_exec rfl (shiftLeft_eq_ofNat hr _),
      computes_of_exec rfl (shiftRightLogical_eq_ofNat hr _), computes_of_exec rfl (shiftRightArith_eq_ofInt hr _)⟩
  all_goals simp only [decodeOpImm, decodeOp, h3, h7]; rfl

/-- Settles O12: funct3 and funct7 decide the row under OP; sum, difference and the two comparisons have value
lemmas, and the three bitwise results are what `exec` writes. -/
theorem registerOperations : Obligations.RegisterOperations := by
  refine ⟨decodesAs_op rfl rfl rfl fun w h3 h7 => ?_, decodesAs_op rfl rfl rfl fun w h3 h7 => ?_,
    decodesAs_op rfl rfl rfl fun w h3 h7 => ?_, decodesAs_op rfl rfl rfl fun w h3 h7 => ?_,
    decodesAs_op rfl rfl rfl fun w h3 h7 => ?_, decodesAs_op rfl rfl rfl fun w h3 h7 => ?_,
    decodesAs_op rfl rfl rfl fun w h3 h7 => ?_, fun s rd rs1 rs2 =>
      ⟨computes_of_exec rfl (BitVec.add_def _ _), computes_of_exec rfl (sub_eq_ofInt _ _),
        computes_of_exec rfl (boolWord_lessSigned _ _), computes_of_exec rfl (boolWord_lessUnsigned _ _),
        computes_of_exec rfl rfl, computes_of_exec rfl rfl, computes_of_exec rfl rfl⟩⟩
  all_goals rw [decodeOp, h7, h3]; rfl

end Sys2Proof.Machine
end

section
/-! SUPPORT. What the multiply and divide instructions compute, as arithmetic on the operands: the two halves of a
64-bit product, and each division under the condition that picks its branch. -/

namespace Sys2Proof.Machine

/-! ### The halves of a product (R240) -/

theorem lowWord_eq_ofInt (p : Int) : lowWord p = BitVec.ofInt 32 p := by
  apply BitVec.eq_of_toNat_eq
  simp only [lowWord, BitVec.extractLsb'_toNat, BitVec.toNat_ofInt, Nat.shiftRight_zero]
  omega

theorem highWord_eq_ofInt (p : Int) : highWord p = BitVec.ofInt 32 (p / 2 ^ 32) := by
  apply BitVec.eq_of_toNat_eq
  simp only [highWord, BitVec.extractLsb'_toNat, BitVec.toNat_ofInt, Nat.shiftRight_eq_div_pow]
  omega

/-- R241: the low word is the same for operands read as unsigned. -/
theorem lowWord_mul_eq_ofNat (a b : Word) : lowWord (a.toInt * b.toInt) = BitVec.ofNat 32 (a.toNat * b.toNat) := by
  calc lowWord (a.toInt * b.toInt)
    _ = BitVec.ofInt 32 (a.toInt * b.toInt) := lowWord_eq_ofInt _
    _ = a * b := by rw [BitVec.ofInt_mul, BitVec.ofInt_toInt, BitVec.ofInt_toInt]
    _ = BitVec.ofNat 32 (a.toNat * b.toNat) := BitVec.mul_def

theorem highWord_mul_eq_ofNat (a b : Word) :
    highWord (a.toNat * b.toNat) = BitVec.ofNat 32 (a.toNat * b.toNat / 2 ^ 32) := by
  rw [highWord_eq_ofInt, ← BitVec.ofInt_natCast, Int.natCast_ediv, Nat.cast_mul, Nat.cast_pow, Nat.cast_ofNat]

/-! ### Division, branch by branch (R245 to R248) -/

section DivisorZero

variable {b : Word} (h : b = 0)
include h

theorem divSigned_of_zero (a : Word) : divSigned a b = 0xFFFFFFFF := if_pos h

theorem divUnsigned_of_zero (a : Word) : divUnsigned a b = 0xFFFFFFFF := if_pos h

theorem remSigned_of_zero (a : Word) : remSigned a b = a := if_pos h

theorem remUnsigned_of_zero (a : Word) : remUnsigned a b = a := if_pos h

end DivisorZero

section DivisorNonzero

variable {a b : Word} (h : b ≠ 0)
include h

theorem divUnsigned_of_ne_zero : divUnsigned a b = BitVec.ofNat 32 (a.toNat / b.toNat) := if_neg h

theorem remUnsigned_of_ne_zero : remUnsigned a b = BitVec.ofNat 32 (a.toNat % b.toNat) := if_neg h

theorem divSigned_of_no_overflow (ho : ¬(a = 0x80000000 ∧ b = 0xFFFFFFFF)) :
    divSigned a b = BitVec.ofInt 32 (a.toInt.tdiv b.toInt) := by
  rw [divSigned, if_neg h, if_neg ho]

theorem remSigned_of_no_overflow (ho : ¬(a = 0x80000000 ∧ b = 0xFFFFFFFF)) :
    remSigned a b = BitVec.ofInt 32 (a.toInt - a.toInt.tdiv b.toInt * b.toInt) := by
  rw [remSigned, if_neg h, if_neg ho]

end DivisorNonzero

/-- The least value by -1: the quotient `2^31` does not fit, and the dividend stands for it (R245). -/
theorem divSigned_of_overflow {a b : Word} (ha : a = 0x80000000) (hb : b = 0xFFFFFFFF) :
    divSigned a b = 0x80000000 := by
  subst ha hb; rfl

theorem remSigned_of_overflow {a b : Word} (ha : a = 0x80000000) (hb : b = 0xFFFFFFFF) : remSigned a b = 0 := by
  subst ha hb; rfl

end Sys2Proof.Machine
end

section
/-! The statements of the multiply and divide instructions: a row each for the encoding, a value lemma each for the
result. -/

namespace Sys2Proof.Machine

/-- Settles O13: funct3 and funct7 decide the row under OP; a value lemma gives each half of the product. -/
theorem multiply : Obligations.Multiply := by
  refine ⟨decodesAs_op rfl rfl rfl fun w h3 h7 => ?_, decodesAs_op rfl rfl rfl fun w h3 h7 => ?_,
    decodesAs_op rfl rfl rfl fun w h3 h7 => ?_, decodesAs_op rfl rfl rfl fun w h3 h7 => ?_, fun s rd rs1 rs2 =>
      ⟨computes_of_exec rfl (lowWord_mul_eq_ofNat _ _), computes_of_exec rfl (lowWord_eq_ofInt _),
        computes_of_exec rfl (highWord_eq_ofInt _), computes_of_exec rfl (highWord_eq_ofInt _),
        computes_of_exec rfl (highWord_mul_eq_ofNat _ _)⟩⟩
  all_goals rw [decodeOp, h7, h3]; rfl

/-- Settles O14: funct3 and funct7 decide the row under OP; each clause's condition picks one branch of the
division. -/
theorem divide : Obligations.Divide := by
  refine ⟨decodesAs_op rfl rfl rfl fun w h3 h7 => ?_, decodesAs_op rfl rfl rfl fun w h3 h7 => ?_,
    decodesAs_op rfl rfl rfl fun w h3 h7 => ?_, decodesAs_op rfl rfl rfl fun w h3 h7 => ?_, fun s rd rs1 rs2 =>
      ⟨fun h0 => ?byZero, fun ha hb => ?overflow, fun h0 => ?unsigned, fun h0 ho => ?signed⟩⟩
  case byZero =>
    exact ⟨computes_of_exec rfl (divSigned_of_zero h0 _), computes_of_exec rfl (divUnsigned_of_zero h0 _),
      computes_of_exec rfl (remSigned_of_zero h0 _), computes_of_exec rfl (remUnsigned_of_zero h0 _)⟩
  case overflow =>
    exact ⟨computes_of_exec rfl (divSigned_of_overflow ha hb), computes_of_exec rfl (remSigned_of_overflow ha hb)⟩
  case unsigned =>
    exact ⟨computes_of_exec rfl (divUnsigned_of_ne_zero h0), computes_of_exec rfl (remUnsigned_of_ne_zero h0)⟩
  case signed =>
    exact ⟨computes_of_exec rfl (divSigned_of_no_overflow h0 ho),
      computes_of_exec rfl (remSigned_of_no_overflow h0 ho)⟩
  all_goals rw [decodeOp, h7, h3]; rfl

end Sys2Proof.Machine
end

section
/-! The statement of FENCE.I: funct3 001 under MISC-MEM for the encoding, and `exec` as a move of the pc alone. -/

namespace Sys2Proof.Machine

theorem decodeWord_miscMem {w : Word} (h : opcodeOf w = 0x0F#7) : decodeWord w = decodeMiscMem w := by
  simp only [decodeWord, h]

/-- FENCE.I's arm of `exec`: nothing is ordered or rebuilt (R261). -/
theorem exec_fenceI (imm : Word) (rs1 rd : RegIdx) (s : State) : exec (.fenceI imm rs1 rd) s = .next s.advance := rfl

/-- Settles O22: funct3 decides the row under MISC-MEM, and moving the pc on writes nothing and keeps the decode
table. -/
theorem fenceI : Obligations.FenceI := by
  refine ⟨decodesAs_of_funct3 rfl rfl fun w ho h3 => ?encoding, fun s imm rs1 rd =>
    ⟨s.advance, exec_fenceI imm rs1 rd s, nothingWritten_pc s (s.pc + 4), s.advance_dt, s.advance_pc⟩⟩
  case encoding =>
    rw [decodeWord_miscMem ho, decodeMiscMem, h3]
    rfl

end Sys2Proof.Machine
end

section
/-! SUPPORT. Decoding and encoding are inverse: the fields of a word joined again, the instruction of its own word, and
the word of the instruction it decodes to. -/

namespace Sys2Proof.Machine

/-! ### The fields of a word, joined again -/

theorem wordOfBytes_bytes (w : Word) :
    wordOfBytes (w.extractLsb' 0 8) (w.extractLsb' 8 8) (w.extractLsb' 16 8) (w.extractLsb' 24 8) = w := by
  unfold wordOfBytes
  iterate 3 rw [BitVec.extractLsb'_append_extractLsb'_eq_extractLsb' (by norm_num)]
  exact BitVec.extractLsb'_eq_self

theorem encR_fields (w : Word) : encR (funct7Of w) (rs2Of w) (rs1Of w) (funct3Of w) (rdOf w) (opcodeOf w) = w := by
  unfold encR funct7Of rs2Of rs1Of funct3Of rdOf opcodeOf
  iterate 5 rw [BitVec.extractLsb'_append_extractLsb'_eq_extractLsb' (by norm_num)]
  exact BitVec.extractLsb'_eq_self

theorem encI_fields (w : Word) : encI (imm12Of w) (rs1Of w) (funct3Of w) (rdOf w) (opcodeOf w) = w := by
  unfold encI imm12Of rs1Of funct3Of rdOf opcodeOf
  iterate 4 rw [BitVec.extractLsb'_append_extractLsb'_eq_extractLsb' (by norm_num)]
  exact BitVec.extractLsb'_eq_self

theorem encU_fields (w : Word) : encU (imm20Of w) (rdOf w) (opcodeOf w) = w := by
  unfold encU imm20Of rdOf opcodeOf
  iterate 2 rw [BitVec.extractLsb'_append_extractLsb'_eq_extractLsb' (by norm_num)]
  exact BitVec.extractLsb'_eq_self

/-- FENCE's three fields are the 12-bit chunk (R118). -/
theorem fenceFields_eq_imm12 (w : Word) : (fmOf w ++ predOf w ++ succOf w : BitVec 12) = imm12Of w := by
  unfold fmOf predOf succOf
  iterate 2 rw [BitVec.extractLsb'_append_extractLsb'_eq_extractLsb' (by norm_num)]
  rfl

/-! ### The chunks of an immediate -/

/-- Sign extension keeps the bits it extends. -/
theorem extractLsb'_signExtend {n : Nat} (c : BitVec n) {start len : Nat} (hc : start + len ≤ n) (hn : n ≤ 32) :
    (c.signExtend 32).extractLsb' start len = c.extractLsb' start len := by
  apply BitVec.eq_of_getLsbD_eq
  intro i hi
  simp only [BitVec.getLsbD_extractLsb', BitVec.getLsbD_signExtend, show start + i < n by omega,
    show start + i < 32 by omega, decide_true, Bool.true_and, if_true]

theorem low12_signExtend (c : BitVec 12) : low12 (c.signExtend 32) = c :=
  (extractLsb'_signExtend c (by norm_num) (by norm_num)).trans BitVec.extractLsb'_eq_self

theorem fitsI_signExtend (c : BitVec 12) : fitsI (c.signExtend 32) = true :=
  beq_iff_eq.mpr (congrArg (BitVec.signExtend 32) (low12_signExtend c).symm)

theorem fitsB_signExtend (c : BitVec 12) : fitsB ((c ++ 0#1).signExtend 32) = true := by
  rw [fitsB, extractLsb'_signExtend _ (by norm_num) (by norm_num), BitVec.extractLsb'_append_eq_of_le (by norm_num)]
  exact beq_iff_eq.mpr (congrArg (fun d : BitVec 12 => (d ++ 0#1).signExtend 32) BitVec.extractLsb'_eq_self.symm)

theorem fitsJ_signExtend (c : BitVec 20) : fitsJ ((c ++ 0#1).signExtend 32) = true := by
  rw [fitsJ, extractLsb'_signExtend _ (by norm_num) (by norm_num), BitVec.extractLsb'_append_eq_of_le (by norm_num)]
  exact beq_iff_eq.mpr (congrArg (fun d : BitVec 20 => (d ++ 0#1).signExtend 32) BitVec.extractLsb'_eq_self.symm)

theorem encS_fields (w : Word) : encS (immS w) (rs2Of w) (rs1Of w) (funct3Of w) (opcodeOf w) = w := by
  have hi : (immS w).extractLsb' 5 7 = funct7Of w := by
    rw [immS, extractLsb'_signExtend _ (by norm_num) (by norm_num), BitVec.extractLsb'_append_eq_of_le (by norm_num)]
    exact BitVec.extractLsb'_eq_self
  have lo : (immS w).extractLsb' 0 5 = rdOf w := by
    rw [immS, extractLsb'_signExtend _ (by norm_num) (by norm_num),
      BitVec.extractLsb'_append_eq_of_add_le (by norm_num)]
    exact BitVec.extractLsb'_eq_self
  rw [encS, hi, lo]
  exact encR_fields w

/-- The B immediate's chunks are the word's (R115). -/
theorem extract_immB (w : Word) :
    (immB w).extractLsb' 12 1 = w.extractLsb' 31 1 ∧ (immB w).extractLsb' 5 6 = w.extractLsb' 25 6 ∧
      (immB w).extractLsb' 1 4 = w.extractLsb' 8 4 ∧ (immB w).extractLsb' 11 1 = w.extractLsb' 7 1 := by
  refine ⟨?_, ?_, ?_, ?_⟩
  all_goals
    rw [immB, extractLsb'_signExtend _ (by norm_num) (by norm_num)]
    repeat rw [BitVec.extractLsb'_append_eq_of_le (Nat.le_of_ble_eq_true rfl)]
  case refine_1 => exact BitVec.extractLsb'_eq_self
  all_goals
    rw [BitVec.extractLsb'_append_eq_of_add_le (by norm_num)]
    exact BitVec.extractLsb'_eq_self

/-- The J immediate's chunks are the word's (R117). -/
theorem extract_immJ (w : Word) :
    (immJ w).extractLsb' 20 1 = w.extractLsb' 31 1 ∧ (immJ w).extractLsb' 1 10 = w.extractLsb' 21 10 ∧
      (immJ w).extractLsb' 11 1 = w.extractLsb' 20 1 ∧ (immJ w).extractLsb' 12 8 = w.extractLsb' 12 8 := by
  refine ⟨?_, ?_, ?_, ?_⟩
  all_goals
    rw [immJ, extractLsb'_signExtend _ (by norm_num) (by norm_num)]
    repeat rw [BitVec.extractLsb'_append_eq_of_le (Nat.le_of_ble_eq_true rfl)]
  case refine_1 => exact BitVec.extractLsb'_eq_self
  all_goals
    rw [BitVec.extractLsb'_append_eq_of_add_le (by norm_num)]
    exact BitVec.extractLsb'_eq_self

theorem encB_fields (w : Word) : encB (immB w) (rs2Of w) (rs1Of w) (funct3Of w) (opcodeOf w) = w := by
  obtain ⟨h12, h5, h1, h11⟩ := extract_immB w
  rw [encB, h12, h5, h1, h11]
  unfold rs2Of rs1Of funct3Of opcodeOf
  iterate 7 rw [BitVec.extractLsb'_append_extractLsb'_eq_extractLsb' (by norm_num)]
  exact BitVec.extractLsb'_eq_self

theorem encJ_fields (w : Word) : encJ (immJ w) (rdOf w) (opcodeOf w) = w := by
  obtain ⟨h20, h1, h11, h12⟩ := extract_immJ w
  rw [encJ, h20, h1, h11, h12]
  unfold rdOf opcodeOf
  iterate 5 rw [BitVec.extractLsb'_append_extractLsb'_eq_extractLsb' (by norm_num)]
  exact BitVec.extractLsb'_eq_self

/-! ### Decoding an encoded instruction -/

/-- Decoding the bytes of a word decodes the word (R75, R110). -/
theorem decode_bytesOfWord {w : Word} {i : Instr} (h : decodeWord w = .record i) (rest : List Byte) :
    decode (bytesOfWord w ++ rest) = .ok (i, rest) := by
  simp only [bytesOfWord, List.cons_append, List.nil_append, decode, wordOfBytes_bytes, h]

/-- The instruction is the one its own word decodes to. -/
theorem decodeWord_encode {i : Instr} (h : i.wellFormed = true) : decodeWord (encode i) = .record i := by
  cases i
  case lui | auipc => simp [encode, decodeWord]
  case addi | slti | sltiu | xori | ori | andi => simp [encode, decodeWord, decodeOpImm, signExtend_low12 h]
  case slli | srli | srai => simp [encode, decodeWord, decodeOpImm]
  case add | sub | sll | slt | sltu | xor | srl | sra | or | and => simp [encode, decodeWord, decodeOp]
  case jal => simp [encode, decodeWord, immJ_encJ h]
  case jalr => simp [encode, decodeWord, signExtend_low12 h]
  case beq | bne | blt | bge | bltu | bgeu => simp [encode, decodeWord, decodeBranch, immB_encB h]
  case lb | lh | lw | lbu | lhu => simp [encode, decodeWord, decodeLoad, signExtend_low12 h]
  case sb | sh | sw => simp [encode, decodeWord, decodeStore, immS_encS h]
  case mul | mulh | mulhsu | mulhu | div | divu | rem | remu => simp [encode, decodeWord, decodeOp]
  case fence => simp [encode, decodeWord, decodeMiscMem, fmOf_encI, predOf_encI, succOf_encI]
  case fenceI => simp [encode, decodeWord, decodeMiscMem, signExtend_low12 h]
  case csrrw | csrrs | csrrc | csrrwi | csrrsi | csrrci => simp [encode, decodeWord, decodeSystem]
  case ecall | mret => decide

/-! ### Encoding a decoded instruction -/

/-- `i` is well-formed and `w` is its word: what a decoder's record must be (R112). -/
def IsWordOf (w : Word) (i : Instr) : Prop := i.wellFormed = true ∧ encode i = w

/-! The decoder's last arms, which name no funct3. -/

theorem funct3_eq_five : ∀ {f3 : BitVec 3}, (f3 = 0#3 → False) → (f3 = 1#3 → False) → (f3 = 2#3 → False) →
    (f3 = 3#3 → False) → (f3 = 4#3 → False) → (f3 = 6#3 → False) → (f3 = 7#3 → False) → f3 = 5#3 := by
  decide

theorem funct3_eq_seven : ∀ {f3 : BitVec 3}, (f3 = 0#3 → False) → (f3 = 1#3 → False) → (f3 = 2#3 → False) →
    (f3 = 3#3 → False) → (f3 = 4#3 → False) → (f3 = 5#3 → False) → (f3 = 6#3 → False) → f3 = 7#3 := by
  decide

section OpcodeOf

variable {w : Word} {i : Instr}

theorem isWordOf_branch (ho : opcodeOf w = 0x63#7) (h : decodeBranch w = .record i) : IsWordOf w i := by
  have e := encB_fields w
  unfold decodeBranch at h
  split at h <;> cases h
  all_goals
    next h3 => rw [ho, h3] at e; exact ⟨fitsB_signExtend _, e⟩

theorem isWordOf_load (ho : opcodeOf w = 0x03#7) (h : decodeLoad w = .record i) : IsWordOf w i := by
  have e := encI_fields w
  rw [ho, ← low12_signExtend (imm12Of w)] at e
  unfold decodeLoad at h
  split at h <;> cases h
  all_goals
    next h3 => rw [h3] at e; exact ⟨fitsI_signExtend _, e⟩

theorem isWordOf_store (ho : opcodeOf w = 0x23#7) (h : decodeStore w = .record i) : IsWordOf w i := by
  have e := encS_fields w
  unfold decodeStore at h
  split at h <;> cases h
  all_goals
    next h3 => rw [ho, h3] at e; exact ⟨fitsI_signExtend _, e⟩

theorem isWordOf_opImm (ho : opcodeOf w = 0x13#7) (h : decodeOpImm w = .record i) : IsWordOf w i := by
  have eI := encI_fields w
  have eR := encR_fields w
  rw [ho, ← low12_signExtend (imm12Of w)] at eI
  rw [ho] at eR
  unfold decodeOpImm at h
  split at h
  case h_7 h3 =>
    split at h <;> cases h
    next h7 => rw [h3, h7] at eR; exact ⟨rfl, eR⟩
  case h_8 n0 n2 n3 n4 n6 n7 n1 =>
    have h3 := funct3_eq_five n0 n1 n2 n3 n4 n6 n7
    split at h <;> cases h
    all_goals
      next h7 => rw [h3, h7] at eR; exact ⟨rfl, eR⟩
  all_goals
    cases h
    next h3 => rw [h3] at eI; exact ⟨fitsI_signExtend _, eI⟩

theorem isWordOf_op (ho : opcodeOf w = 0x33#7) (h : decodeOp w = .record i) : IsWordOf w i := by
  have e := encR_fields w
  rw [ho] at e
  unfold decodeOp at h
  split at h
  case h_1 h7 | h_3 h7 =>
    rw [h7] at e
    split at h
    case h_8 n0 n1 n2 n3 n4 n5 n6 =>
      cases h
      rw [funct3_eq_seven n0 n1 n2 n3 n4 n5 n6] at e
      exact ⟨rfl, e⟩
    all_goals
      cases h
      next h3 => rw [h3] at e; exact ⟨rfl, e⟩
  case h_2 h7 =>
    rw [h7] at e
    split at h <;> cases h
    all_goals
      next h3 => rw [h3] at e; exact ⟨rfl, e⟩
  case h_4 => cases h

theorem isWordOf_miscMem (ho : opcodeOf w = 0x0F#7) (h : decodeMiscMem w = .record i) : IsWordOf w i := by
  have e := encI_fields w
  rw [ho] at e
  unfold decodeMiscMem at h
  split at h <;> cases h
  case h_1 h3 => rw [h3, ← fenceFields_eq_imm12] at e; exact ⟨rfl, e⟩
  case h_2 h3 => rw [h3, ← low12_signExtend (imm12Of w)] at e; exact ⟨fitsI_signExtend _, e⟩

theorem isWordOf_system (ho : opcodeOf w = 0x73#7) (h : decodeSystem w = .record i) : IsWordOf w i := by
  have e := encI_fields w
  rw [ho] at e
  unfold decodeSystem at h
  split at h
  case h_1 =>
    split_ifs at h with h1 h2 <;> cases h
    · exact ⟨rfl, h1.symm⟩
    · exact ⟨rfl, h2.symm⟩
  all_goals cases h
  all_goals
    next h3 => rw [h3] at e; exact ⟨rfl, e⟩

end OpcodeOf

/-- Whatever word decodes to an instruction is that instruction's word. -/
theorem isWordOf_of_decodeWord {w : Word} {i : Instr} (h : decodeWord w = .record i) : IsWordOf w i := by
  unfold decodeWord at h
  split at h
  case h_1 ho | h_2 ho =>
    cases h
    have e := encU_fields w
    rw [ho] at e
    exact ⟨rfl, e⟩
  case h_3 ho =>
    cases h
    have e := encJ_fields w
    rw [ho] at e
    exact ⟨fitsJ_signExtend _, e⟩
  case h_4 ho =>
    split_ifs at h with h3
    cases h
    have e := encI_fields w
    rw [ho, h3, ← low12_signExtend (imm12Of w)] at e
    exact ⟨fitsI_signExtend _, e⟩
  case h_5 ho => exact isWordOf_branch ho h
  case h_6 ho => exact isWordOf_load ho h
  case h_7 ho => exact isWordOf_store ho h
  case h_8 ho => exact isWordOf_opImm ho h
  case h_9 ho => exact isWordOf_op ho h
  case h_10 ho => exact isWordOf_miscMem ho h
  case h_11 ho => exact isWordOf_system ho h
  case h_12 => cases h

end Sys2Proof.Machine
end

section
/-! The statements of the decoder: the two round trips, and the classes of words that decode to no instruction. -/

namespace Sys2Proof.Machine

/-- Settles O2: the fields of the word decide its row and give the operands back; the bytes of a word join to the
word. -/
theorem decodeOfEncode : Obligations.DecodeOfEncode := fun _ h =>
  ⟨decodeWord_encode h, decode_bytesOfWord (decodeWord_encode h)⟩

/-- Settles O3: under each opcode, the fields joined again are the word, and a sign-extended immediate fits its
format. -/
theorem encodeOfDecode : Obligations.EncodeOfDecode := fun _ _ h => isWordOf_of_decodeWord h

/-! ### The classes of words, opcode by opcode -/

theorem funct3_cases : ∀ f3 : BitVec 3,
    f3 = 0#3 ∨ f3 = 1#3 ∨ f3 = 2#3 ∨ f3 = 3#3 ∨ f3 = 4#3 ∨ f3 = 5#3 ∨ f3 = 6#3 ∨ f3 = 7#3 := by
  decide

theorem decodeBranch_class (w : Word) :
    (decodeBranch w = .empty ↔ funct3Of w = 2#3 ∨ funct3Of w = 3#3) ∧ decodeBranch w ≠ .unsettled := by
  obtain h | h | h | h | h | h | h | h := funct3_cases (funct3Of w) <;> simp [decodeBranch, h]

theorem decodeLoad_class (w : Word) :
    (decodeLoad w = .empty ↔ funct3Of w = 3#3 ∨ funct3Of w = 6#3 ∨ funct3Of w = 7#3) ∧
      decodeLoad w ≠ .unsettled := by
  obtain h | h | h | h | h | h | h | h := funct3_cases (funct3Of w) <;> simp [decodeLoad, h]

theorem decodeStore_class (w : Word) :
    (decodeStore w = .empty ↔
      funct3Of w = 3#3 ∨ funct3Of w = 4#3 ∨ funct3Of w = 5#3 ∨ funct3Of w = 6#3 ∨ funct3Of w = 7#3) ∧
      decodeStore w ≠ .unsettled := by
  obtain h | h | h | h | h | h | h | h := funct3_cases (funct3Of w) <;> simp [decodeStore, h]

theorem decodeMiscMem_class (w : Word) :
    (decodeMiscMem w = .empty ↔ funct3Of w = 2#3 ∨ funct3Of w = 3#3 ∨ funct3Of w = 4#3 ∨ funct3Of w = 5#3 ∨
      funct3Of w = 6#3 ∨ funct3Of w = 7#3) ∧ decodeMiscMem w ≠ .unsettled := by
  obtain h | h | h | h | h | h | h | h := funct3_cases (funct3Of w) <;> simp [decodeMiscMem, h]

theorem decodeOpImm_class (w : Word) :
    decodeOpImm w ≠ .empty ∧
      (decodeOpImm w = .unsettled ↔ (funct3Of w = 1#3 ∧ funct7Of w ≠ 0#7) ∨
        (funct3Of w = 5#3 ∧ funct7Of w ≠ 0#7 ∧ funct7Of w ≠ 0b0100000#7)) := by
  obtain h | h | h | h | h | h | h | h := funct3_cases (funct3Of w) <;> simp [decodeOpImm, h]
  · split <;> simp_all
  · split <;> simp_all

theorem decodeOp_class (w : Word) :
    decodeOp w ≠ .empty ∧
      (decodeOp w = .unsettled ↔ (funct7Of w ≠ 0#7 ∧ funct7Of w ≠ 0b0100000#7 ∧ funct7Of w ≠ 1#7) ∨
        (funct7Of w = 0b0100000#7 ∧ funct3Of w ≠ 0#3 ∧ funct3Of w ≠ 5#3)) := by
  unfold decodeOp
  split
  case h_1 h7 | h_3 h7 => split <;> simp [h7]
  case h_2 h7 => obtain h | h | h | h | h | h | h | h := funct3_cases (funct3Of w) <;> simp [h7, h]
  case h_4 n0 n20 n1 => exact ⟨nofun, fun _ => .inl ⟨n0, n20, n1⟩, fun _ => rfl⟩

theorem decodeSystem_class (w : Word) :
    (decodeSystem w = .empty ↔ funct3Of w = 4#3) ∧
      (decodeSystem w = .unsettled ↔ funct3Of w = 0#3 ∧ w ≠ 0x00000073#32 ∧ w ≠ 0x30200073#32) := by
  obtain h | h | h | h | h | h | h | h := funct3_cases (funct3Of w) <;> simp [decodeSystem, h]
  split_ifs <;> simp_all

theorem illegalWord_iff (w : Word) : IllegalWord w ↔
    opcodeOf w ∉ majorOpcodes ∨ (opcodeOf w = 0x63#7 ∧ decodeBranch w = .empty) ∨
      (opcodeOf w = 0x03#7 ∧ decodeLoad w = .empty) ∨ (opcodeOf w = 0x23#7 ∧ decodeStore w = .empty) ∨
      (opcodeOf w = 0x0F#7 ∧ decodeMiscMem w = .empty) ∨ (opcodeOf w = 0x73#7 ∧ decodeSystem w = .empty) := by
  rw [(decodeBranch_class w).1, (decodeLoad_class w).1, (decodeStore_class w).1, (decodeMiscMem_class w).1,
    (decodeSystem_class w).1]
  rfl

theorem unsettledWord_iff (w : Word) : UnsettledWord w ↔
    (opcodeOf w = 0x67#7 ∧ funct3Of w ≠ 0#3) ∨ (opcodeOf w = 0x13#7 ∧ decodeOpImm w = .unsettled) ∨
      (opcodeOf w = 0x33#7 ∧ decodeOp w = .unsettled) ∨ (opcodeOf w = 0x73#7 ∧ decodeSystem w = .unsettled) := by
  rw [(decodeOpImm_class w).2, (decodeOp_class w).2, (decodeSystem_class w).2, and_or_left, or_assoc]
  rfl

/-- Settles O5: under each major opcode, what the opcode's own decoder leaves out. -/
theorem wordClasses : Obligations.WordClasses := by
  intro w
  rw [illegalWord_iff, unsettledWord_iff, decodeWord]
  split
  case h_4 ho => split_ifs with h3 <;> simp [majorOpcodes, ho, h3]
  case h_12 => simp_all [majorOpcodes]
  all_goals
    next ho =>
      simp [majorOpcodes, ho, decodeBranch_class, decodeLoad_class, decodeStore_class, decodeMiscMem_class,
        decodeOpImm_class, decodeOp_class]

end Sys2Proof.Machine
end

section
/-! SUPPORT. What an instruction can do to each part of the state, each derived from `exec_cases`, and the frames of the
shared endings: exception entry, a register written, nothing written, after the hook calls made. -/

namespace Sys2Proof.Machine

/-! ### Exception entry (R320) -/

/-- The base of mtvec is mtvec with its two low bits cleared (R30). -/
theorem getLsbD_vectorBase (mtvec : Word) (j : Nat) :
    (vectorBase mtvec).getLsbD j = (decide (2 ≤ j) && mtvec.getLsbD j) := by
  by_cases hj : j < 32
  · have mask : ∀ k < 32, (0xFFFFFFFC : Word).getLsbD k = decide (2 ≤ k) := by decide
    rw [vectorBase, BitVec.getLsbD_and, mask j hj, Bool.and_comm]
  · rw [BitVec.getLsbD_of_ge _ _ (by omega), BitVec.getLsbD_of_ge _ _ (by omega), Bool.and_false]

/-- The state after the given hook calls, newest first. -/
def State.withCalls (s : State) (calls : List HookCall) : State := { s with hookLog := calls ++ s.hookLog }

/-- The exception of an instruction that has made the given hook calls. -/
theorem exceptionEntered_withCalls (s : State) (calls : List HookCall) (c : Cause) :
    ExceptionEntered c calls s ((s.withCalls calls).takeException c) where
  mcause := rfl
  mepc := rfl
  mtval := rfl
  mstatus := getLsbD_enterTrapStatus s.csr.mstatus
  mie := rfl
  mtvec := rfl
  mscratch := rfl
  mip := rfl
  pc := getLsbD_vectorBase s.csr.mtvec
  regs := fun _ => rfl
  memory := .of_eq rfl
  fixed := ⟨rfl, rfl, rfl, rfl, rfl⟩
  hookLog := rfl
  draws := rfl

theorem exceptionEntered_takeException (s : State) (c : Cause) : ExceptionEntered c [] s (s.takeException c) :=
  exceptionEntered_withCalls s [] c

theorem Called.eq_withCalls {s u : State} (h : Called s u) : ∃ calls, u = s.withCalls calls := by
  obtain rfl | ⟨k, rfl, _⟩ := h
  · exact ⟨[], rfl⟩
  · exact ⟨[k], rfl⟩

theorem exceptionEntered_of_called {s u : State} (h : Called s u) (c : Cause) :
    ∃ calls, ExceptionEntered c calls s (u.takeException c) := by
  obtain ⟨calls, rfl⟩ := h.eq_withCalls
  exact ⟨calls, exceptionEntered_withCalls s calls c⟩

/-! ### What an instruction can do -/

section Ending

variable {i : Instr} {s t : State}

theorem Called.hookLog (h : Called s t) : t.hookLog = s.hookLog ∨ ∃ k, t.hookLog = k :: s.hookLog := by
  obtain rfl | ⟨k, rfl, _⟩ := h
  · exact .inl rfl
  · exact .inr ⟨k, rfl⟩

/-- With no hook installed none is called. -/
theorem Called.eq_of_no_hook (h : Called s t) (hl : s.launch.loadHook = none) (hs : s.launch.storeHook = none)
    (hc : s.launch.syscallHook = false) : t = s := by
  obtain rfl | ⟨k, rfl, hk⟩ := h
  · rfl
  · simp [hl, hs, hc] at hk

theorem Called.fixed (h : Called s t) : SameFixed s t :=
  ⟨h.latchedCause, h.cycles, h.refused, h.dt, h.launch⟩

theorem SameFixed.trans {u : State} (h : SameFixed s u) (h' : SameFixed u t) : SameFixed s t :=
  ⟨h'.latch.trans h.latch, h'.cycles.trans h.cycles, h'.refused.trans h.refused, h'.dt.trans h.dt,
    h'.launch.trans h.launch⟩

/-- What no instruction writes. -/
theorem Ending.fixed (h : Ending i s t) : SameFixed s t := by
  cases h with
  | trap u c called caller result => subst result; exact called.fixed.trans ⟨rfl, rfl, rfl, rfl, rfl⟩
  | wrote u rd v pc called caller dest result => subst result; exact called.fixed.trans ⟨rfl, rfl, rfl, rfl, rfl⟩
  | moved u pc called caller result => subst result; exact called.fixed.trans ⟨rfl, rfl, rfl, rfl, rfl⟩
  | stored a w v pc store bound result => subst result; exact ⟨rfl, rfl, rfl, rfl, rfl⟩
  | csr rd v pc f d writes ret dest result => subst result; exact ⟨rfl, rfl, rfl, rfl, rfl⟩
  | resized u n v called ecall low high result => subst result; exact called.fixed.trans ⟨rfl, rfl, rfl, rfl, rfl⟩
  | returned mret result =>
    subst result
    exact ⟨s.trapReturn_latchedCause, s.trapReturn_cycles, s.trapReturn_refused, s.trapReturn_dt, s.trapReturn_launch⟩

/-- Everything an instruction can do to the buffer: nothing; a store inside it; a new length in its range. -/
theorem Ending.mem (h : Ending i s t) :
    t.mem = s.mem ∨
    (isStore i = true ∧ ∃ a w v, a + accessBytes w ≤ s.mem.len ∧ t.mem = s.mem.store a w v) ∨
    (i = .ecall ∧ ∃ n, s.launch.stackEnd ≤ n ∧ n ≤ s.launch.heapLimit ∧ t.mem = s.mem.resize n) := by
  cases h with
  | trap u c called caller result => subst result; exact .inl called.mem
  | wrote u rd v pc called caller dest result => subst result; exact .inl called.mem
  | moved u pc called caller result => subst result; exact .inl called.mem
  | stored a w v pc store bound result => subst result; exact .inr (.inl ⟨store, a, w, v, bound, rfl⟩)
  | csr rd v pc f d writes ret dest result => subst result; exact .inl rfl
  | resized u n v called ecall low high result =>
    subst result
    exact .inr (.inr ⟨ecall, n, low, high, called.mem ▸ rfl⟩)
  | returned mret result => subst result; exact .inl s.trapReturn_mem

/-- The only register an instruction can change is its destination. -/
theorem Ending.cell (h : Ending i s t) {r : RegIdx} (hr : destination i ≠ some r) : t.cell r = s.cell r := by
  cases h with
  | trap u c called caller result => subst result; exact called.cell r
  | wrote u rd v pc called caller dest result =>
    subst result
    have hne : r ≠ rd := fun e => hr (e ▸ dest)
    exact (State.cell_writeReg_ne u hne v).trans (called.cell r)
  | moved u pc called caller result => subst result; exact called.cell r
  | stored a w v pc store bound result => subst result; rfl
  | csr rd v pc f d writes ret dest result =>
    subst result
    have hne : r ≠ rd := fun e => hr (e ▸ dest)
    split_ifs
    · exact State.cell_writeReg_ne s hne v
    · rfl
  | resized u n v called ecall low high result =>
    subst result ecall
    have hne : r ≠ a0 := fun e => hr (e ▸ rfl)
    exact (State.cell_answerCall_ne _ hne v).trans (called.cell r)
  | returned mret result =>
    subst result mret
    have hne : r ≠ a0 := fun e => hr (e ▸ rfl)
    exact (s.cell_trapReturn r).trans (if_neg fun e => hne e.1)

/-- Everything an instruction can do to the CSR cells: nothing; exception entry; a CSR access or a trap return. -/
theorem Ending.csrFile (h : Ending i s t) :
    t.csr = s.csr ∨ (∃ c calls, ExceptionEntered c calls s t) ∨ (writesCsr i = true ∧ i ≠ .mret) ∨
      (i = .mret ∧ t = s.trapReturn) := by
  cases h with
  | trap u c called caller result => subst result; exact .inr (.inl ⟨c, exceptionEntered_of_called called c⟩)
  | wrote u rd v pc called caller dest result => subst result; exact .inl called.csr
  | moved u pc called caller result => subst result; exact .inl called.csr
  | stored a w v pc store bound result => subst result; exact .inl rfl
  | csr rd v pc f d writes ret dest result => exact .inr (.inr (.inl ⟨writes, ret⟩))
  | resized u n v called ecall low high result => subst result; exact .inl called.csr
  | returned mret result => exact .inr (.inr (.inr ⟨mret, result⟩))

/-- The hook calls of an instruction: those of a state that differs from its start in the history of calls alone. -/
theorem Ending.called (h : Ending i s t) :
    ∃ u, Called s u ∧ (u = s ∨ mayCallHook i = true) ∧ t.hookLog = u.hookLog := by
  cases h with
  | trap u c called caller result => subst result; exact ⟨u, called, caller, rfl⟩
  | wrote u rd v pc called caller dest result => subst result; exact ⟨u, called, caller, rfl⟩
  | moved u pc called caller result => subst result; exact ⟨u, called, caller, rfl⟩
  | stored a w v pc store bound result => subst result; exact ⟨s, .inl rfl, .inl rfl, rfl⟩
  | csr rd v pc f d writes ret dest result => subst result; exact ⟨s, .inl rfl, .inl rfl, rfl⟩
  | resized u n v called ecall low high result => subst result ecall; exact ⟨u, called, .inr rfl, rfl⟩
  | returned mret result => subst result; exact ⟨s, .inl rfl, .inl rfl, s.trapReturn_hookLog⟩

end Ending

end Sys2Proof.Machine
end

section
/-! The statements about every instruction: what it can write, and which instructions can write it. -/

namespace Sys2Proof.Machine

/-- Settles O41: by the ways an instruction can end; only a CSR access and a trap return are left, and both write CSR
cells. -/
theorem csrCellsIsolated : Obligations.CsrCellsIsolated := by
  intro i s t h hw
  obtain hc | hc | ⟨hw', _⟩ | ⟨rfl, _⟩ := (exec_cases h).csrFile
  · exact .inl hc
  · exact .inr hc
  · rw [hw] at hw'; cases hw'
  · cases hw

/-- Settles O42: by the ways an instruction can end. -/
theorem registersIsolated : Obligations.RegistersIsolated := fun _ _ _ h _ hr => (exec_cases h).cell hr

/-- Settles O43: a store keeps the length, and a new length keeps the bytes below both lengths. -/
theorem memoryIsolated : Obligations.MemoryIsolated := by
  intro i s t h
  obtain hm | ⟨hs, a, w, v, _, hm⟩ | ⟨he, n, _, _, hm⟩ := (exec_cases h).mem <;> rw [hm]
  · exact ⟨fun _ => rfl, fun _ _ => rfl, fun _ _ _ => rfl⟩
  · exact ⟨fun _ => s.mem.store_len a w v, fun hn => absurd hs (by simp [hn]), fun hn => absurd hs (by simp [hn])⟩
  · exact ⟨fun hn => absurd he hn, fun _ hn => absurd he hn, fun _ _ ha => s.mem.read_resize_kept ha⟩

/-- Settles O44: an instruction ends in the history of one state that at most one call has reached. -/
theorem hookCallsBounded : Obligations.HookCallsBounded := by
  intro i s t h
  obtain ⟨u, called, caller, log⟩ := (exec_cases h).called
  rw [log]
  refine ⟨called.hookLog, fun hn => ?_, fun hl hs hc => congrArg _ (called.eq_of_no_hook hl hs hc)⟩
  obtain rfl | hm := caller
  · rfl
  · rw [hn] at hm; cases hm

end Sys2Proof.Machine
end

section
/-! SUPPORT. A step by what it fetches, and what every step keeps: the configuration, the range of the length and the
canonical form of the buffer. -/

namespace Sys2Proof.Machine

/-! ### A step by what it fetches (R141 to R143) -/

section Fetched

variable {s : State} (hr : s.refused = false) (hi : s.interruptReady = false)
include hr hi

theorem step_of_fetch_trap {c : Cause} (hf : s.fetch = .trap c) :
    step s = .next (s.clearX0.takeException c).countCycle := by
  rw [step_instruction hr hi, fetchExecute, State.fetch_clearX0, hf]
  rfl

theorem step_of_fetch_unsettled (hf : s.fetch = .unsettled) : step s = .refused .unsettledEncoding := by
  rw [step_instruction hr hi, fetchExecute, State.fetch_clearX0, hf]
  rfl

theorem step_of_fetch_run {i : Instr} (hf : s.fetch = .run i) : step s = countStep (exec i s.clearX0) := by
  rw [step_instruction hr hi, fetchExecute, State.fetch_clearX0, hf]

/-- A step whose fetch raises an exception enters it from the state with x0 cleared, and counts itself. -/
theorem step_enters_of_fetch_trap {c : Cause} (hf : s.fetch = .trap c) :
    ∃ t, step s = .next t.countCycle ∧ ExceptionEntered c [] s.clearX0 t :=
  ⟨_, step_of_fetch_trap hr hi hf, exceptionEntered_takeException s.clearX0 c⟩

end Fetched

/-! ### What every step keeps -/

section Step

variable {s t : State} (h : step s = .next t)
include h

/-- Everything a step can do to the buffer: nothing; a store inside it; a new length in its range. -/
theorem step_mem_cases :
    t.mem = s.mem ∨ (∃ a w v, a + accessBytes w ≤ s.mem.len ∧ t.mem = s.mem.store a w v) ∨
      ∃ n, s.launch.stackEnd ≤ n ∧ n ≤ s.launch.heapLimit ∧ t.mem = s.mem.resize n := by
  obtain ⟨_, ⟨_, rfl⟩ | ⟨_, c, _, rfl⟩ | ⟨_, i, u, _, he, rfl⟩⟩ := step_cases h
  · exact .inl rfl
  · exact .inl rfl
  · obtain hm | ⟨_, hm⟩ | ⟨_, hm⟩ := (exec_cases he).mem
    · exact .inl hm
    · exact .inr (.inl hm)
    · exact .inr (.inr hm)

/-- A step counts itself and leaves the rest of what no instruction writes alone. -/
theorem step_fixed : SameFixed s.countCycle t := by
  obtain ⟨_, ⟨_, rfl⟩ | ⟨_, c, _, rfl⟩ | ⟨_, i, u, _, he, rfl⟩⟩ := step_cases h
  · exact ⟨rfl, rfl, rfl, rfl, rfl⟩
  · exact ⟨rfl, rfl, rfl, rfl, rfl⟩
  · obtain ⟨latch, cycles, refused, dt, launch⟩ := (exec_cases he).fixed
    exact ⟨latch, congrArg (· + 1) cycles, refused, dt, launch⟩

/-- No step changes INIT_FILL. -/
theorem step_mem_fill : t.mem.fill = s.mem.fill := by
  obtain hm | ⟨a, w, v, _, hm⟩ | ⟨n, _, _, hm⟩ := step_mem_cases h <;> rw [hm]
  · exact s.mem.store_fill a w v
  · exact s.mem.resize_fill n

/-- Every step keeps the canonical form and the range of the length: a store stays inside the buffer, and a new length
is in the range. -/
theorem step_keeps_bufferInv (hs : BufferInv s) : BufferInv t := by
  obtain ⟨wf, low, high⟩ := hs
  have launch : t.launch = s.launch := (step_fixed h).launch
  obtain hm | ⟨a, w, v, bound, hm⟩ | ⟨n, low', high', hm⟩ := step_mem_cases h <;>
    simp only [BufferInv, memLenInRange, launch, hm]
  · exact ⟨wf, low, high⟩
  · exact ⟨Memory.wf_store wf v bound, (s.mem.store_len a w v).symm ▸ low, (s.mem.store_len a w v).symm ▸ high⟩
  · exact ⟨Memory.wf_resize wf n, low', high'⟩

end Step

/-! ### What every host action keeps -/

theorem stepMarking_keeps_bufferInv {s : State} (hs : BufferInv s) : BufferInv (stepMarking s) := by
  unfold stepMarking
  cases h : step s with
  | next t => exact step_keeps_bufferInv h hs
  | fault f => exact hs
  | refused r => exact hs

theorem steps_keeps_bufferInv (n : Nat) {s : State} (hs : BufferInv s) : BufferInv (steps n s) := by
  induction n generalizing s with
  | zero => exact hs
  | succ n ih => exact ih (stepMarking_keeps_bufferInv hs)

theorem HostAction.apply_keeps_bufferInv (a : HostAction) {s : State} (hs : BufferInv s) : BufferInv (a.apply s) := by
  cases a with
  | reset => exact hs
  | cycle n => exact steps_keeps_bufferInv n.toNat hs
  | externalInterrupt c => exact hs

theorem hostRun_keeps_bufferInv (actions : List HostAction) {s : State} (hs : BufferInv s) :
    BufferInv (hostRun actions s) := by
  induction actions generalizing s with
  | nil => exact hs
  | cons a rest ih => exact ih (a.apply_keeps_bufferInv hs)

theorem le_align16 (n : Nat) : n ≤ align16 n := by
  unfold align16
  omega

theorem programSize_le_stackEnd (p : Launch) : p.programSize ≤ p.stackEnd :=
  (le_align16 p.programSize).trans (Nat.le_add_right _ _)

theorem hostInitialize_of_length {p : Launch} {image : List Byte} (h : image.length = p.programSize)
    (fill : List Host.Cell) : ∃ s, hostInitialize p image fill = .next s ∧ s.launch = p ∧ s.refused = false ∧
      s.mem = Memory.initial fill image p.stackEnd ∧ s.dt = buildDecodeTable s.mem p.decodedBytes :=
  ⟨_, if_pos h, rfl, rfl, rfl, rfl⟩

theorem hostInitialize_of_length_ne {p : Launch} {image : List Byte} (h : image.length ≠ p.programSize)
    (fill : List Host.Cell) : hostInitialize p image fill = .refused .imageNotOfDeclaredSize :=
  if_neg h

/-- Initialize gives a state that meets the invariant: the image ends inside the buffer. -/
theorem hostInitialize_bufferInv {p : Launch} {image : List Byte} {fill : List Host.Cell} {s : State}
    (hf : rising fill = true) (hf0 : ∀ c ∈ fill, c.2 ≠ 0) (h : hostInitialize p image fill = .next s) :
    BufferInv s := by
  by_cases hlen : image.length = p.programSize
  · obtain ⟨t, ht, launch, _, mem, _⟩ := hostInitialize_of_length hlen fill
    obtain rfl : t = s := by rw [ht] at h; cases h; rfl
    have inside : image.length ≤ p.stackEnd := hlen ▸ programSize_le_stackEnd p
    simp only [BufferInv, memLenInRange, launch, mem]
    exact ⟨Memory.wf_initial hf hf0 inside, le_refl _, Nat.le_add_right _ _⟩
  · rw [hostInitialize_of_length_ne hlen] at h
    cases h

end Sys2Proof.Machine
end

section
/-! The invariant of the buffer, and what no step changes. -/

namespace Sys2Proof.Machine

/-- Settles O36: a step stores inside the buffer or sets a length in the range, and both keep the canonical form. -/
theorem invariantKept : Obligations.InvariantKept := fun _ _ hs h => step_keeps_bufferInv h hs

/-- Settles O37: `State.reset` is a closed state. -/
theorem invariantAtReset : Obligations.InvariantAtReset := by
  unfold Obligations.InvariantAtReset
  decide

/-- Settles O38, by induction on the host's actions and on the steps of a Cycle. -/
theorem invariantOfHostActions : Obligations.InvariantOfHostActions :=
  ⟨fun _ _ _ _ hf hf0 h => hostInitialize_bufferInv hf hf0 h, fun _ actions hs => hostRun_keeps_bufferInv actions hs⟩

/-- Settles O39: fetch depends on the pc and the decode table alone. -/
theorem stepKeepsConfiguration : Obligations.StepKeepsConfiguration := by
  intro s t h
  obtain ⟨latch, cycles, refused, dt, launch⟩ := step_fixed h
  exact ⟨dt, launch, step_mem_fill h, latch, refused, cycles, fun pc => State.fetch_congr rfl dt⟩

/-! ### CSR cells -/

/-- After trap entry the bits of mstatus other than MIE and MPIE are as before. -/
theorem ExceptionEntered.mstatus_other {c : Cause} {calls : List HookCall} {s t : State}
    (h : ExceptionEntered c calls s t) {j : Nat} (h3 : j ≠ 3) (h7 : j ≠ 7) :
    t.csr.mstatus.getLsbD j = s.csr.mstatus.getLsbD j := by
  rw [h.mstatus, if_neg h3, if_neg h7]

/-- Settles O45: the interrupt, an exception and MRET each write only MIE and MPIE of mstatus, and only the interrupt
writes mip. -/
theorem statusWrittenOnlyByCsrInstructions : Obligations.StatusWrittenOnlyByCsrInstructions := by
  intro s t h only
  obtain ⟨_, ⟨ready, rfl⟩ | ⟨_, c, _, rfl⟩ | ⟨ready, i, u, hf, he, rfl⟩⟩ := step_cases h
  case inl =>
    refine ⟨rfl, rfl, rfl, fun j h3 h7 => ?_, fun j h11 => ?_, fun _ => ⟨ready, ?_⟩⟩
    · exact (getLsbD_enterTrapStatus _ j).trans (by rw [if_neg h3, if_neg h7])
    · exact (getLsbD_setMeip _ _ j).trans (if_neg h11)
    · exact (getLsbD_setMeip _ _ 11).trans (if_pos rfl)
  case inr.inl =>
    have entered := exceptionEntered_takeException s.clearX0 c
    exact ⟨rfl, rfl, rfl, fun _ => entered.mstatus_other, fun _ _ => rfl, fun ne => absurd rfl ne⟩
  case inr.inr =>
    obtain same | ⟨c, calls, entered⟩ | ⟨writes, ne⟩ | ⟨_, rfl⟩ := (exec_cases he).csrFile
    · simp only [State.countCycle_csr, same]
      exact ⟨rfl, rfl, rfl, fun _ _ _ => rfl, fun _ _ => rfl, fun ne => absurd rfl ne⟩
    · have mip := congrArg BitVec.getLsbD entered.mip
      exact ⟨entered.mie, entered.mtvec, entered.mscratch, fun _ => entered.mstatus_other, fun j _ => congrFun mip j,
        fun ne => absurd (congrFun mip 11) ne⟩
    · exact absurd (only ready i hf writes) ne
    · simp only [State.countCycle_csr, State.trapReturn_csr, getLsbD_leaveTrapStatus]
      exact ⟨rfl, rfl, rfl, fun j h3 _ => if_neg h3, fun _ _ => rfl, fun ne => absurd rfl ne⟩

end Sys2Proof.Machine
end

section
/-! The statements about fetch and the step: the fetch checks, x0, exception entry, the interrupt, and the loops that
converge. -/

namespace Sys2Proof.Machine

/-! ### Fetch and x0 -/

/-- Settles O7: each case of the fetch checks is one of what fetch gives. -/
theorem fetchChecks : Obligations.FetchChecks := fun _ hr hi =>
  ⟨fun h => step_enters_of_fetch_trap hr hi (State.fetch_misaligned h),
    fun h ho => step_enters_of_fetch_trap hr hi (State.fetch_outside h ho),
    fun h _ => ⟨fun he => step_enters_of_fetch_trap hr hi (State.fetch_slot h he),
      fun he => step_of_fetch_unsettled hr hi (State.fetch_slot h he),
      fun _ he => step_of_fetch_run hr hi (State.fetch_slot h he)⟩⟩

/-- What cell 0 holds does not matter to an instruction step: the step clears it first (R150). -/
theorem step_writeReg_zero {s : State} (hi : s.interruptReady = false) (hr : s.refused = false) (v : Word) :
    step (s.writeReg 0 v) = step s := by
  have hi' : (s.writeReg 0 v).interruptReady = false := hi
  rw [step_instruction hr hi, step_instruction ((s.writeReg_refused 0 v).trans hr) hi', State.clearX0_writeReg_zero]

/-- Settles O8: an instruction step starts by clearing x0, whatever cell 0 holds. -/
theorem registerZeroIsHardwired : Obligations.RegisterZeroIsHardwired :=
  ⟨fun s => ⟨s.readReg_zero, fun _ => s.readReg_eq_cell⟩, fun _ v hi hr => step_writeReg_zero hi hr v,
    fun s => ⟨s.cell_clearX0_zero, fun _ => s.cell_clearX0_ne⟩⟩

/-! ### Exception entry -/

/-- The code of an exception has its top bit clear (R320). -/
theorem Cause.code_top (c : Cause) : c.code.getLsbD 31 = false := by
  cases c <;> rfl

/-- Settles O31: the step of an instruction is its ending, counted; after entry MIE is 0, and the base of mtvec is
aligned, so only its range is left to check. -/
theorem exceptionEntry : Obligations.ExceptionEntry := by
  refine ⟨fun s c => ⟨exceptionEntered_takeException s c, c.code_top⟩, fun s i t hr hi hf he => ?commit,
    fun s c hr outside => ?handler⟩
  case commit =>
    refine ⟨t.countCycle, ?_, rfl, congrArg (· + 1) (exec_cases he).fixed.cycles⟩
    rw [step_of_fetch_run hr hi hf, he]
    rfl
  case handler =>
    have hf : (s.takeException c).fetch = .trap .instAccess :=
      State.fetch_outside (vectorBase_aligned s.csr.mtvec) outside
    obtain ⟨u, hu, entered⟩ := step_enters_of_fetch_trap ((s.takeException_refused c).trans hr)
      (s.interruptReady_takeException c) hf
    exact ⟨u, hu, entered, entered.mepc⟩

/-- Settles O32: the codes as defined. -/
theorem causeCodes : Obligations.CauseCodes := ⟨rfl, rfl, rfl, rfl, rfl, rfl, rfl⟩

/-! ### The interrupt -/

/-- R315: the three bits that make the interrupt ready. -/
theorem State.interruptReady_iff (s : State) : s.interruptReady = true ↔
    s.csr.mstatus.getLsbD 3 = true ∧ s.csr.mie.getLsbD 11 = true ∧ s.csr.mip.getLsbD 11 = true := by
  simp [State.interruptReady, mieBit, meieBit, meipBit, and_assoc]

/-- The vector as a number (R322). -/
theorem vectorTarget_toNat (mtvec c : Word) :
    (vectorTarget mtvec c).toNat = (mtvec.toNat / 4 * 4 + if mtvec.getLsbD 0 then 4 * c.toNat else 0) % 2 ^ 32 := by
  have four : (4 : Word).toNat = 4 := rfl
  unfold vectorTarget vectoredBit
  split_ifs
  · rw [BitVec.toNat_add, BitVec.toNat_mul, vectorBase_toNat, four, Nat.add_mod_mod]
  · rw [vectorBase_toNat, Nat.add_zero]
    omega

/-- Settles O33: the three bits are what makes the interrupt ready, and entry writes what the statement lists. -/
theorem interruptStep_spec : Obligations.InterruptStep := by
  intro s hr
  refine ⟨fun hmie hmeie hmeip => ?taken, fun clear => ?notTaken⟩
  case taken =>
    refine ⟨_, step_interrupt hr (s.interruptReady_iff.mpr ⟨hmie, hmeie, hmeip⟩), rfl, rfl, fun j => ?_,
      fun j => getLsbD_setMeip s.csr.mip false j, rfl, rfl, rfl, rfl, vectorTarget_toNat _ _, fun _ => rfl, .of_eq rfl,
      rfl, rfl, hr, rfl, rfl, rfl, rfl⟩
    exact (getLsbD_enterTrapStatus s.csr.mstatus j).trans (by rw [hmie])
  case notTaken =>
    have hi : s.interruptReady = false := by
      rw [Bool.eq_false_iff, Ne, State.interruptReady_iff]
      rintro ⟨hmie, hmeie, hmeip⟩
      rw [hmie, hmeie, hmeip] at clear
      simp at clear
    exact step_instruction hr hi

/-- Setting MEIP again changes nothing. -/
theorem setMeip_setMeip (mip : Word) : setMeip (setMeip mip true) true = setMeip mip true := by
  apply BitVec.eq_of_getLsbD_eq
  intro j _
  simp only [getLsbD_setMeip]
  split_ifs <;> rfl

/-- Settles O34: the interrupt that ExternalInterrupt makes ready is the next step. -/
theorem externalInterruptDelivery : Obligations.ExternalInterruptDelivery := by
  intro s cause u
  have mip (j : Nat) : u.csr.mip.getLsbD j = if j = 11 then true else s.csr.mip.getLsbD j :=
    getLsbD_setMeip s.csr.mip true j
  refine ⟨⟨rfl, fun j => ?set, ?others, rfl, rfl, rfl, rfl, rfl, rfl, rfl, rfl, rfl⟩, fun later => ?last,
    fun hr hmie hmeie => ?next⟩
  case set =>
    rw [mip]
    by_cases hj : j = 11 <;> simp [hj]
  case others =>
    intro n hn
    cases n
    case mip => exact absurd rfl hn
    all_goals rfl
  case last => simp only [u, externalInterrupt, setMeip_setMeip]
  case next =>
    have ready : u.interruptReady = true := u.interruptReady_iff.mpr ⟨hmie, hmeie, mip 11⟩
    exact ⟨_, step_interrupt hr ready, (getLsbD_setMeip _ false 11).trans (if_pos rfl), rfl, rfl, rfl⟩

/-! ### Loops that converge (R326, R372) -/

theorem stepMarking_of_next {s t : State} (h : step s = .next t) : stepMarking s = t := by
  rw [stepMarking, h]

theorem steps_succ_of_next {s t : State} (h : step s = .next t) (n : Nat) : steps (n + 1) s = steps n t := by
  rw [steps, stepMarking_of_next h]

theorem converges_of_next {s t : State} (h : step s = .next t) (hpc : t.pc = s.pc) : converges s = true := by
  rw [converges, h]
  exact beq_iff_eq.mpr hpc

/-- The machine stands at its own trap-vector base with MIE clear, and fetching there raises `c`. -/
structure TrapLoop (c : Cause) (s : State) : Prop where
  refused : s.refused = false
  mie     : s.csr.mstatus.getLsbD 3 = false
  pc      : s.pc = vectorBase s.csr.mtvec
  fetch   : s.fetch = .trap c

/-- A step of the loop takes the exception again, and stays in the loop. -/
theorem TrapLoop.step {c : Cause} {s : State} (h : TrapLoop c s) :
    ∃ t, Machine.step s = .next t ∧ TrapLoop c t ∧ t.pc = s.pc ∧ t.csr.mcause = c.code ∧ t.csr.mepc = s.pc ∧
      t.cycles = s.cycles + 1 ∧ t.mem = s.mem := by
  have hi := State.interruptReady_of_mie h.mie
  refine ⟨_, step_of_fetch_trap h.refused hi h.fetch, ⟨h.refused, ?_, rfl, ?_⟩, h.pc.symm, rfl, rfl, rfl, rfl⟩
  · exact (getLsbD_enterTrapStatus s.csr.mstatus 3).trans (if_pos rfl)
  · exact (State.fetch_congr (t := (s.clearX0.takeException c).countCycle) h.pc.symm rfl).trans h.fetch

/-- Every later step takes it again. -/
theorem TrapLoop.steps {c : Cause} {s : State} (h : TrapLoop c s) (n : Nat) :
    (steps (n + 1) s).pc = s.pc ∧ (steps (n + 1) s).csr.mcause = c.code ∧ (steps (n + 1) s).csr.mepc = s.pc ∧
      (steps (n + 1) s).cycles = s.cycles + (n + 1) ∧ (steps (n + 1) s).mem = s.mem := by
  induction n generalizing s with
  | zero =>
    obtain ⟨t, ht, _, pc, mcause, mepc, cycles, mem⟩ := h.step
    rw [steps_succ_of_next ht]
    exact ⟨pc, mcause, mepc, cycles, mem⟩
  | succ n ih =>
    obtain ⟨t, ht, loop, pc, _, _, cycles, mem⟩ := h.step
    rw [steps_succ_of_next ht, ← pc, ← mem, show s.cycles + (n + 1 + 1) = t.cycles + (n + 1) by omega]
    exact ih loop

/-- The machine stands, no interrupt ready, at an instruction that jumps to itself. -/
structure SelfJump (s : State) : Prop where
  refused : s.refused = false
  ready   : s.interruptReady = false
  fetch   : s.fetch = .run (.jal 0 0)

/-- A step of the self-jump moves neither the pc nor a byte. -/
theorem SelfJump.step {s : State} (h : SelfJump s) :
    ∃ t, Machine.step s = .next t ∧ SelfJump t ∧ t.pc = s.pc ∧ t.mem = s.mem ∧ t.cycles = s.cycles + 1 := by
  have hpc : s.pc + 0 = s.pc := BitVec.add_zero s.pc
  refine ⟨_, step_of_fetch_run h.refused h.ready h.fetch, ⟨h.refused, h.ready, Eq.trans ?_ h.fetch⟩, hpc, rfl, rfl⟩
  exact State.fetch_congr hpc rfl

theorem SelfJump.steps {s : State} (h : SelfJump s) (n : Nat) :
    (steps n s).pc = s.pc ∧ (steps n s).mem = s.mem ∧ (steps n s).cycles = s.cycles + n := by
  induction n generalizing s with
  | zero => exact ⟨rfl, rfl, rfl⟩
  | succ n ih =>
    obtain ⟨t, ht, loop, pc, mem, cycles⟩ := h.step
    rw [steps_succ_of_next ht, ← pc, ← mem, show s.cycles + (n + 1) = t.cycles + n by omega]
    exact ih loop

/-- Settles O35: a step of either loop stays in it. -/
theorem trapLoopConverges : Obligations.TrapLoopConverges := by
  refine ⟨fun s c hr hmie hpc hf => ?trap, fun s hr hi hf => ?jump⟩
  case trap =>
    have loop : TrapLoop c s := ⟨hr, hmie, hpc, hf⟩
    obtain ⟨t, ht, _, pc, _⟩ := loop.step
    exact ⟨converges_of_next ht pc, loop.steps⟩
  case jump =>
    have loop : SelfJump s := ⟨hr, hi, hf⟩
    obtain ⟨t, ht, _, pc, _⟩ := loop.step
    exact ⟨converges_of_next ht pc, loop.steps⟩

/-! ### Cycle(n) (R151) -/

theorem steps_add (m n : Nat) (s : State) : steps (m + n) s = steps n (steps m s) := by
  induction m generalizing s with
  | zero => rw [Nat.zero_add]; rfl
  | succ m ih => rw [Nat.succ_add]; exact ih (stepMarking s)

theorem stepMarking_of_refused {s : State} {r : Refusal} (h : step s = .refused r) :
    stepMarking s = { s with refused := true } := by
  rw [stepMarking, h]

theorem steps_of_refused_mark (n : Nat) {s : State} (h : s.refused = true) : steps n s = s := by
  induction n with
  | zero => rfl
  | succ n ih =>
    have marked : stepMarking s = { s with refused := true } :=
      stepMarking_of_refused (r := .runRefused) (by rw [step, h]; rfl)
    have same : { s with refused := true } = s := by rw [← h]
    rw [steps, marked, same, ih]

/-- Settles O50: Cycle is `steps`, which adds up; a refused state steps no further and keeps its mark. -/
theorem cycleComposes : Obligations.CycleComposes := by
  refine ⟨fun s m n hm hn => ?sum, fun s n hn => ?nonpos, fun s t n h hn => ?succ, fun s r n h hn => ?refusal⟩
  case sum => rw [cycle, Int.toNat_add hm hn, steps_add]; rfl
  case nonpos => rw [cycle, Int.toNat_of_nonpos hn]; rfl
  case succ => rw [cycle, Int.toNat_add hn (by norm_num)]; exact steps_succ_of_next h n.toNat
  case refusal =>
    obtain ⟨k, hk⟩ := Nat.exists_eq_succ_of_ne_zero (by omega : n.toNat ≠ 0)
    rw [cycle, hk, steps, stepMarking_of_refused h]
    exact steps_of_refused_mark k rfl

end Sys2Proof.Machine
end

section
/-! SUPPORT. ECALL, branch by branch: the hook's answer, and the fallback under the condition that picks its branch
(R290 to R294). -/

namespace Sys2Proof.Machine

/-- The syscall hook's answer (R291). -/
def State.syscallAnswer (s : State) : Option Word :=
  Config.syscallAnswer s.hookLog (s.readReg 17) (s.readReg 10) (s.readReg 11) (s.readReg 12) (s.readReg 13)
    (s.readReg 14) (s.readReg 15) (s.readReg 16)

/-- The call of the syscall hook as the history records it, with the given answer. -/
def State.syscallCall (s : State) (answer : Option Word) : HookCall :=
  .syscall (s.readReg 17) (s.readReg 10) (s.readReg 11) (s.readReg 12) (s.readReg 13) (s.readReg 14) (s.readReg 15)
    (s.readReg 16) answer

section Ecall

variable {s : State}

theorem execEcall_of_no_hook (hs : s.launch.syscallHook = false) : execEcall s = execSyscallFallback s := by
  rw [execEcall, hs]
  rfl

theorem callSyscallHook_of_answer {r : Option Word} (ha : s.syscallAnswer = r) :
    s.callSyscallHook = (r, s.recordCall (s.syscallCall r)) := by
  subst ha
  rfl

theorem execEcall_of_claim (hs : s.launch.syscallHook = true) {v : Word} (ha : s.syscallAnswer = some v) :
    execEcall s = .next ((s.recordCall (s.syscallCall (some v))).answerCall v) := by
  rw [execEcall, if_pos hs, callSyscallHook_of_answer ha]

theorem execEcall_of_no_claim (hs : s.launch.syscallHook = true) (ha : s.syscallAnswer = none) :
    execEcall s = execSyscallFallback (s.recordCall (s.syscallCall none)) := by
  rw [execEcall, if_pos hs, callSyscallHook_of_answer ha]

theorem execSyscallFallback_brk (h : s.readReg 17 = s.launch.sysBrk) : execSyscallFallback s = execBrk s := if_pos h

theorem execSyscallFallback_fstat (hb : s.readReg 17 ≠ s.launch.sysBrk) (hf : s.readReg 17 = s.launch.sysFstat) :
    execSyscallFallback s = .next (s.answerCall (0 - s.launch.enosys)) :=
  (if_neg hb).trans (if_pos hf)

theorem execSyscallFallback_unclaimed (hb : s.readReg 17 ≠ s.launch.sysBrk) (hf : s.readReg 17 ≠ s.launch.sysFstat) :
    execSyscallFallback s = .next (s.takeException .ecallM) :=
  (if_neg hb).trans (if_neg hf)

theorem execBrk_query (h0 : (s.readReg 10).toNat = 0) : execBrk s = .next (s.answerCall (BitVec.ofNat 32 s.mem.len)) :=
  if_pos h0

theorem execBrk_outside (h0 : (s.readReg 10).toNat ≠ 0)
    (ho : (s.readReg 10).toNat < s.launch.stackEnd ∨ 2 ^ 31 ≤ (s.readReg 10).toNat) :
    execBrk s = .refused .brkOutsideModel :=
  (if_neg h0).trans (if_pos ho)

theorem execBrk_resize (h0 : (s.readReg 10).toNat ≠ 0)
    (ho : ¬((s.readReg 10).toNat < s.launch.stackEnd ∨ 2 ^ 31 ≤ (s.readReg 10).toNat)) :
    execBrk s = .next (State.answerCall
      { s with mem := s.mem.resize (min (s.readReg 10).toNat s.launch.heapLimit) }
      (BitVec.ofNat 32 (min (s.readReg 10).toNat s.launch.heapLimit))) :=
  (if_neg h0).trans (if_neg ho)

end Ecall

end Sys2Proof.Machine
end

section
/-! Which steps refuse: every instruction but ECALL has a successor, and ECALL refuses only a brk request. -/

namespace Sys2Proof.Machine

/-- Every instruction but ECALL has a successor. -/
theorem exec_next {i : Instr} (hi : i ≠ .ecall) (s : State) : ∃ t, exec i s = .next t := by
  cases i
  case ecall => exact absurd rfl hi
  case lb | lh | lw | lbu | lhu =>
    obtain ⟨u, _, ⟨c, h⟩ | ⟨v, h⟩⟩ := execLoad_cases _ _ _ _ s <;> exact ⟨_, h⟩
  case sb | sh | sw =>
    obtain ⟨u, _, ⟨c, h⟩ | h⟩ | ⟨_, h⟩ := execStore_cases _ _ _ s <;> exact ⟨_, h⟩
  case csrrw | csrrs | csrrc | csrrwi | csrrsi | csrrci =>
    obtain h | ⟨old, f, d, h⟩ := csrInstr_cases _ _ _ _ _ s <;> exact ⟨_, h⟩
  all_goals exact ⟨_, rfl⟩

/-- The brk request of `s` is outside the model (R292, D25). -/
def BrkOutside (s : State) : Prop :=
  s.readReg 17 = s.launch.sysBrk ∧ (s.readReg 10).toNat ≠ 0 ∧
    ((s.readReg 10).toNat < s.launch.stackEnd ∨ 2 ^ 31 ≤ (s.readReg 10).toNat)

theorem execSyscallFallback_refused {s : State} {r : Refusal} (h : execSyscallFallback s = .refused r) :
    r = .brkOutsideModel ∧ BrkOutside s := by
  by_cases num : s.readReg 17 = s.launch.sysBrk
  · rw [execSyscallFallback_brk num] at h
    by_cases zero : (s.readReg 10).toNat = 0
    · cases (execBrk_query zero).symm.trans h
    · by_cases outside : (s.readReg 10).toNat < s.launch.stackEnd ∨ 2 ^ 31 ≤ (s.readReg 10).toNat
      · cases (execBrk_outside zero outside).symm.trans h
        exact ⟨rfl, num, zero, outside⟩
      · cases (execBrk_resize zero outside).symm.trans h
  · by_cases fstat : s.readReg 17 = s.launch.sysFstat
    · cases (execSyscallFallback_fstat num fstat).symm.trans h
    · cases (execSyscallFallback_unclaimed num fstat).symm.trans h

/-- An instruction that refuses is an ECALL with a brk request outside the model; the hook was asked before. -/
theorem exec_refused {i : Instr} {s : State} {r : Refusal} (h : exec i s = .refused r) :
    i = .ecall ∧ r = .brkOutsideModel ∧ BrkOutside s := by
  by_cases hi : i = .ecall
  · subst hi
    obtain ⟨u, called, ⟨v, he⟩ | he⟩ := execEcall_cases s
    · cases he.symm.trans h
    · obtain ⟨reason, num, req⟩ := execSyscallFallback_refused (he.symm.trans h)
      rw [State.readReg_congr called.regs, called.launch] at num req
      exact ⟨rfl, reason, num, req⟩
  · obtain ⟨t, ht⟩ := exec_next hi s
    cases ht.symm.trans h

/-- Settles O40: an instruction step by what it fetches; of the instructions only ECALL refuses, and only for brk. -/
theorem onlyTwoRefusals : Obligations.OnlyTwoRefusals := by
  intro s hr
  cases hi : s.interruptReady
  case true =>
    rw [step_interrupt hr hi]
    exact ⟨⟨nofun, fun h => nomatch h.1⟩, nofun, nofun⟩
  case false =>
    cases hf : s.fetch with
    | trap c =>
      rw [step_of_fetch_trap hr hi hf]
      exact ⟨⟨nofun, fun h => nomatch h.2⟩, nofun, nofun⟩
    | unsettled =>
      rw [step_of_fetch_unsettled hr hi hf]
      exact ⟨⟨fun _ => ⟨rfl, rfl⟩, fun _ => rfl⟩, fun _ h => by cases h; exact .inl rfl, nofun⟩
    | run i =>
      rw [step_of_fetch_run hr hi hf]
      cases he : exec i s.clearX0 with
      | next t => exact ⟨⟨nofun, fun h => nomatch h.2⟩, nofun, nofun⟩
      | fault f => nomatch f
      | refused r =>
        obtain ⟨rfl, rfl, num, req⟩ := exec_refused he
        simp only [State.readReg_clearX0, State.clearX0_launch] at num req
        refine ⟨⟨nofun, fun h => nomatch h.2⟩, fun r' h => ?_, nofun⟩
        cases h
        exact .inr ⟨rfl, rfl, rfl, num, req⟩

end Sys2Proof.Machine
end

section
/-! The latch and the counter are hidden: an instruction behaves the same whatever they hold. -/

namespace Sys2Proof.Machine

/-- The state with another latch and another counter. -/
def State.withHidden (s : State) (cause : Word) (n : Nat) : State := { s with latchedCause := cause, cycles := n }

/-- The same outcome but for the latch and the counter of its state. -/
def resultWithHidden (cause : Word) (n : Nat) : Result → Result
  | .next t => .next (t.withHidden cause n)
  | .fault f => .fault f
  | .refused r => .refused r

section Hidden

variable (s : State) (cause : Word) (n : Nat)

theorem execBranch_withHidden (taken : Bool) (imm : Word) :
    execBranch taken imm (s.withHidden cause n) = resultWithHidden cause n (execBranch taken imm s) := by
  cases taken <;> rfl

theorem execLoad_withHidden (rd : RegIdx) (addr : Word) (w : Width) (signed : Bool) :
    execLoad rd addr w signed (s.withHidden cause n) = resultWithHidden cause n (execLoad rd addr w signed s) := by
  unfold execLoad
  by_cases aligned : addr.toNat % accessBytes w = 0
  · by_cases served : HookServes s.launch.loadHook addr
    · rw [s.memRead_hook aligned served, State.memRead_hook (s.withHidden cause n) aligned served]
      simp only [State.withHidden]
      cases Config.loadAnswer s.hookLog addr w signed <;> rfl
    · by_cases inside : addr.toNat + accessBytes w ≤ s.mem.len
      · rw [s.memRead_buffer aligned served inside, State.memRead_buffer (s.withHidden cause n) aligned served inside]
        rfl
      · have outside := Nat.lt_of_not_le inside
        rw [s.memRead_outside aligned served outside,
          State.memRead_outside (s.withHidden cause n) aligned served outside]
        rfl
  · rw [s.memRead_misaligned aligned, State.memRead_misaligned (s.withHidden cause n) aligned]
    rfl

theorem execStore_withHidden (addr : Word) (w : Width) (v : Word) :
    execStore addr w v (s.withHidden cause n) = resultWithHidden cause n (execStore addr w v s) := by
  unfold execStore
  by_cases aligned : addr.toNat % accessBytes w = 0
  · by_cases served : HookServes s.launch.storeHook addr
    · rw [s.memWrite_hook aligned served, State.memWrite_hook (s.withHidden cause n) aligned served]
      simp only [State.withHidden]
      cases Config.storeAnswer s.hookLog addr w (hookValue w v) <;> rfl
    · by_cases inside : addr.toNat + accessBytes w ≤ s.mem.len
      · rw [s.memWrite_buffer aligned served inside, State.memWrite_buffer (s.withHidden cause n) aligned served inside]
        rfl
      · have outside := Nat.lt_of_not_le inside
        rw [s.memWrite_outside aligned served outside,
          State.memWrite_outside (s.withHidden cause n) aligned served outside]
        rfl
  · rw [s.memWrite_misaligned aligned, State.memWrite_misaligned (s.withHidden cause n) aligned]
    rfl

theorem csrInstr_withHidden (op : CsrOp) (rd : RegIdx) (src : BitVec 5) (v : Word) (csr : CsrAddr) :
    csrInstr op rd src v csr (s.withHidden cause n) = resultWithHidden cause n (csrInstr op rd src v csr s) := by
  cases h : csrResolve csr with
  | some name => rw [csrInstr_resolved h, csrInstr_resolved h]; rfl
  | none =>
    cases hm : s.launch.csrUnresolved with
    | strict => rw [csrInstr_strict h hm, csrInstr_strict (s := s.withHidden cause n) h hm]; rfl
    | sink => rw [csrInstr_sink h hm, csrInstr_sink (s := s.withHidden cause n) h hm]; rfl

theorem execBrk_withHidden : execBrk (s.withHidden cause n) = resultWithHidden cause n (execBrk s) := by
  by_cases zero : (s.readReg 10).toNat = 0
  · rw [execBrk_query zero, execBrk_query (s := s.withHidden cause n) zero]
    rfl
  · by_cases outside : (s.readReg 10).toNat < s.launch.stackEnd ∨ 2 ^ 31 ≤ (s.readReg 10).toNat
    · rw [execBrk_outside zero outside, execBrk_outside (s := s.withHidden cause n) zero outside]
      rfl
    · rw [execBrk_resize zero outside, execBrk_resize (s := s.withHidden cause n) zero outside]
      rfl

theorem execSyscallFallback_withHidden :
    execSyscallFallback (s.withHidden cause n) = resultWithHidden cause n (execSyscallFallback s) := by
  by_cases brk : s.readReg 17 = s.launch.sysBrk
  · rw [execSyscallFallback_brk brk, execSyscallFallback_brk (s := s.withHidden cause n) brk, execBrk_withHidden]
  · by_cases fstat : s.readReg 17 = s.launch.sysFstat
    · rw [execSyscallFallback_fstat brk fstat, execSyscallFallback_fstat (s := s.withHidden cause n) brk fstat]
      rfl
    · rw [execSyscallFallback_unclaimed brk fstat, execSyscallFallback_unclaimed (s := s.withHidden cause n) brk fstat]
      rfl

theorem execEcall_withHidden : execEcall (s.withHidden cause n) = resultWithHidden cause n (execEcall s) := by
  cases hs : s.launch.syscallHook
  case false =>
    rw [execEcall_of_no_hook hs, execEcall_of_no_hook (s := s.withHidden cause n) hs, execSyscallFallback_withHidden]
  case true =>
    cases ha : s.syscallAnswer with
    | none =>
      rw [execEcall_of_no_claim hs ha, execEcall_of_no_claim (s := s.withHidden cause n) hs ha]
      exact execSyscallFallback_withHidden (s.recordCall (s.syscallCall none)) cause n
    | some v =>
      rw [execEcall_of_claim hs ha, execEcall_of_claim (s := s.withHidden cause n) hs ha]
      rfl

theorem execMret_withHidden : execMret (s.withHidden cause n) = resultWithHidden cause n (execMret s) := by
  unfold execMret State.trapReturn
  by_cases hv : s.csr.mtval ≠ 0
  · rw [if_pos hv, if_pos (show (s.withHidden cause n).csr.mtval ≠ 0 from hv)]
    rfl
  · rw [if_neg hv, if_neg (show ¬(s.withHidden cause n).csr.mtval ≠ 0 from hv)]
    rfl

/-- An instruction does not depend on the latch or the counter (R38, R42). -/
theorem exec_withHidden (i : Instr) :
    exec i (s.withHidden cause n) = resultWithHidden cause n (exec i s) := by
  cases i
  case beq | bne | blt | bge | bltu | bgeu => exact execBranch_withHidden s cause n _ _
  case lb | lh | lw | lbu | lhu => exact execLoad_withHidden s cause n _ _ _ _
  case sb | sh | sw => exact execStore_withHidden s cause n _ _ _
  case csrrw | csrrs | csrrc | csrrwi | csrrsi | csrrci => exact csrInstr_withHidden s cause n _ _ _ _ _
  case ecall => exact execEcall_withHidden s cause n
  case mret => exact execMret_withHidden s cause n
  all_goals rfl

end Hidden

/-- A step with no interrupt ready has the same outcome but for the latch, and for the counter, which it counts on. -/
theorem step_withHidden {s : State} (hi : s.interruptReady = false) (cause : Word) (n : Nat) :
    step (s.withHidden cause n) = resultWithHidden cause (n + 1) (step s) := by
  by_cases hr : s.refused = true
  · rw [step, step, if_pos hr, if_pos (show (s.withHidden cause n).refused = true from hr)]
    rfl
  · rw [Bool.not_eq_true] at hr
    have hr' : (s.withHidden cause n).refused = false := hr
    have hi' : (s.withHidden cause n).interruptReady = false := hi
    have hf' : (s.withHidden cause n).fetch = s.fetch := rfl
    cases hf : s.fetch with
    | trap c => rw [step_of_fetch_trap hr hi hf, step_of_fetch_trap hr' hi' (hf'.trans hf)]; rfl
    | unsettled => rw [step_of_fetch_unsettled hr hi hf, step_of_fetch_unsettled hr' hi' (hf'.trans hf)]; rfl
    | run i =>
      rw [step_of_fetch_run hr hi hf, step_of_fetch_run hr' hi' (hf'.trans hf),
        show (s.withHidden cause n).clearX0 = s.clearX0.withHidden cause n from rfl, exec_withHidden]
      cases exec i s.clearX0 <;> rfl

/-- Settles O46: no instruction reads the latch or the counter. -/
theorem latchAndCounterHidden : Obligations.LatchAndCounterHidden := by
  intro s cause n hi
  refine (step_withHidden hi cause n).trans ?_
  cases step s <;> rfl

end Sys2Proof.Machine
end

section
/-! SUPPORT. The rows of the control, memory and SYSTEM opcodes, and the frames of an instruction that has made hook
calls. -/

namespace Sys2Proof.Machine

/-! ### Rows under an opcode with a decoder of its own -/

theorem decodeWord_branch {w : Word} (h : opcodeOf w = 0x63#7) : decodeWord w = decodeBranch w := by
  simp only [decodeWord, h]

theorem decodeWord_load {w : Word} (h : opcodeOf w = 0x03#7) : decodeWord w = decodeLoad w := by
  simp only [decodeWord, h]

theorem decodeWord_store {w : Word} (h : opcodeOf w = 0x23#7) : decodeWord w = decodeStore w := by
  simp only [decodeWord, h]

theorem decodeWord_system {w : Word} (h : opcodeOf w = 0x73#7) : decodeWord w = decodeSystem w := by
  simp only [decodeWord, h]

/-- A row whose opcode has the decoder `d`: its funct3 decides. -/
theorem decodesAs_of_decoder {op : BitVec 7} {d : Word → Slot} (hd : ∀ {w}, opcodeOf w = op → decodeWord w = d w)
    {bits : Word} {f3 : BitVec 3} {f : Word → Instr} (hop : opcodeOf bits = op) (hf3 : funct3Of bits = f3)
    (h : ∀ w, funct3Of w = f3 → d w = .record (f w)) : DecodesAs bits 0x0000707F f :=
  decodesAs_of_funct3 hop hf3 fun w ho h3 => (hd ho).trans (h w h3)

/-! ### Frames after hook calls -/

theorem regWritten_withCalls (s : State) (calls : List HookCall) (rd : RegIdx) (v pc : Word) :
    RegWritten rd v calls s { (s.withCalls calls).writeReg rd v with pc := pc } where
  result := State.cell_writeReg_self _ rd v
  others := fun _ h => State.cell_writeReg_ne _ h v
  csr := rfl
  memory := .of_eq rfl
  fixed := ⟨rfl, rfl, rfl, rfl, rfl⟩
  hookLog := rfl
  draws := rfl

theorem nothingWritten_withCalls (s : State) (calls : List HookCall) (pc : Word) :
    NothingWritten calls s { s.withCalls calls with pc := pc } where
  regs := fun _ => rfl
  csr := rfl
  memory := .of_eq rfl
  fixed := ⟨rfl, rfl, rfl, rfl, rfl⟩
  hookLog := rfl
  draws := rfl

/-! ### Transfers of control (R200) -/

/-- A target that is not a multiple of 4 faults at the next fetch (D13). -/
theorem step_of_misaligned_pc {s : State} (hp : s.pc.toNat % 4 ≠ 0) (hr : s.refused = false)
    (hi : s.interruptReady = false) :
    ∃ t, step s = .next t.countCycle ∧ ExceptionEntered .instMisaligned [] s.clearX0 t ∧ t.csr.mepc = s.pc := by
  obtain ⟨t, ht, entered⟩ := step_enters_of_fetch_trap hr hi (State.fetch_misaligned hp)
  exact ⟨t, ht, entered, entered.mepc⟩

/-- JALR's target is its sum with bit 0 cleared. -/
theorem getLsbD_clearBit0 (v : Word) (j : Nat) : (v &&& 0xFFFFFFFE).getLsbD j = (decide (1 ≤ j) && v.getLsbD j) := by
  by_cases hj : j < 32
  · have mask : ∀ k < 32, (0xFFFFFFFE : Word).getLsbD k = decide (1 ≤ k) := by decide
    rw [BitVec.getLsbD_and, mask j hj, Bool.and_comm]
  · rw [BitVec.getLsbD_of_ge _ _ (by omega), BitVec.getLsbD_of_ge _ _ (by omega), Bool.and_false]

/-- An instruction that ends in `execBranch` is a branch on its condition. -/
theorem branches_of_exec {i : Instr} {taken : Bool} {cond : Prop} {imm : Word} {s : State}
    (h : exec i s = execBranch taken imm s) (hc : taken = true ↔ cond) : Branches i cond imm s := by
  refine ⟨_, h, ?_, fun c => by rw [if_pos (hc.mpr c)]; rfl, fun c => by rw [if_neg fun e => c (hc.mp e)]; rfl⟩
  split_ifs
  · exact nothingWritten_pc s _
  · exact nothingWritten_pc s _

end Sys2Proof.Machine
end

section
/-! The statements of the jumps and branches. -/

namespace Sys2Proof.Machine

/-- Settles O16: the opcode decides the row; a jump writes the link and the pc and does not look at the target. -/
theorem jumpAndLink : Obligations.JumpAndLink := by
  refine ⟨decodesAs_of_opcode rfl fun w ho => ?encoding, fun s rd imm =>
    ⟨⟨_, rfl, regWritten_writeReg s rd _ _, rfl, State.cell_clearX0_zero _⟩, fun u he hp hr hi => ?misaligned⟩⟩
  case encoding => rw [decodeWord, ho]; rfl
  case misaligned => cases he; exact step_of_misaligned_pc hp hr hi

/-- Settles O17: opcode and funct3 decide the row; the target is read before the link is written. -/
theorem jumpAndLinkRegister : Obligations.JumpAndLinkRegister := by
  refine ⟨decodesAs_of_funct3 rfl rfl fun w ho h3 => ?encoding, fun s rd rs1 imm =>
    ⟨⟨_, rfl, regWritten_writeReg s rd _ _, State.cell_clearX0_zero _, getLsbD_clearBit0 _⟩,
      fun u _ hp hr hi => step_of_misaligned_pc hp hr hi⟩⟩
  case encoding => rw [decodeWord, ho]; exact if_pos h3

/-- Settles O18: each comparison decides the condition of its branch. -/
theorem conditionalBranches : Obligations.ConditionalBranches := by
  refine ⟨decodesAs_of_decoder decodeWord_branch rfl rfl fun w h3 => ?_,
    decodesAs_of_decoder decodeWord_branch rfl rfl fun w h3 => ?_,
    decodesAs_of_decoder decodeWord_branch rfl rfl fun w h3 => ?_,
    decodesAs_of_decoder decodeWord_branch rfl rfl fun w h3 => ?_,
    decodesAs_of_decoder decodeWord_branch rfl rfl fun w h3 => ?_,
    decodesAs_of_decoder decodeWord_branch rfl rfl fun w h3 => ?_, fun s rs1 rs2 imm =>
    ⟨branches_of_exec rfl beq_iff_eq, branches_of_exec rfl bne_iff_ne, branches_of_exec rfl (by simp [lessSigned]),
      branches_of_exec rfl (by simp [lessSigned]), branches_of_exec rfl (by simp [lessUnsigned]),
      branches_of_exec rfl (by simp [lessUnsigned]), fun _ _ u _ hp hr hi => step_of_misaligned_pc hp hr hi⟩⟩
  all_goals rw [decodeBranch, h3]; rfl

end Sys2Proof.Machine
end

section
/-! SUPPORT. Loads and stores: the value of a load as the little-endian number of its bytes, the low bytes the store
hook is given, and what a stored word reads back as. -/

namespace Sys2Proof.Machine

/-! ### Little-endian values (R73, R80) -/

theorem append_eq_ofNat {n m : Nat} (hi : BitVec n) (lo : BitVec m) :
    hi ++ lo = BitVec.ofNat (n + m) (lo.toNat + 2 ^ m * hi.toNat) := by
  apply BitVec.eq_of_toNat_eq
  rw [BitVec.toNat_append, ← Nat.shiftLeft_add_eq_or_of_lt lo.isLt, Nat.shiftLeft_eq, BitVec.toNat_ofNat,
    Nat.mod_eq_of_lt]
  · ring
  · have h1 := hi.isLt
    have h2 := lo.isLt
    rw [pow_add]
    nlinarith

theorem ofNat_leValue_one (m : Memory) (a : Nat) : BitVec.ofNat 8 (leValue m a 1) = m.read a := by
  simp [leValue]

theorem ofNat_leValue_two (m : Memory) (a : Nat) : BitVec.ofNat 16 (leValue m a 2) = m.read (a + 1) ++ m.read a :=
  (append_eq_ofNat _ _).symm

theorem ofNat_leValue_four (m : Memory) (a : Nat) :
    BitVec.ofNat 32 (leValue m a 4) = m.read (a + 3) ++ m.read (a + 2) ++ m.read (a + 1) ++ m.read a := by
  simp only [append_eq_ofNat]
  apply BitVec.eq_of_toNat_eq
  simp only [leValue, BitVec.toNat_ofNat, Nat.add_assoc, Nat.reduceAdd]
  omega

/-- A word loaded from the buffer is the little-endian value of its four bytes, extended or not. -/
theorem Memory.load_word (m : Memory) (a : Nat) (signed : Bool) :
    m.load a .word signed = BitVec.ofNat 32 (leValue m a 4) :=
  (ofNat_leValue_four m a).symm

/-- The value of a load from the buffer (R80). -/
theorem Memory.load_eq_leValue (m : Memory) (a : Nat) (w : Width) (signed : Bool) :
    m.load a w signed =
      if signed then (BitVec.ofNat (8 * accessBytes w) (leValue m a (accessBytes w))).signExtend 32
      else (BitVec.ofNat (8 * accessBytes w) (leValue m a (accessBytes w))).setWidth 32 := by
  cases w
  case byte => simp only [accessBytes, Nat.reduceMul, ofNat_leValue_one]; rfl
  case half => simp only [accessBytes, Nat.reduceMul, ofNat_leValue_two]; rfl
  case word =>
    rw [m.load_word]
    cases signed
    · exact (BitVec.setWidth_eq _).symm
    · exact (BitVec.signExtend_eq _).symm

/-- The value the store hook is given, as a number (D22). -/
theorem hookValue_eq_ofNat (w : Width) (v : Word) :
    hookValue w v = BitVec.ofNat 32 (v.toNat % 2 ^ (8 * accessBytes w)) := by
  apply BitVec.eq_of_toNat_eq
  have hv := v.isLt
  cases w
  case word => simp only [hookValue, accessBytes, BitVec.toNat_ofNat]; omega
  all_goals
    simp only [hookValue, accessBytes, BitVec.toNat_setWidth, BitVec.extractLsb'_toNat, BitVec.toNat_ofNat,
      Nat.shiftRight_zero]

/-! ### A stored word, read back (R73, R74) -/

theorem Memory.load_byte_of_store_word (m : Memory) (a : Nat) (v : Word) {k : Nat} (hk : k < 4) (signed : Bool) :
    (m.store a .word v).load (a + k) .byte signed =
      if signed then (v.extractLsb' (8 * k) 8).signExtend 32 else (v.extractLsb' (8 * k) 8).setWidth 32 := by
  rw [Memory.load, m.read_store_inside a .word v hk]

theorem Memory.load_half_of_store_word (m : Memory) (a : Nat) (v : Word) {k : Nat} (hk : k + 1 < 4) (signed : Bool) :
    (m.store a .word v).load (a + k) .half signed =
      if signed then (v.extractLsb' (8 * k) 16).signExtend 32 else (v.extractLsb' (8 * k) 16).setWidth 32 := by
  rw [Memory.load, m.read_store_inside a .word v (Nat.lt_of_succ_lt hk), Nat.add_assoc,
    m.read_store_inside a .word v hk, BitVec.extractLsb'_append_extractLsb'_eq_extractLsb' (Nat.mul_add 8 k 1)]

theorem Memory.load_word_of_store_word (m : Memory) (a : Nat) (v : Word) (signed : Bool) :
    (m.store a .word v).load a .word signed = v := by
  have byte {k : Nat} (hk : k < 4) := m.read_store_inside a .word v hk
  have byte0 : (m.store a .word v).read a = v.extractLsb' (8 * 0) 8 :=
    m.read_store_inside a .word v (k := 0) (by decide)
  rw [Memory.load, byte (by omega : 3 < 4), byte (by omega : 2 < 4), byte (by omega : 1 < 4), byte0]
  exact wordOfBytes_bytes v

/-- A field of a word, zero-extended, as a number. -/
theorem setWidth_extract_eq_ofNat (v : Word) (start len : Nat) :
    (v.extractLsb' start len).setWidth 32 = BitVec.ofNat 32 (v.toNat / 2 ^ start % 2 ^ len) := by
  apply BitVec.eq_of_toNat_eq
  rw [BitVec.toNat_setWidth, BitVec.extractLsb'_toNat, BitVec.toNat_ofNat, Nat.shiftRight_eq_div_pow]

/-! ### What a load and a store do, by the case of the access (R80, R81) -/

section LoadStore

variable {s : State} {i : Instr} {rd : RegIdx} {ea x : Word} {w : Width} {signed : Bool}

theorem raises_of_takeException {c : Cause} (calls : List HookCall)
    (h : exec i s = .next ((s.withCalls calls).takeException c)) : Raises i c calls s :=
  ⟨_, h, exceptionEntered_withCalls s calls c⟩

section Load

variable (h : exec i s = execLoad rd ea w signed s)
include h

theorem raises_of_load_misaligned (ha : ea.toNat % accessBytes w ≠ 0) : Raises i .loadMisaligned [] s :=
  raises_of_takeException [] (by rw [h, execLoad, s.memRead_misaligned ha]; rfl)

theorem load_of_hook_answer (ha : ea.toNat % accessBytes w = 0) (hh : HookServes s.launch.loadHook ea) {v : Word}
    (hv : Config.loadAnswer s.hookLog ea w signed = some v) :
    ∃ t, exec i s = .next t ∧ RegWritten rd v [.load ea w signed (some v)] s t ∧ t.pc = s.pc + 4 :=
  ⟨_, by rw [h, execLoad, s.memRead_hook ha hh, hv]; rfl,
    regWritten_withCalls s [.load ea w signed (some v)] rd v _, rfl⟩

theorem raises_of_load_hook_none (ha : ea.toNat % accessBytes w = 0) (hh : HookServes s.launch.loadHook ea)
    (hv : Config.loadAnswer s.hookLog ea w signed = none) : Raises i .loadFault [.load ea w signed none] s :=
  raises_of_takeException _ (by rw [h, execLoad, s.memRead_hook ha hh, hv]; rfl)

theorem computes_of_load_buffer (ha : ea.toNat % accessBytes w = 0) (hh : ¬HookServes s.launch.loadHook ea)
    (hb : ea.toNat + accessBytes w ≤ s.mem.len) : Computes i rd (s.mem.load ea.toNat w signed) s :=
  ⟨_, by rw [h, execLoad, s.memRead_buffer ha hh hb]; rfl, regWritten_writeReg s rd _ _, rfl, State.cell_clearX0_zero _⟩

theorem raises_of_load_outside (ha : ea.toNat % accessBytes w = 0) (hh : ¬HookServes s.launch.loadHook ea)
    (hb : s.mem.len < ea.toNat + accessBytes w) : Raises i .loadFault [] s :=
  raises_of_takeException [] (by rw [h, execLoad, s.memRead_outside ha hh hb]; rfl)

end Load

section Store

variable (h : exec i s = execStore ea w x s)
include h

theorem raises_of_store_misaligned (ha : ea.toNat % accessBytes w ≠ 0) : Raises i .loadMisaligned [] s :=
  raises_of_takeException [] (by rw [h, execStore, s.memWrite_misaligned ha]; rfl)

theorem store_of_hook_accept (ha : ea.toNat % accessBytes w = 0) (hh : HookServes s.launch.storeHook ea)
    (hv : Config.storeAnswer s.hookLog ea w (hookValue w x) = true) :
    ∃ t, exec i s = .next t ∧ NothingWritten [.store ea w (hookValue w x) true] s t ∧ t.pc = s.pc + 4 :=
  ⟨_, by rw [h, execStore, s.memWrite_hook ha hh, hv]; rfl,
    nothingWritten_withCalls s [.store ea w (hookValue w x) true] _, rfl⟩

theorem raises_of_store_hook_reject (ha : ea.toNat % accessBytes w = 0) (hh : HookServes s.launch.storeHook ea)
    (hv : Config.storeAnswer s.hookLog ea w (hookValue w x) = false) :
    Raises i .storeFault [.store ea w (hookValue w x) false] s :=
  raises_of_takeException _ (by rw [h, execStore, s.memWrite_hook ha hh, hv]; rfl)

theorem store_of_buffer (ha : ea.toNat % accessBytes w = 0) (hh : ¬HookServes s.launch.storeHook ea)
    (hb : ea.toNat + accessBytes w ≤ s.mem.len) :
    exec i s = .next (State.advance { s with mem := s.mem.store ea.toNat w x }) := by
  rw [h, execStore, s.memWrite_buffer ha hh hb]

theorem raises_of_store_outside (ha : ea.toNat % accessBytes w = 0) (hh : ¬HookServes s.launch.storeHook ea)
    (hb : s.mem.len < ea.toNat + accessBytes w) : Raises i .storeFault [] s :=
  raises_of_takeException [] (by rw [h, execStore, s.memWrite_outside ha hh hb]; rfl)

end Store

end LoadStore

/-- With no hook installed, none serves an address. -/
theorem not_hookServes_of_none {base : Option Word} (h : base = none) (addr : Word) : ¬HookServes base addr :=
  fun hh => hh.installed h

end Sys2Proof.Machine
end

section
/-! The statements of the loads and stores. -/

namespace Sys2Proof.Machine

/-- The five loads are one load path at five widths and extensions. -/
theorem exec_load_of_mem {s : State} {rd rs1 : RegIdx} {imm : Word} {i : Instr} {w : Width} {n : Nat} {signed : Bool}
    (h : (i, w, n, signed) ∈
      [(Instr.lb rd rs1 imm, Width.byte, 1, true), (.lh rd rs1 imm, .half, 2, true), (.lw rd rs1 imm, .word, 4, true),
        (.lbu rd rs1 imm, .byte, 1, false), (.lhu rd rs1 imm, .half, 2, false)]) :
    exec i s = execLoad rd (s.readReg rs1 + imm) w signed s ∧ n = accessBytes w := by
  simp only [List.mem_cons, Prod.mk.injEq, List.not_mem_nil, or_false] at h
  obtain ⟨rfl, rfl, rfl, rfl⟩ | ⟨rfl, rfl, rfl, rfl⟩ | ⟨rfl, rfl, rfl, rfl⟩ | ⟨rfl, rfl, rfl, rfl⟩ |
    ⟨rfl, rfl, rfl, rfl⟩ := h
  all_goals exact ⟨rfl, rfl⟩

/-- Settles O19: the four cases of the load path. -/
theorem loads : Obligations.Loads := by
  refine ⟨decodesAs_of_decoder decodeWord_load rfl rfl fun w h3 => ?_,
    decodesAs_of_decoder decodeWord_load rfl rfl fun w h3 => ?_,
    decodesAs_of_decoder decodeWord_load rfl rfl fun w h3 => ?_,
    decodesAs_of_decoder decodeWord_load rfl rfl fun w h3 => ?_,
    decodesAs_of_decoder decodeWord_load rfl rfl fun w h3 => ?_, fun s rd rs1 imm i w n signed hmem => ?path⟩
  case path =>
    obtain ⟨h, rfl⟩ := exec_load_of_mem (s := s) hmem
    refine ⟨raises_of_load_misaligned h, fun ha hh => ?hook, fun ha hh hb => ?buffer, raises_of_load_outside h⟩
    case hook =>
      split
      · next hv => exact load_of_hook_answer h ha hh hv
      · next hv => exact raises_of_load_hook_none h ha hh hv
    case buffer => exact s.mem.load_eq_leValue _ w signed ▸ computes_of_load_buffer h ha hh hb
  all_goals rw [decodeLoad, h3]; rfl

/-- The three stores are one store path at three widths. -/
theorem exec_store_of_mem {s : State} {rs1 rs2 : RegIdx} {imm : Word} {i : Instr} {w : Width} {n : Nat}
    (h : (i, w, n) ∈
      [(Instr.sb rs1 rs2 imm, Width.byte, 1), (.sh rs1 rs2 imm, .half, 2), (.sw rs1 rs2 imm, .word, 4)]) :
    exec i s = execStore (s.readReg rs1 + imm) w (s.readReg rs2) s ∧ n = accessBytes w := by
  simp only [List.mem_cons, Prod.mk.injEq, List.not_mem_nil, or_false] at h
  obtain ⟨rfl, rfl, rfl⟩ | ⟨rfl, rfl, rfl⟩ | ⟨rfl, rfl, rfl⟩ := h
  all_goals exact ⟨rfl, rfl⟩

/-- Settles O20: the four cases of the store path. -/
theorem stores : Obligations.Stores := by
  refine ⟨decodesAs_of_decoder decodeWord_store rfl rfl fun w h3 => ?_,
    decodesAs_of_decoder decodeWord_store rfl rfl fun w h3 => ?_,
    decodesAs_of_decoder decodeWord_store rfl rfl fun w h3 => ?_, fun s rs1 rs2 imm i w n hmem => ?path⟩
  case path =>
    obtain ⟨h, rfl⟩ := exec_store_of_mem (s := s) hmem
    intro ea x low
    have hlow : low = hookValue w x := (hookValue_eq_ofNat w x).symm
    rw [hlow]
    refine ⟨raises_of_store_misaligned h, fun ha hh => ?hook, fun ha hh hb => ?buffer, raises_of_store_outside h⟩
    case hook =>
      split
      · next hv => exact store_of_hook_accept h ha hh hv
      · next hv => exact raises_of_store_hook_reject h ha hh hv
    case buffer => exact ⟨_, store_of_buffer h ha hh hb, bytesStored_store s _ w x _, rfl⟩
  all_goals rw [decodeStore, h3]; rfl

/-- After a word is stored at `a`, a load `k` bytes on that stays within the word reads the buffer there. -/
theorem computes_of_load_stored {u : State} {m : Memory} {a k : Nat} {v ea x : Word} {i : Instr} {rd : RegIdx}
    {w : Width} {signed : Bool} (hm : u.mem = m.store a .word v) (hl : u.launch.loadHook = none) (ha : a % 4 = 0)
    (hb : a + 4 ≤ m.len) (h : exec i u = execLoad rd ea w signed u) (hea : ea.toNat = a + k)
    (hk : k + accessBytes w ≤ 4) (hw : k % accessBytes w = 0) (hx : (m.store a .word v).load (a + k) w signed = x) :
    Computes i rd x u := by
  have aligned : ea.toNat % accessBytes w = 0 := by
    rw [hea]
    cases w <;> simp only [accessBytes] at hw ⊢ <;> omega
  have inside : ea.toNat + accessBytes w ≤ u.mem.len := by
    rw [hea, hm, m.store_len]
    omega
  rw [← hx, ← hea, ← hm]
  exact computes_of_load_buffer h aligned (not_hookServes_of_none hl ea) inside

/-- An offset within the word does not wrap around. -/
theorem toNat_add_offset {b imm : Word} {k : Nat} (h : (b + imm).toNat + 4 ≤ 2 ^ 32) (hk : k < 4) :
    (b + (imm + BitVec.ofNat 32 k)).toNat = (b + imm).toNat + k := by
  rw [← BitVec.add_assoc, BitVec.toNat_add, BitVec.toNat_ofNat]
  omega

/-- Settles O21: each load reads the buffer `k` bytes into the stored word. -/
theorem mixedWidthView : Obligations.MixedWidthView := by
  intro s u rs1 rs2 rd imm a v ha hb hs hl he
  have fits : a.toNat + 4 ≤ 2 ^ 32 := by
    have := a.isLt
    omega
  have off {k : Nat} := toNat_add_offset (b := s.readReg rs1) (imm := imm) (k := k) fits
  cases (store_of_buffer (i := .sw rs1 rs2 imm) (w := .word) rfl ha (not_hookServes_of_none hs a) hb).symm.trans he
  have reads {k : Nat} {ea x : Word} {i : Instr} {w : Width} {signed : Bool} :=
    computes_of_load_stored (u := State.advance { s with mem := s.mem.store a.toNat .word v }) (k := k) (ea := ea)
      (x := x) (i := i) (rd := rd) (w := w) (signed := signed) rfl hl ha hb
  have byte {k : Nat} (hk : k < 4) := s.mem.load_byte_of_store_word a.toNat v hk
  have half {k : Nat} (hk : k + 1 < 4) := s.mem.load_half_of_store_word a.toNat v hk
  refine ⟨?lw, ?lhu0, ?lhu2, ?lh0, ?lh2, fun k hk => ⟨?lbu, ?lb⟩⟩
  case lw => exact reads (k := 0) rfl rfl (by decide) rfl (s.mem.load_word_of_store_word a.toNat v true)
  case lhu0 =>
    refine reads (k := 0) rfl rfl (by decide) rfl ((half (by decide) false).trans ?_)
    exact (setWidth_extract_eq_ofNat v 0 16).trans (by rw [pow_zero, Nat.div_one])
  case lhu2 =>
    refine reads rfl (off (by decide)) (by decide) rfl ((half (by decide) false).trans ?_)
    exact (setWidth_extract_eq_ofNat v 16 16).trans (by rw [Nat.mod_eq_of_lt (by omega)])
  case lh0 => exact reads (k := 0) rfl rfl (by decide) rfl (half (by decide) true)
  case lh2 => exact reads rfl (off (by decide)) (by decide) rfl (half (by decide) true)
  case lbu => exact reads rfl (off hk) hk (Nat.mod_one k) ((byte hk false).trans (setWidth_extract_eq_ofNat v _ 8))
  case lb => exact reads rfl (off hk) hk (Nat.mod_one k) (byte hk true)

end Sys2Proof.Machine
end

section
/-! The statements of the CSR instructions: a row each for the encoding, and `csrInstr` by the address it is given. -/

namespace Sys2Proof.Machine

theorem zimmWord_eq_ofNat (zimm : BitVec 5) : zimmWord zimm = BitVec.ofNat 32 zimm.toNat := by
  apply BitVec.eq_of_toNat_eq
  rw [zimmWord, BitVec.toNat_setWidth, BitVec.toNat_ofNat]

/-- The cell is read and `rd` written, or not if it is x0; a cell gets the file `f` it is given. -/
theorem cell_of_csr_access (s : State) (rd r : RegIdx) (old : Word) (f : CsrFile) (d : Nat) :
    State.cell (State.advance
      { s with regs := if rd ≠ 0 then (s.writeReg rd old).regs else s.regs, csr := f, draws := d }) r =
      if rd ≠ 0 ∧ r = rd then old else s.cell r := by
  by_cases hrd : rd = 0
  · simp only [hrd, ne_eq, not_true_eq_false, if_false, false_and]
    rfl
  · simp only [ne_eq, hrd, not_false_eq_true, if_true, true_and]
    split_ifs with hr
    · exact hr ▸ s.cell_writeReg_self rd old
    · exact s.cell_writeReg_ne hr old

section Access

variable {i : Instr} {op : CsrOp} {rd : RegIdx} {src : BitVec 5} {v : Word} {csr : CsrAddr} {s : State}
  (h : exec i s = csrInstr op rd src v csr s)
include h

/-- A CSR instruction on a resolved address accesses its cell (R276). -/
theorem csrAccessed_of_exec {n : CsrName} (hn : csrResolve csr = some n) {new : Word}
    (hnew : new = if src = 0 then s.csr.get n else csrNew op (s.csr.get n) v) :
    ∃ t, exec i s = .next t ∧ CsrAccessed rd n new s t := by
  refine ⟨_, h.trans (csrInstr_resolved hn op rd src v), fun hrd => ?_, fun r hr => ?_, ?_, fun m hm => ?_, rfl,
    .of_eq rfl, ⟨rfl, rfl, rfl, rfl, rfl⟩, rfl, rfl⟩
  · exact (cell_of_csr_access s rd rd _ _ s.draws).trans (if_pos ⟨hrd, rfl⟩)
  · exact (cell_of_csr_access s rd r _ _ s.draws).trans (if_neg fun e => hr.elim (· e.2) e.1)
  · rw [hnew]
    obtain rfl | hs := eq_or_ne src 0
    · rfl
    · rw [if_neg hs, State.advance_csr, if_pos hs]
      exact CsrFile.get_put_self s.csr n _
  · obtain rfl | hs := eq_or_ne src 0
    · rfl
    · rw [State.advance_csr, if_pos hs]
      exact CsrFile.get_put_ne s.csr hm _

/-- A CSR instruction on an unresolved address (R270; D6, D7). -/
theorem unresolved_of_exec (hn : csrResolve csr = none) :
    (s.launch.csrUnresolved = .strict → Raises i .illegalInst [] s) ∧
      (s.launch.csrUnresolved = .sink → ∃ t, exec i s = .next t ∧ SinkAccessed rd s t) := by
  refine ⟨fun hm => ⟨_, h.trans (csrInstr_strict hn hm op rd src v), exceptionEntered_takeException s _⟩, fun hm => ?_⟩
  refine ⟨_, h.trans (csrInstr_sink hn hm op rd src v), fun hrd => ?_, fun r hr => ?_, rfl, rfl, .of_eq rfl,
    ⟨rfl, rfl, rfl, rfl, rfl⟩, rfl, rfl⟩
  · exact (cell_of_csr_access s rd rd _ s.csr _).trans (if_pos ⟨hrd, rfl⟩)
  · exact (cell_of_csr_access s rd r _ s.csr _).trans (if_neg fun e => hr.elim (· e.2) e.1)

end Access

/-- Settles O25: funct3 decides the row under SYSTEM, and the update is the instruction's. -/
theorem csrRegisterForms : Obligations.CsrRegisterForms := by
  refine ⟨decodesAs_of_decoder decodeWord_system rfl rfl fun w h3 => ?_,
    decodesAs_of_decoder decodeWord_system rfl rfl fun w h3 => ?_,
    decodesAs_of_decoder decodeWord_system rfl rfl fun w h3 => ?_, fun s rd rs1 csr =>
    ⟨fun n hn => ⟨csrAccessed_of_exec rfl hn rfl, csrAccessed_of_exec rfl hn rfl, csrAccessed_of_exec rfl hn rfl⟩,
      fun hn i hi => ?unresolved⟩⟩
  case unresolved =>
    simp only [List.mem_cons, List.not_mem_nil, or_false] at hi
    obtain rfl | rfl | rfl := hi
    all_goals exact unresolved_of_exec rfl hn
  all_goals rw [decodeSystem, h3]; rfl

/-- Settles O26: with a zero immediate, setting or clearing its bits is no update. -/
theorem csrImmediateForms : Obligations.CsrImmediateForms := by
  refine ⟨decodesAs_of_decoder decodeWord_system rfl rfl fun w h3 => ?_,
    decodesAs_of_decoder decodeWord_system rfl rfl fun w h3 => ?_,
    decodesAs_of_decoder decodeWord_system rfl rfl fun w h3 => ?_, fun s rd zimm csr =>
    ⟨fun n hn => ?resolved, fun hn i hi => ?unresolved⟩⟩
  case resolved =>
    rw [← zimmWord_eq_ofNat]
    refine ⟨csrAccessed_of_exec rfl hn rfl, csrAccessed_of_exec rfl hn ?set, csrAccessed_of_exec rfl hn ?clear⟩
    case set =>
      split_ifs with hz
      · exact hz ▸ BitVec.or_zero
      · rfl
    case clear =>
      split_ifs with hz
      · exact hz ▸ BitVec.and_allOnes
      · rfl
  case unresolved =>
    simp only [List.mem_cons, List.not_mem_nil, or_false] at hi
    obtain rfl | rfl | rfl := hi
    all_goals exact unresolved_of_exec rfl hn
  all_goals rw [decodeSystem, h3]; rfl

/-- Settles O24: each address by evaluation; another one passes all eight comparisons. -/
theorem csrAddresses : Obligations.CsrAddresses := by
  refine ⟨by decide, fun a ha => ?_⟩
  simp only [List.mem_cons, List.not_mem_nil, or_false, not_or] at ha
  obtain ⟨h0, h1, h2, h3, h4, h5, h6, h7⟩ := ha
  simp only [csrResolve, h0, h1, h2, h3, h4, h5, h6, h7, if_false]

end Sys2Proof.Machine
end

section
/-! The statements of ECALL, MRET and FENCE. -/

namespace Sys2Proof.Machine

/-- ECALL by its hook: a claim is written to a0; without one it is the fallback, after the call (R290, R291). -/
theorem afterHook_of_fallback {s : State} {fallback : List HookCall → Prop}
    (h : ∀ calls, exec .ecall s = execSyscallFallback (s.withCalls calls) → fallback calls) : AfterHook s fallback := by
  unfold AfterHook
  split_ifs with hs
  · split
    · next v ha => exact ⟨_, execEcall_of_claim hs ha, rfl, regWritten_withCalls s [s.syscallCall (some v)] a0 v _⟩
    · next ha => exact h [s.syscallCall none] (execEcall_of_no_claim hs ha)
  · exact h [] (execEcall_of_no_hook (Bool.eq_false_iff.mpr hs))

/-- brk has set the length: what it keeps and what it fills (R86, R292). -/
theorem lengthSet_withCalls (s : State) (calls : List HookCall) {n : Nat} (hn : n < 2 ^ 32) :
    LengthSet n calls s
      (State.answerCall { s.withCalls calls with mem := (s.withCalls calls).mem.resize n } (BitVec.ofNat 32 n)) where
  result := by rw [State.cell_answerCall_self, BitVec.toNat_ofNat, Nat.mod_eq_of_lt hn]
  others := fun _ hr => State.cell_answerCall_ne _ hr _
  csr := rfl
  pc := rfl
  len := rfl
  kept := fun _ ha => s.mem.read_resize_kept ha
  fresh := fun _ ha _ => s.mem.read_resize_new (le_trans (min_le_left _ _) ha)
  fill := rfl
  fixed := ⟨rfl, rfl, rfl, rfl, rfl⟩
  hookLog := rfl
  draws := rfl

/-- Settles O27: the three ranges of a request. -/
theorem ecallBrk : Obligations.EcallBrk := by
  intro s hnum req
  refine ⟨fun h0 => afterHook_of_fallback fun calls he => ?query,
    fun h0 hlo hhi => afterHook_of_fallback fun calls he => ?resize,
    fun h0 ho => afterHook_of_fallback fun calls he => ?outside⟩
  all_goals rw [execSyscallFallback_brk (s := s.withCalls calls) hnum] at he
  case query =>
    exact ⟨_, he.trans (execBrk_query (s := s.withCalls calls) h0), regWritten_withCalls s calls a0 _ _, rfl⟩
  case resize =>
    have inside : ¬(req < s.launch.stackEnd ∨ 2 ^ 31 ≤ req) := by omega
    exact ⟨_, he.trans (execBrk_resize (s := s.withCalls calls) h0 inside), lengthSet_withCalls s calls (by omega)⟩
  case outside => exact he.trans (execBrk_outside (s := s.withCalls calls) h0 ho)

/-- Settles O28: the fallback's second branch, and `0 - ENOSYS` as a number. -/
theorem ecallFstat : Obligations.EcallFstat := by
  refine ⟨fun s hb hf => afterHook_of_fallback fun calls he => ?_, by decide⟩
  have value : 0 - s.launch.enosys = BitVec.ofNat 32 (2 ^ 32 - s.launch.enosys.toNat) := by
    apply BitVec.eq_of_toNat_eq
    simp
  rw [execSyscallFallback_fstat (s := s.withCalls calls) hb hf] at he
  rw [← value]
  exact ⟨_, he, regWritten_withCalls s calls a0 _ _, rfl⟩

/-- Settles O29: the fallback's last branch. -/
theorem ecallUnclaimed_spec : Obligations.EcallUnclaimed := fun s hb hf =>
  afterHook_of_fallback fun calls he =>
    raises_of_takeException calls (he.trans (execSyscallFallback_unclaimed (s := s.withCalls calls) hb hf))

/-- Settles O30: the fields of trap return, one law each. -/
theorem trapReturn : Obligations.TrapReturn := by
  intro s
  refine ⟨_, rfl, s.trapReturn_pc, fun j => ?_, fun n hn => ?_, s.cell_trapReturn, .of_eq s.trapReturn_mem,
    ⟨s.trapReturn_latchedCause, s.trapReturn_cycles, s.trapReturn_refused, s.trapReturn_dt, s.trapReturn_launch⟩,
    s.trapReturn_hookLog, s.trapReturn_draws⟩
  · rw [s.trapReturn_csr, getLsbD_leaveTrapStatus]
  · rw [s.trapReturn_csr]
    cases n
    case mstatus => exact absurd rfl hn
    all_goals rfl

/-- Settles O23: funct3 000 under MISC-MEM, and only the pc moves on. -/
theorem fence : Obligations.Fence := by
  refine ⟨decodesAs_of_decoder decodeWord_miscMem rfl rfl fun w h3 => ?encoding, fun s fm pred succ rs1 rd =>
    ⟨s.advance, rfl, nothingWritten_pc s _, s.advance_pc⟩⟩
  case encoding => rw [decodeMiscMem, h3]; rfl

end Sys2Proof.Machine
end

section
/-! The statements of the opcode table: which words a row has. -/

namespace Sys2Proof.Machine

/-- Settles O1: by evaluation. -/
theorem exampleWordsDecode : Obligations.ExampleWordsDecode := by
  unfold Obligations.ExampleWordsDecode
  decide

/-- The word of an instruction has the fixed bits of its row, by the instruction's format. -/
theorem encode_and_mask (i : Instr) : encode i &&& (opcodeRow i).mask = (opcodeRow i).bits := by
  cases i
  case lui | auipc => exact (Laws.encU_mask _ _ _).trans rfl
  case jal => exact (Laws.encJ_mask _ _ _).trans rfl
  case beq | bne | blt | bge | bltu | bgeu => exact (Laws.encB_mask _ _ _ _ _).trans rfl
  case sb | sh | sw => exact (Laws.encS_mask _ _ _ _ _).trans rfl
  case slli | srli | srai => exact (Laws.encR_mask _ _ _ _ _ _).trans rfl
  case add | sub | sll | slt | sltu | xor | srl | sra | or | and => exact (Laws.encR_mask _ _ _ _ _ _).trans rfl
  case mul | mulh | mulhsu | mulhu | div | divu | rem | remu => exact (Laws.encR_mask _ _ _ _ _ _).trans rfl
  case ecall | mret => rfl
  all_goals exact (Laws.encI_mask _ _ _ _ _).trans rfl

/-- A row that decodes as `f` gives an instruction of that row. -/
theorem DecodesAs.row {bits mask : Word} {f : Word → Instr} (d : DecodesAs bits mask f) {w : Word}
    (hw : w &&& mask = bits) {r : OpcodeRow} (hr : opcodeRow (f w) = r) :
    ∃ j, decodeWord w = .record j ∧ opcodeRow j = r :=
  ⟨f w, d w hw, hr⟩

/-- A row that fixes the whole word. -/
theorem decodesAs_of_word {bits : Word} {i : Instr} (h : decodeWord bits = .record i) :
    DecodesAs bits 0xFFFFFFFF (fun _ => i) := by
  intro w hw
  have all : w &&& BitVec.allOnes 32 = bits := hw
  rw [BitVec.and_allOnes] at all
  rw [all, h]

/-- Every row decides the words that have its bits. -/
theorem decodes_of_row {w : Word} (i : Instr) (h : w &&& (opcodeRow i).mask = (opcodeRow i).bits) :
    ∃ j, decodeWord w = .record j ∧ opcodeRow j = opcodeRow i := by
  obtain ⟨lui, auipc, _⟩ := upperImmediates
  obtain ⟨addi, slti, sltiu, xori, ori, andi, _⟩ := immediateOperations
  obtain ⟨slli, srli, srai, sll, srl, sra, _⟩ := shifts
  obtain ⟨add, sub, slt, sltu, xor, or, and, _⟩ := registerOperations
  obtain ⟨jal, _⟩ := jumpAndLink
  obtain ⟨jalr, _⟩ := jumpAndLinkRegister
  obtain ⟨beq, bne, blt, bge, bltu, bgeu, _⟩ := conditionalBranches
  obtain ⟨lb, lh, lw, lbu, lhu, _⟩ := loads
  obtain ⟨sb, sh, sw, _⟩ := stores
  obtain ⟨mul, mulh, mulhsu, mulhu, _⟩ := multiply
  obtain ⟨div, divu, rem, remu, _⟩ := divide
  obtain ⟨fence, _⟩ := fence
  obtain ⟨fenceI, _⟩ := fenceI
  obtain ⟨csrrw, csrrs, csrrc, _⟩ := csrRegisterForms
  obtain ⟨csrrwi, csrrsi, csrrci, _⟩ := csrImmediateForms
  have ecall : DecodesAs 0x00000073 0xFFFFFFFF fun _ => .ecall := decodesAs_of_word (by decide)
  have mret : DecodesAs 0x30200073 0xFFFFFFFF fun _ => .mret := decodesAs_of_word (by decide)
  cases i
  exacts [lui.row h rfl, auipc.row h rfl, addi.row h rfl, slti.row h rfl, sltiu.row h rfl, xori.row h rfl,
    ori.row h rfl, andi.row h rfl, slli.row h rfl, srli.row h rfl, srai.row h rfl, add.row h rfl, sub.row h rfl,
    sll.row h rfl, slt.row h rfl, sltu.row h rfl, xor.row h rfl, srl.row h rfl, sra.row h rfl, or.row h rfl,
    and.row h rfl, jal.row h rfl, jalr.row h rfl, beq.row h rfl, bne.row h rfl, blt.row h rfl, bge.row h rfl,
    bltu.row h rfl, bgeu.row h rfl, lb.row h rfl, lh.row h rfl, lw.row h rfl, lbu.row h rfl, lhu.row h rfl,
    sb.row h rfl, sh.row h rfl, sw.row h rfl, mul.row h rfl, mulh.row h rfl, mulhsu.row h rfl, mulhu.row h rfl,
    div.row h rfl, divu.row h rfl, rem.row h rfl, remu.row h rfl, fence.row h rfl, fenceI.row h rfl,
    csrrw.row h rfl, csrrs.row h rfl, csrrc.row h rfl, csrrwi.row h rfl, csrrsi.row h rfl, csrrci.row h rfl,
    ecall.row h rfl, mret.row h rfl]

/-- Settles O4: a decoded word is its instruction's own word, which has the row's bits. -/
theorem opcodeTableDecides : Obligations.OpcodeTableDecides := by
  refine ⟨fun w i => decodes_of_row i, fun w i h => ?_⟩
  obtain ⟨_, rfl⟩ := isWordOf_of_decodeWord h
  exact encode_and_mask i

end Sys2Proof.Machine
end

section
/-! The division identity: quotient times divisor plus remainder is the dividend, and the signed remainder is the
remainder of truncating division. -/

namespace Sys2Proof.Machine

/-- The two corners, and otherwise the identity of the integers modulo 2^32 (R249). -/
theorem divSigned_mul_add_remSigned (a b : Word) : a = divSigned a b * b + remSigned a b := by
  by_cases h0 : b = 0
  · rw [divSigned_of_zero h0, remSigned_of_zero h0, h0, mul_zero, zero_add]
  · by_cases ho : a = 0x80000000 ∧ b = 0xFFFFFFFF
    · obtain ⟨rfl, rfl⟩ := ho
      decide
    · rw [divSigned_of_no_overflow h0 ho, remSigned_of_no_overflow h0 ho]
      calc a
        _ = BitVec.ofInt 32 (a.toInt.tdiv b.toInt * b.toInt + (a.toInt - a.toInt.tdiv b.toInt * b.toInt)) := by
          rw [add_sub_cancel, BitVec.ofInt_toInt]
        _ = _ := by rw [BitVec.ofInt_add, BitVec.ofInt_mul, BitVec.ofInt_toInt]

theorem remSigned_eq_srem {a b : Word} (h0 : b ≠ 0) (ho : ¬(a = 0x80000000 ∧ b = 0xFFFFFFFF)) :
    remSigned a b = a.srem b := by
  rw [remSigned_of_no_overflow h0 ho, mul_comm, ← Int.tmod_def, ← BitVec.toInt_srem, BitVec.ofInt_toInt]

/-- A remainder of truncating division is 0 or has the dividend's sign. -/
theorem srem_msb (a b : Word) : a.srem b = 0 ∨ (a.srem b).msb = a.msb := by
  rw [BitVec.msb_eq_toInt, BitVec.msb_eq_toInt, ← BitVec.toInt_inj, BitVec.toInt_srem,
    show (0 : Word).toInt = 0 from rfl]
  rcases le_or_gt 0 a.toInt with ha | ha
  · have hr : 0 ≤ a.toInt.tmod b.toInt := Int.tmod_nonneg _ ha
    exact .inr (by rw [decide_eq_false (not_lt.mpr hr), decide_eq_false (not_lt.mpr ha)])
  · have hr : 0 ≤ (-a.toInt).tmod b.toInt := Int.tmod_nonneg _ (by omega)
    rw [Int.neg_tmod] at hr
    rcases eq_or_ne (a.toInt.tmod b.toInt) 0 with h | h
    · exact .inl h
    · exact .inr (by rw [decide_eq_true ha, decide_eq_true (by omega)])

/-- The signed remainder is 0 or has the dividend's sign (R249). -/
theorem remSigned_msb (a b : Word) : remSigned a b = 0 ∨ (remSigned a b).msb = a.msb := by
  by_cases h0 : b = 0
  · exact .inr (by rw [remSigned_of_zero h0])
  · by_cases ho : a = 0x80000000 ∧ b = 0xFFFFFFFF
    · exact .inl (remSigned_of_overflow ho.1 ho.2)
    · rw [remSigned_eq_srem h0 ho]
      exact srem_msb a b

theorem divUnsigned_mul_add_remUnsigned (a b : Word) : a = divUnsigned a b * b + remUnsigned a b := by
  by_cases h0 : b = 0
  · rw [remUnsigned_of_zero h0, h0, mul_zero, zero_add]
  · rw [divUnsigned_of_ne_zero h0, remUnsigned_of_ne_zero h0]
    calc a
      _ = BitVec.ofNat 32 (a.toNat / b.toNat * b.toNat + a.toNat % b.toNat) := by
        rw [Nat.div_add_mod', BitVec.ofNat_toNat, BitVec.setWidth_eq]
      _ = _ := by rw [BitVec.ofNat_add, BitVec.ofNat_mul, BitVec.ofNat_toNat, BitVec.setWidth_eq]

/-- Settles O15: the quotient and remainder that `exec` writes satisfy the identity for every pair of operands. -/
theorem divisionIdentity : Obligations.DivisionIdentity := fun s _ rs1 rs2 =>
  ⟨⟨divSigned (s.readReg rs1) (s.readReg rs2), remSigned (s.readReg rs1) (s.readReg rs2),
      computes_of_exec rfl rfl, computes_of_exec rfl rfl, divSigned_mul_add_remSigned _ _, remSigned_msb _ _⟩,
    ⟨divUnsigned (s.readReg rs1) (s.readReg rs2), remUnsigned (s.readReg rs1) (s.readReg rs2),
      computes_of_exec rfl rfl, computes_of_exec rfl rfl, divUnsigned_mul_add_remUnsigned _ _⟩⟩

end Sys2Proof.Machine
end

section
/-! SUPPORT. The decode table as Initialize builds it, and a word placed in it (R140, R143). -/

namespace Sys2Proof.Machine

theorem decodeWord_of_decode {b0 b1 b2 b3 : Byte} {rest rest' : List Byte} {i : Instr}
    (h : decode (b0 :: b1 :: b2 :: b3 :: rest) = .ok (i, rest')) :
    decodeWord (wordOfBytes b0 b1 b2 b3) = .record i := by
  simp only [decode] at h
  split at h <;> cases h
  assumption

theorem decodeWord_of_decodeTableWord {nbits w : Nat} {i : Instr} (h : decodeTableWord nbits w = some i) :
    decodeWord (tableWord nbits w) = .record i := by
  unfold decodeTableWord at h
  split at h
  · next i' rest hd =>
    cases h
    have hw := decodeWord_of_decode hd
    rwa [wordOfBytes_bytes] at hw
  · cases h

/-- A placed slot stands where it was placed. -/
theorem placeSlot_getElem? (dt : List Slot) (k : Nat) (slot : Slot) : (placeSlot dt k slot)[k]? = some slot := by
  unfold placeSlot
  rw [List.getElem?_set_self]
  simp only [List.length_append, List.length_replicate]
  omega

/-- A slot of the table Initialize builds is the class of the word of the buffer at its place. -/
theorem buildDecodeTable_getElem? (m : Memory) {n k : Nat} (hk : k < n / 4) :
    (buildDecodeTable m n)[k]? = some (decodeWord (m.load (4 * k) .word true)) := by
  simp [buildDecodeTable, hk]

theorem buildDecodeTable_length (m : Memory) (n : Nat) : (buildDecodeTable m n).length = n / 4 := by
  simp [buildDecodeTable]

/-- `DECODED_BYTES` is whole words (R7). -/
theorem decodedBytes_eq (p : Launch) : 4 * (p.decodedBytes / 4) = p.decodedBytes := by
  unfold Launch.decodedBytes ceil4 align16
  split <;> omega

end Sys2Proof.Machine
end

section
/-! The statements of Initialize, Reset, and the instruction a step runs. -/

namespace Sys2Proof.Machine

/-- Settles O6: the slot at the pc is the one given, the one placed, or the class of the buffer's word there. -/
theorem stepRunsDecodedInstruction : Obligations.StepRunsDecodedInstruction := by
  intro s hr hi aligned
  refine ⟨fun i he => ?slot, fun nbits w i hd => ?placed, fun p image fill s0 i h0 hdt hin hd => ?image⟩
  case slot => exact step_of_fetch_run hr hi (State.fetch_slot aligned he)
  case placed =>
    have he : (s.withFetchWord nbits w).dt[s.pc.toNat / 4]? = some (.record i) := by
      rw [← decodeWord_of_decodeTableWord hd]
      exact placeSlot_getElem? _ _ _
    have hf : (s.withFetchWord nbits w).fetch = .run i :=
      State.fetch_slot (s := s.withFetchWord nbits w) aligned he
    exact step_of_fetch_run (s := s.withFetchWord nbits w) hr hi hf
  case image =>
    have he : s.dt[s.pc.toNat / 4]? = some (.record i) := by
      have whole := decodedBytes_eq p
      by_cases hlen : image.length = p.programSize
      · obtain ⟨t, ht, _, _, _, dt⟩ := hostInitialize_of_length hlen fill
        obtain rfl : t = s0 := by rw [ht] at h0; cases h0; rfl
        rw [hdt, dt, buildDecodeTable_getElem? _ (by omega), ← decodeWord_of_decode hd,
          show 4 * (s.pc.toNat / 4) = s.pc.toNat by omega]
        rfl
      · rw [hostInitialize_of_length_ne hlen] at h0
        cases h0
    exact step_of_fetch_run hr hi (State.fetch_slot aligned he)

/-- Settles O49: the laws of the initial buffer, and a slot as the word at its place. -/
theorem initializeBuilds : Obligations.InitializeBuilds := by
  refine fun p image fill => ⟨fun hlen => ?built, fun hlen => hostInitialize_of_length_ne hlen fill⟩
  obtain ⟨s, hs, launch, refused, mem, dt⟩ := hostInitialize_of_length hlen fill
  have length : s.dt.length = p.decodedBytes / 4 := by rw [dt, buildDecodeTable_length]
  refine ⟨s, hs, by rw [mem]; rfl, launch, refused, fun a ha => ?_, fun a ha => ?_, ?_, fun k hk => ?_⟩
  · rw [mem, Memory.read_initial_image fill image p.stackEnd ha]
  · rw [mem, Memory.read_initial_fill fill image p.stackEnd ha]
  · rw [length, decodedBytes_eq]
  · rw [dt, buildDecodeTable_getElem? _ (length ▸ hk), Memory.load_word]

/-- The registers after Reset: STACK_END in x2, 0 elsewhere (R45). -/
theorem resetRegs_getElem (stackEnd : Nat) (r : RegIdx) :
    (resetRegs stackEnd)[r.toNat]'r.isLt = if r = 2 then BitVec.ofNat 32 stackEnd else 0 := by
  unfold resetRegs
  rw [Vector.getElem_set]
  split_ifs with h h' h'
  · rfl
  · exact absurd (BitVec.eq_of_toNat_eq h.symm) h'
  · exact absurd (h' ▸ rfl) h
  · exact Vector.getElem_replicate _

/-- Settles O47: the registers by `resetRegs`, the rest as `hostReset` sets it. -/
theorem resetEstablishes : Obligations.ResetEstablishes := by
  intro s t
  have cell (r : RegIdx) : t.cell r = if r = 2 then BitVec.ofNat 32 s.launch.stackEnd else 0 :=
    resetRegs_getElem s.launch.stackEnd r
  refine ⟨?_, fun r hr => (cell r).trans (if_neg hr), rfl, fun n => by cases n <;> rfl,
    State.interruptReady_of_mie BitVec.getLsbD_zero, rfl, rfl, rfl, rfl, rfl⟩
  rw [cell, if_pos rfl, BitVec.toNat_ofNat]

/-- Settles O48: `State.reset` is a closed state. -/
theorem resetValues : Obligations.ResetValues := by
  unfold Obligations.ResetValues
  decide

end Sys2Proof.Machine
end

section
/-! The observer: an exception is reported exactly when it is taken. -/

namespace Sys2Proof.Machine

/-! ### What an instruction reports and what it takes -/

/-- A load path that traps has called at most one hook. -/
theorem called_of_memRead_trap {s u : State} {addr : Word} {w : Width} {signed : Bool} {c : Cause}
    (h : s.memRead addr w signed = .trap c u) : Called s u := by
  obtain ⟨u', called, ⟨c', h'⟩ | ⟨v, h'⟩⟩ := s.memRead_cases addr w signed
  · cases h'.symm.trans h
    exact called
  · cases h'.symm.trans h

/-- A store path that traps has called at most one hook. -/
theorem called_of_memWrite_trap {s u : State} {addr : Word} {w : Width} {v : Word} {c : Cause}
    (h : s.memWrite addr w v = .trap c u) : Called s u := by
  obtain ⟨u', called, ⟨c', h'⟩ | h'⟩ | ⟨_, h'⟩ := s.memWrite_cases addr w v
  · cases h'.symm.trans h
    exact called
  · cases h'.symm.trans h
  · cases h'.symm.trans h

/-- The exception `c` is taken from a state that differs from `s` in the history of calls alone. -/
def TakesException (c : Cause) (s : State) (r : Result) : Prop := ∃ u, Called s u ∧ r = .next (u.takeException c)

theorem execLoad_takes {s : State} {rd : RegIdx} {addr : Word} {w : Width} {signed : Bool} {c : Cause}
    (h : Report.exception c ∈ observeLoad addr w signed s) : TakesException c s (execLoad rd addr w signed s) := by
  obtain ⟨u, hu⟩ := (exception_mem_observeLoad s addr w signed c).mp h
  exact ⟨u, called_of_memRead_trap hu, by rw [execLoad, hu]⟩

theorem execStore_takes {s : State} {addr : Word} {w : Width} {v : Word} {c : Cause}
    (h : Report.exception c ∈ observeStore addr w v s) : TakesException c s (execStore addr w v s) := by
  obtain ⟨u, hu⟩ := (exception_mem_observeStore s addr w v c).mp h
  exact ⟨u, called_of_memWrite_trap hu, by rw [execStore, hu]⟩

theorem csrInstr_takes {s : State} {op : CsrOp} {rd : RegIdx} {src : BitVec 5} {v : Word} {csr : CsrAddr} {c : Cause}
    (h : Report.exception c ∈ observeCsr op src v csr s) : TakesException c s (csrInstr op rd src v csr s) := by
  obtain ⟨illegal, rfl⟩ := (exception_mem_observeCsr op src v csr s c).mp h
  exact ⟨s, .inl rfl, if_pos illegal⟩

/-- ECALL is unclaimed: no hook claims it, and its number is neither of the fallback's (R294). -/
theorem ecallUnclaimed_iff (s : State) : ecallUnclaimed s = true ↔
    (s.launch.syscallHook = true → s.syscallAnswer = none) ∧ s.readReg 17 ≠ s.launch.sysBrk ∧
      s.readReg 17 ≠ s.launch.sysFstat := by
  have answer : s.callSyscallHook.1 = s.syscallAnswer := rfl
  rw [ecallUnclaimed, answer]
  cases s.launch.syscallHook <;> simp [a7, and_assoc]

theorem execEcall_takes {s : State} (h : ecallUnclaimed s = true) : TakesException .ecallM s (execEcall s) := by
  obtain ⟨noClaim, brk, fstat⟩ := (ecallUnclaimed_iff s).mp h
  cases hs : s.launch.syscallHook
  case false => exact ⟨s, .inl rfl, (execEcall_of_no_hook hs).trans (execSyscallFallback_unclaimed brk fstat)⟩
  case true =>
    have raised := execSyscallFallback_unclaimed (s := s.recordCall (s.syscallCall none)) brk fstat
    exact ⟨_, .inr ⟨_, rfl, .inr (.inr hs)⟩, (execEcall_of_no_claim hs (noClaim hs)).trans raised⟩

/-- An exception an instruction reports is taken. -/
theorem exec_takes_reported {i : Instr} {s : State} {c : Cause} (h : Report.exception c ∈ observeInstr i s) :
    TakesException c s (exec i s) := by
  cases i
  case lb | lh | lw | lbu | lhu => exact execLoad_takes h
  case sb | sh | sw => exact execStore_takes h
  case csrrw | csrrs | csrrc | csrrwi | csrrsi | csrrci => exact csrInstr_takes h
  case ecall =>
    rw [observeInstr] at h
    split_ifs at h with unclaimed
    · obtain rfl : c = .ecallM := by simpa using h
      exact execEcall_takes unclaimed
    · cases h
  all_goals cases h

/-- The outcome leaves the CSR cells alone, or takes an exception that `reports` holds. -/
def KeepsCsrOrReports (s t : State) (reports : List Report) : Prop :=
  t.csr = s.csr ∨ ∃ c u, Called s u ∧ t = u.takeException c ∧ Report.exception c ∈ reports

theorem execLoad_reports {s t : State} {rd : RegIdx} {addr : Word} {w : Width} {signed : Bool}
    (h : execLoad rd addr w signed s = .next t) : KeepsCsrOrReports s t (observeLoad addr w signed s) := by
  obtain ⟨u, called, ⟨c, hm⟩ | ⟨v, hm⟩⟩ := s.memRead_cases addr w signed
  · rw [execLoad, hm] at h
    cases h
    exact .inr ⟨c, u, called, rfl, (exception_mem_observeLoad s addr w signed c).mpr ⟨u, hm⟩⟩
  · rw [execLoad, hm] at h
    cases h
    exact .inl called.csr

theorem execStore_reports {s t : State} {addr : Word} {w : Width} {v : Word}
    (h : execStore addr w v s = .next t) : KeepsCsrOrReports s t (observeStore addr w v s) := by
  obtain ⟨u, called, ⟨c, hm⟩ | hm⟩ | ⟨_, hm⟩ := s.memWrite_cases addr w v
  · rw [execStore, hm] at h
    cases h
    exact .inr ⟨c, u, called, rfl, (exception_mem_observeStore s addr w v c).mpr ⟨u, hm⟩⟩
  · rw [execStore, hm] at h
    cases h
    exact .inl called.csr
  · rw [execStore, hm] at h
    cases h
    exact .inl rfl

/-- The fallback writes no CSR cell for a number that is its own. -/
theorem execSyscallFallback_keeps_csr {s t : State}
    (own : s.readReg 17 = s.launch.sysBrk ∨ s.readReg 17 = s.launch.sysFstat)
    (h : execSyscallFallback s = .next t) : t.csr = s.csr := by
  by_cases brk : s.readReg 17 = s.launch.sysBrk
  · rw [execSyscallFallback_brk brk] at h
    obtain hb | ⟨n, _, _, hb⟩ | hb := execBrk_cases s <;> cases hb.symm.trans h
    all_goals rfl
  · cases (execSyscallFallback_fstat brk (own.resolve_left brk)).symm.trans h
    rfl

/-- An ECALL that is claimed writes no CSR cell. -/
theorem execEcall_keeps_csr {s t : State} (claimed : ecallUnclaimed s ≠ true) (h : execEcall s = .next t) :
    t.csr = s.csr := by
  have own (noClaim : s.launch.syscallHook = true → s.syscallAnswer = none) :
      s.readReg 17 = s.launch.sysBrk ∨ s.readReg 17 = s.launch.sysFstat := by
    by_contra! other
    exact claimed ((ecallUnclaimed_iff s).mpr ⟨noClaim, other⟩)
  cases hs : s.launch.syscallHook
  case false =>
    rw [execEcall_of_no_hook hs] at h
    exact execSyscallFallback_keeps_csr (own fun e => by rw [hs] at e; cases e) h
  case true =>
    cases ha : s.syscallAnswer with
    | none =>
      rw [execEcall_of_no_claim hs ha] at h
      exact execSyscallFallback_keeps_csr (s := s.recordCall (s.syscallCall none)) (own fun _ => ha) h
    | some v =>
      cases (execEcall_of_claim hs ha).symm.trans h
      rfl

/-- An instruction that is no CSR instruction and no MRET writes no CSR cell, or reports the exception it takes. -/
theorem exec_reports_taken {i : Instr} {s t : State} (hw : writesCsr i = false) (h : exec i s = .next t) :
    KeepsCsrOrReports s t (observeInstr i s) := by
  cases i
  case lb | lh | lw | lbu | lhu => exact execLoad_reports h
  case sb | sh | sw => exact execStore_reports h
  case csrrw | csrrs | csrrc | csrrwi | csrrsi | csrrci | mret => cases hw
  case ecall =>
    by_cases unclaimed : ecallUnclaimed s = true
    · obtain ⟨u, called, hu⟩ := execEcall_takes unclaimed
      cases hu.symm.trans h
      exact .inr ⟨.ecallM, u, called, rfl, by simp [observeInstr, unclaimed]⟩
    · exact .inl (execEcall_keeps_csr unclaimed h)
  case beq | bne | blt | bge | bltu | bgeu =>
    cases h
    left
    split_ifs <;> rfl
  all_goals
    cases h
    exact .inl rfl

/-! ### What a step reports -/

theorem observe_of_fetch_trap {s : State} (hr : s.refused = false) (hi : s.interruptReady = false) {c : Cause}
    (hf : s.fetch = .trap c) : observe s = [.exception c] := by
  simp [observe, hr, hi, hf]

theorem observe_of_fetch_run {s : State} (hr : s.refused = false) (hi : s.interruptReady = false) {i : Instr}
    (hf : s.fetch = .run i) : observe s = .instruction (instrRecord i) :: observeInstr i s.clearX0 := by
  simp [observe, hr, hi, hf]

theorem exception_mem_observe_of_run {s : State} (hr : s.refused = false) (hi : s.interruptReady = false) {i : Instr}
    (hf : s.fetch = .run i) (c : Cause) :
    Report.exception c ∈ observe s ↔ Report.exception c ∈ observeInstr i s.clearX0 := by
  simp [observe_of_fetch_run hr hi hf]

/-- A reported exception is what the step takes, from the state it starts from but for x0 and the hook calls. -/
theorem step_takes_reported {s t : State} {c : Cause} (h : step s = .next t) (hc : Report.exception c ∈ observe s) :
    ∃ u, Called s.clearX0 u ∧ t = (u.takeException c).countCycle := by
  obtain ⟨hr, ⟨hi, rfl⟩ | ⟨hi, c', hf, rfl⟩ | ⟨hi, i, u, hf, he, rfl⟩⟩ := step_cases h
  · simp [observe, hr, hi] at hc
  · rw [observe_of_fetch_trap hr hi hf] at hc
    obtain rfl : c = c' := by simpa using hc
    exact ⟨s.clearX0, .inl rfl, rfl⟩
  · obtain ⟨u', called, hu⟩ := exec_takes_reported ((exception_mem_observe_of_run hr hi hf c).mp hc)
    cases hu.symm.trans he
    exact ⟨u', called, rfl⟩

/-- The state with another value in mcause. -/
def State.withMcause (s : State) (m : Word) : State := { s with csr := { s.csr with mcause := m } }

/-- From whatever mcause held: if the step writes it, the exception whose code it then holds is reported. -/
theorem step_reports_taken {s t : State} {m : Word} (hi : s.interruptReady = false)
    (hw : ∀ i, s.fetch = .run i → writesCsr i = false) (h : step (s.withMcause m) = .next t) (hm : t.csr.mcause ≠ m) :
    ∃ c, t.csr.mcause = c.code ∧ Report.exception c ∈ observe s := by
  have ready : (s.withMcause m).interruptReady = false := hi
  obtain ⟨hr, ⟨hi', _⟩ | ⟨_, c, hf, rfl⟩ | ⟨_, i, u, hf, he, rfl⟩⟩ := step_cases h
  · rw [ready] at hi'
    cases hi'
  · exact ⟨c, rfl, by rw [observe_of_fetch_trap (s := s) hr hi hf]; simp⟩
  · have writes := hw i hf
    obtain same | ⟨c, u', _, rfl, hc⟩ := exec_reports_taken writes he
    · exact absurd (congrArg CsrFile.mcause same) hm
    · refine ⟨c, rfl, (exception_mem_observe_of_run (s := s) hr hi hf c).mpr ?_⟩
      rwa [← observeInstr_csr writes s.clearX0 (s.withMcause m).csr]

/-- Settles O51: what an instruction reports it takes, and the other way round for one that accesses no CSR. -/
theorem reportedExceptionIsTaken : Obligations.ReportedExceptionIsTaken := by
  refine ⟨fun s t c h hc => ?taken, fun s t m hi hw h hm => step_reports_taken hi hw h hm, fun s hr hi =>
    ⟨fun c hf => ?fetch, fun rd src csr hn hm i hmem hf => ?csr⟩⟩
  case taken =>
    obtain ⟨u, called, rfl⟩ := step_takes_reported h hc
    exact ⟨rfl, called.pc, rfl, congrArg (fun f : CsrFile => vectorBase f.mtvec) called.csr⟩
  case fetch => simp [observe_of_fetch_trap hr hi hf]
  case csr =>
    have illegal : s.clearX0.csrIllegal csr = true := by simp [State.csrIllegal, hn, hm]
    rw [exception_mem_observe_of_run hr hi hf]
    simp only [List.mem_cons, List.not_mem_nil, or_false] at hmem
    obtain rfl | rfl | rfl | rfl | rfl | rfl := hmem
    all_goals exact (exception_mem_observeCsr _ _ _ csr s.clearX0 _).mpr ⟨illegal, rfl⟩

end Sys2Proof.Machine
end

section
/-! The assembler's two-instruction expansions (R135): the parts `hi` and `lo` of a value, and what the pairs do. -/

namespace Sys2Proof.Machine

/-! ### The two parts of a value -/

/-- `lo` agrees with the value on the low 12 bits. -/
theorem loPart_toNat_mod (v : Word) : (loPart v).toNat % 2 ^ 12 = v.toNat % 2 ^ 12 := by
  have same := congrArg BitVec.toNat (low12_signExtend (v.extractLsb' 0 12))
  simpa only [loPart, low12, BitVec.extractLsb'_toNat, Nat.shiftRight_zero] using same

/-- So what is left above `lo` has its low 12 bits clear, and `hi` is all of it. -/
theorem upperImm_hiPart (v : Word) : upperImm (hiPart v) = v - loPart v := by
  have low : (v - loPart v).extractLsb' 0 12 = 0#12 := by
    have same := loPart_toNat_mod v
    apply BitVec.eq_of_toNat_eq
    rw [BitVec.extractLsb'_toNat, BitVec.toNat_sub, Nat.shiftRight_zero, BitVec.toNat_ofNat]
    omega
  rw [upperImm, hiPart, ← low, BitVec.extractLsb'_append_extractLsb'_eq_extractLsb' (by norm_num)]
  exact BitVec.extractLsb'_eq_self

theorem upperImm_add_loPart (v : Word) : upperImm (hiPart v) + loPart v = v := by
  rw [upperImm_hiPart, sub_add_cancel]

theorem fitsI_loPart (v : Word) : fitsI (loPart v) = true := fitsI_signExtend _

/-! ### Two instructions in sequence -/

theorem execAll_pair {i j : Instr} {s t u : State} (hi : exec i s = .next t) (hj : exec j t = .next u) :
    execAll [i, j] s = .next u := by
  simp only [execAll, hi, hj]

/-- Of two writes to a register the later stays. -/
theorem State.writeReg_writeReg (s : State) (r : RegIdx) (v v' : Word) :
    (s.writeReg r v).writeReg r v' = s.writeReg r v' := by
  simp [State.writeReg, Vector.set_set]

theorem State.readReg_writeReg_self (s : State) {r : RegIdx} (h : r ≠ 0) (v : Word) : (s.writeReg r v).readReg r = v :=
  (State.readReg_eq_cell _ h).trans (s.cell_writeReg_self r v)

/-- The state after a register and the pc are written. -/
def State.wrote (s : State) (r : RegIdx) (v pc : Word) : State := { s.writeReg r v with pc := pc }

theorem State.wrote_wrote (s : State) (r : RegIdx) (v v' pc pc' : Word) :
    (s.wrote r v pc).wrote r v' pc' = s.wrote r v' pc' :=
  congrArg (fun t : State => { t with pc := pc' }) (s.writeReg_writeReg r v v')

theorem State.readReg_wrote_self (s : State) {r : RegIdx} (h : r ≠ 0) (v pc : Word) : (s.wrote r v pc).readReg r = v :=
  s.readReg_writeReg_self h v

/-- A write to x0 is gone when x0 is cleared. -/
theorem nothingWritten_wrote_zero (s : State) (v pc : Word) :
    NothingWritten [] s.clearX0 (s.wrote 0 v pc).clearX0 := by
  have cleared : (s.wrote 0 v pc).clearX0 = { s.clearX0 with pc := pc } :=
    congrArg (fun t : State => { t with pc := pc }) (s.clearX0_writeReg_zero v)
  rw [cleared]
  exact nothingWritten_pc s.clearX0 pc

theorem pc_add_four_add_four (pc : Word) : pc + 4 + 4 = pc + 8 := BitVec.add_assoc pc 4 4

/-! What the four instructions of the expansions do. -/

theorem exec_lui_eq (s : State) (rd : RegIdx) (hi : BitVec 20) :
    exec (.lui rd hi) s = .next (s.wrote rd (upperImm hi) (s.pc + 4)) := rfl

theorem exec_auipc_eq (s : State) (rd : RegIdx) (hi : BitVec 20) :
    exec (.auipc rd hi) s = .next (s.wrote rd (s.pc + upperImm hi) (s.pc + 4)) := rfl

theorem exec_addi_eq (s : State) (rd rs1 : RegIdx) (imm : Word) :
    exec (.addi rd rs1 imm) s = .next (s.wrote rd (s.readReg rs1 + imm) (s.pc + 4)) := rfl

theorem exec_jalr_eq (s : State) (rd rs1 : RegIdx) (imm : Word) :
    exec (.jalr rd rs1 imm) s = .next (s.wrote rd (s.pc + 4) ((s.readReg rs1 + imm) &&& 0xFFFFFFFE)) := rfl

/-- An upper immediate, then `lo` added to the same register. -/
theorem execAll_upper_addi {i : Instr} {s : State} {rd : RegIdx} {x : Word} (lo : Word)
    (h : exec i s = .next (s.wrote rd x (s.pc + 4))) :
    execAll [i, .addi rd rd lo] s =
      .next (s.wrote rd ((s.wrote rd x (s.pc + 4)).readReg rd + lo) (s.pc + 8)) := by
  rw [execAll_pair h (exec_addi_eq _ rd rd lo), State.wrote_wrote, ← pc_add_four_add_four]
  rfl

/-- An upper immediate in `r`, then a jump to it with `lo` added. -/
theorem execAll_auipc_jalr (s : State) {r : RegIdx} (hr : r ≠ 0) (rd : RegIdx) (v : Word) :
    execAll [.auipc r (hiPart v), .jalr rd r (loPart v)] s =
      .next ((s.wrote r (s.pc + v - loPart v) (s.pc + 4)).wrote rd (s.pc + 8) ((s.pc + v) &&& 0xFFFFFFFE)) := by
  rw [execAll_pair (exec_auipc_eq s r (hiPart v)) (exec_jalr_eq _ rd r (loPart v)), State.readReg_wrote_self s hr,
    add_assoc, upperImm_add_loPart, upperImm_hiPart, ← add_sub_assoc, ← pc_add_four_add_four]
  rfl

/-! ### The expansions -/

theorem execAll_li (s : State) {rd : RegIdx} (hrd : rd ≠ 0) (v : Word) :
    execAll (Pseudo.li rd v).expand s = .next (s.wrote rd v (s.pc + if fitsI v then 4 else 8)) := by
  simp only [Pseudo.expand]
  split_ifs
  · rw [execAll, exec_addi_eq, State.readReg_zero, zero_add]
    rfl
  · rw [execAll_upper_addi _ (exec_lui_eq s rd _), State.readReg_wrote_self s hrd, upperImm_add_loPart]

theorem execAll_la (s : State) {rd : RegIdx} (hrd : rd ≠ 0) (v : Word) :
    execAll (Pseudo.la rd v).expand s = .next (s.wrote rd (s.pc + v) (s.pc + 8)) := by
  rw [Pseudo.expand, execAll_upper_addi _ (exec_auipc_eq s rd _), State.readReg_wrote_self s hrd, add_assoc,
    upperImm_add_loPart]

theorem execAll_li_zero (s : State) (v : Word) :
    ∃ x, execAll (Pseudo.li 0 v).expand s = .next (s.wrote 0 x (s.pc + if fitsI v then 4 else 8)) := by
  simp only [Pseudo.expand]
  split_ifs
  · exact ⟨_, rfl⟩
  · exact ⟨_, execAll_upper_addi _ (exec_lui_eq s 0 _)⟩

theorem execAll_la_zero (s : State) (v : Word) :
    ∃ x, execAll (Pseudo.la 0 v).expand s = .next (s.wrote 0 x (s.pc + 8)) :=
  ⟨_, execAll_upper_addi _ (exec_auipc_eq s 0 _)⟩

theorem expand_wellFormed (rd : RegIdx) (v : Word) :
    ∀ i ∈ (Pseudo.li rd v).expand ++ (Pseudo.la rd v).expand ++ (Pseudo.call v).expand ++ (Pseudo.tail v).expand,
      i.wellFormed = true := by
  have lo := fitsI_loPart v
  simp only [Pseudo.expand]
  split_ifs with fits <;> simp [Instr.wellFormed, lo, fits]

/-- `tail` leaves the AUIPC's value in x6; its link goes to x0, and is gone when x0 is cleared. -/
theorem regWritten_clearX0_wrote_zero (s : State) {r : RegIdx} (hr : r ≠ 0) (x y pc pc' : Word) :
    RegWritten r x [] s.clearX0 ((s.wrote r x pc).wrote 0 y pc').clearX0 where
  result := by
    rw [State.cell_clearX0_ne _ hr]
    exact (State.cell_writeReg_ne _ hr y).trans (s.cell_writeReg_self r x)
  others := fun q hq => by
    by_cases h0 : q = 0
    · rw [h0, State.cell_clearX0_zero, State.cell_clearX0_zero]
    · rw [State.cell_clearX0_ne _ h0, State.cell_clearX0_ne _ h0]
      exact (State.cell_writeReg_ne _ h0 y).trans (s.cell_writeReg_ne hq x)
  csr := rfl
  memory := .of_eq rfl
  fixed := ⟨rfl, rfl, rfl, rfl, rfl⟩
  hookLog := rfl
  draws := rfl

/-- Settles O52: `hi` shifted up and `lo` add to the value, and the second instruction overwrites what the first
wrote. -/
theorem pseudoInstructionsReachEveryValue : Obligations.PseudoInstructionsReachEveryValue := by
  refine ⟨expand_wellFormed, fun s rd v hrd => ⟨⟨_, execAll_li s hrd v, regWritten_writeReg s rd _ _, rfl⟩,
    ⟨_, execAll_la s hrd v, regWritten_writeReg s rd _ _, rfl⟩⟩, fun s v => ⟨?li, ?la⟩, fun s v => ⟨?call, ?tail⟩⟩
  case li =>
    obtain ⟨x, h⟩ := execAll_li_zero s v
    exact ⟨_, h, nothingWritten_wrote_zero s x _, rfl⟩
  case la =>
    obtain ⟨x, h⟩ := execAll_la_zero s v
    exact ⟨_, h, nothingWritten_wrote_zero s x _, rfl⟩
  case call =>
    refine ⟨_, execAll_auipc_jalr s (by decide) 1 v, ?_, getLsbD_clearBit0 _⟩
    rw [State.wrote_wrote]
    exact regWritten_writeReg s 1 _ _
  case tail =>
    exact ⟨_, execAll_auipc_jalr s (by decide) 0 v, regWritten_clearX0_wrote_zero s (by decide) _ _ _ _,
      getLsbD_clearBit0 _⟩

end Sys2Proof.Machine
end
